-- ==== Sys2Proof/Word.lean ====
section
/-! DEFINITION. The word types of the virtual-lab modem block: every register, buffer entry and bus transfer is 64 bits
wide, an address is a 24-bit byte offset within the block (00_scope.md R7, 10_state.md R30). -/

namespace Sys2Proof

/-- A register, a buffer entry or the data of a bus transfer (R7: data word width 64). -/
abbrev Word := BitVec 64

/-- A word read as an IEEE 754 binary64 pattern (R11, R116). -/
abbrev F64 := BitVec 64

/-- A byte of the block's address space (R87). -/
abbrev Byte := BitVec 8

/-- A byte offset within the block's 16 MiB window (R7, R80). -/
abbrev Offset := BitVec 24

end Sys2Proof
end

