-- ==== Sys2Proof/Syntax.lean ====
section
/-! DEFINITION. The commands of the block (one constructor per row of spec/opcode_table.json), the names of its
registers and buffers, the bus transactions of R117 and the host-program notation of R118. -/

namespace Sys2Proof

/-- The eight commands of R111. No command has an operand field (R115): every operand is a named register or buffer. -/
inductive Instr where
  | nop
  | genBpsk
  | genFsk
  | addNoise
  | demodBpsk
  | demodFsk
  | run
  | softReset
  deriving DecidableEq, Repr

/-- The registers of R36. -/
inductive Reg where
  | id | ctrl | cmd | status
  | amp | fs | duration | bitrate | fc | f0 | f1 | snrDb
  | nbits
  | n | spb | ndec | fsEff | durEff | ampEff | psig | sigma
  deriving DecidableEq, Repr

/-- The buffers of R55. -/
inductive Buf where
  | bits | t | bb | car | mod | rx | mixed | filt | q | recon | dec | e0 | e1 | mark
  deriving DecidableEq, Repr

/-- The direction of a bus transaction, with the data word of a write (R117). -/
inductive Dir where
  | read
  | write (v : Word)
  deriving DecidableEq, Repr

/-- One host bus transaction: byte offset, width in bytes, direction (R117). -/
structure Access where
  offset : Offset
  width  : Nat
  dir    : Dir
  deriving DecidableEq, Repr

/-- An access as the host bus carries it, at a physical address; the block's window stands at `BASE` there (R80). -/
structure PhysAccess where
  addr  : Nat
  width : Nat
  dir   : Dir
  deriving DecidableEq, Repr

/-- Where a line of a host program reads or writes: a register by name, an entry of a buffer, or a plain offset
(R118). -/
inductive Place where
  | reg (r : Reg)
  | entry (b : Buf) (i : Nat)
  | off (o : Offset)
  deriving DecidableEq, Repr

/-- A value of a host program: an unsigned integer, or a binary64 literal given as sign, numerator and denominator of
the decimal (R118). -/
inductive Literal where
  | int (v : Word)
  | f64 (negative : Bool) (num den : Nat)
  deriving DecidableEq, Repr

/-- One line of a host program in the notation of R118. `wait k` is a `WAIT` whose read loop polls `STATUS` `k` times
before the running command completes. -/
inductive HostLine where
  | w (dst : Place) (v : Literal)
  | r (dst : Place)
  | cmd (i : Instr)
  | wait (k : Nat)
  | clr
  | loadBits (bits : List Bool)
  deriving DecidableEq, Repr

end Sys2Proof
end

