-- ==== Sys2Proof/WellFormed.lean ====
section
/-! DEFINITION. Well-formed command words, bus transactions and host lines. A command has no operand field (R115), so
every `Instr` is well formed; the checks are on the words that encode one and on the transactions that carry them. -/

namespace Sys2Proof

/-- Every command is well formed: it has no immediate and no register field (R115). -/
def Instr.wellFormed (_ : Instr) : Bool := true

/-- A legal command word has `MBZ` zero and a code of R111's map (R110, R111). -/
def commandWordWellFormed (w : Word) : Bool := w.toNat / 256 == 0 && decide (w.toNat % 256 ≤ 7)

/-- The only access width is 8 bytes (R85). -/
def Access.widthOk (a : Access) : Bool := a.width == 8

/-- An access is legal only at a multiple of 8 (R86). -/
def Access.aligned (a : Access) : Bool := a.offset.toNat % 8 == 0

/-- A bus transaction the block performs: anything else is a bus error (R85, R86, R300). -/
def Access.wellFormed (a : Access) : Bool := a.widthOk && a.aligned

/-- A binary64 literal has a denominator (R118). -/
def Literal.wellFormed : Literal → Bool
  | .int _ => true
  | .f64 _ _ den => den != 0

/-- A place of a host program that lies in the window of its buffer, at a multiple of 8 (R83, R86). -/
def Place.wellFormed : Place → Bool
  | .reg _ => true
  | .entry _ i => decide (i < 65536)
  | .off o => o.toNat % 8 == 0

/-- A line of a host program (R118). -/
def HostLine.wellFormed : HostLine → Bool
  | .w dst v => dst.wellFormed && v.wellFormed
  | .r dst => dst.wellFormed
  | .cmd i => i.wellFormed
  | .wait _ => true
  | .clr => true
  | .loadBits bits => decide (bits.length ≤ 65536)

end Sys2Proof
end

