-- ==== Sys2Proof/Decode.lean ====
section
/-! DEFINITION. The decoder of R112, total on every word and on every list of bytes, and the encoder of R111. -/

namespace Sys2Proof

/-- Why a word is `ILLEGAL` (R112), or why there is no word at all. -/
inductive DecodeError where
  /-- `w[63:8] != 0` -/
  | mbzNonzero
  /-- a code 0x08 to 0xFF with `MBZ = 0` -/
  | illegalCode
  /-- fewer than the eight bytes of a command word -/
  | truncated
  deriving DecidableEq, Repr

/-- The command code of R111. -/
def opcode : Instr → BitVec 8
  | .nop => 0x00
  | .genBpsk => 0x01
  | .genFsk => 0x02
  | .addNoise => 0x03
  | .demodBpsk => 0x04
  | .demodFsk => 0x05
  | .run => 0x06
  | .softReset => 0x07

/-- R112 on one word written to `CMD`: `OPC` is bits 7:0 and `MBZ` bits 63:8 (R110). -/
def decodeWord (w : Word) : Except DecodeError Instr :=
  if w.extractLsb' 8 56 ≠ 0 then .error .mbzNonzero
  else
    match (w.extractLsb' 0 8).toNat with
    | 0 => .ok .nop
    | 1 => .ok .genBpsk
    | 2 => .ok .genFsk
    | 3 => .ok .addNoise
    | 4 => .ok .demodBpsk
    | 5 => .ok .demodFsk
    | 6 => .ok .run
    | 7 => .ok .softReset
    | _ => .error .illegalCode

/-- The bytes of a word as the bus presents them, byte `k` being bits `8k+7:8k` (R87). -/
def wordBytes (w : Word) : List Byte := (List.range 8).map fun k => BitVec.ofNat 8 (w.toNat / 256 ^ k)

/-- The word made of eight bytes in that order (R87). -/
def wordOfBytes (b0 b1 b2 b3 b4 b5 b6 b7 : Byte) : Word :=
  BitVec.ofNat 64 (b0.toNat + 256 * (b1.toNat + 256 * (b2.toNat + 256 * (b3.toNat + 256 * (b4.toNat
    + 256 * (b5.toNat + 256 * (b6.toNat + 256 * b7.toNat)))))))

/-- The decoder on bytes: the one format is eight bytes long (R110); what follows them is handed back. -/
def decodeBytes : List Byte → Except DecodeError (Instr × List Byte)
  | b0 :: b1 :: b2 :: b3 :: b4 :: b5 :: b6 :: b7 :: rest =>
    match decodeWord (wordOfBytes b0 b1 b2 b3 b4 b5 b6 b7) with
    | .ok i => .ok (i, rest)
    | .error e => .error e
  | _ => .error .truncated

/-- The full command word of R111: `0x00000000_000000OPC`. -/
def encode (i : Instr) : Word := (opcode i).setWidth 64

/-- The bytes of a command's word (R87, R111). -/
def encodeBytes (i : Instr) : List Byte := wordBytes (encode i)

/-- What the decoder reads from a row of spec/opcode_table.json: the row's `nbits` low bits are `w`'s, every bit above
them is zero. -/
def decodeTableWord (nbits w : Nat) : Option Instr :=
  match decodeBytes (wordBytes (BitVec.ofNat 64 (w % 2 ^ nbits))) with
  | .ok (i, _) => some i
  | .error _ => none

end Sys2Proof
end

