-- ==== Sys2Proof/Config.lean ====
section
/-! DEFINITION. What the spec leaves to the implementation or calls unspecified: the configuration functions of R13,
the entropy oracle of R205 and the free values of R148, R341, R342 and R351. None has a body: nothing can be proved
about a value of one of them, so a claim about the model holds whatever the hardware does there. -/

namespace Sys2Proof

/-- The binary64 operations that can produce a NaN (R11, R148). -/
inductive FloatOp where
  | add
  | mul
  | div
  | sqrt
  deriving DecidableEq, Repr

/-- `COS` before the laws of R13 are imposed on it (Machine/Functions.lean). Free value, log entry 6. -/
opaque Config.cosRaw : F64 → F64

/-- `SIN` before the laws of R13. Free value, log entry 6. -/
opaque Config.sinRaw : F64 → F64

/-- `LN` before the laws of R13. Free value, log entry 6. -/
opaque Config.lnRaw : F64 → F64

/-- `POW10` before the laws of R13. Free value, log entry 6. -/
opaque Config.pow10Raw : F64 → F64

/-- The `n`-th answer of the entropy source since the machine was built: a 53-bit integer, any value (R205).
Free value, log entry 8. -/
opaque Config.entropy : Nat → BitVec 53

/-- The bits from which the sign and payload of a NaN are taken: any value, for each command that completes
(first argument), operation and operands (R148, 93_implementation_defined.md item 32). Free value, log entry 7. -/
opaque Config.nanBits : Nat → FloatOp → F64 → F64 → Word

/-- What a byte of a buffer holds after the `r`-th hardware reset until something writes it (R342): any value, fixed
at that reset. Free value, log entry 9. -/
opaque Config.resetByte : Nat → Nat → Byte

/-- What the `n`-th in-flight read returns (R351): any value. Free value, log entry 11. -/
opaque Config.inFlightWord : Nat → Word

/-- What the `n`-th abort leaves in the buffer entry at a byte offset that the aborted command would have written
(R341, R276): any value. Free value, log entry 12. -/
opaque Config.abortWord : Nat → Nat → Word

/-- Whether the command stopped by the `n`-th abort had already committed the fallback bits of R140 (R276: it may or
may not have). Free value, log entry 12. -/
opaque Config.abortCommitsFallback : Nat → Bool

end Sys2Proof
end

