-- ==== Sys2Proof/Machine/Float64.lean ====
section
/-! DEFINITION. IEEE 754 binary64 on words (R11, R12, R14, R116, R148): fields, exact magnitudes, correct rounding to
nearest even, the operations `+ * / sqrt`, conversion from integers, floor and the ordered comparison.

Every finite binary64 is a whole number of units of 2^-1074, so magnitudes are natural numbers of units, results are
computed exactly as a quotient of naturals and rounded once. -/

namespace Sys2Proof.F64

/-- Units in 1.0: the number `x` is `mag x / unit` up to sign. -/
def unit : Nat := 2 ^ 1074

/-- Bit 63 (R116). -/
def sign (x : F64) : Bool := decide (2 ^ 63 ≤ x.toNat)

/-- The biased exponent, bits 62:52 (R116). -/
def expo (x : F64) : Nat := x.toNat / 2 ^ 52 % 2 ^ 11

/-- The fraction, bits 51:0 (R116). -/
def frac (x : F64) : Nat := x.toNat % 2 ^ 52

def isNaN (x : F64) : Bool := expo x == 2047 && frac x != 0

def isInf (x : F64) : Bool := expo x == 2047 && frac x == 0

/-- Neither NaN nor ±Infinity (R14). -/
def finite (x : F64) : Bool := expo x != 2047

/-- Bits 62:0. -/
def absBits (x : F64) : Nat := x.toNat % 2 ^ 63

/-- +0.0 or -0.0. -/
def isZero (x : F64) : Bool := absBits x == 0

/-- The magnitude of a finite number in units: subnormals have no hidden bit and are never flushed (R148). -/
def mag (x : F64) : Nat :=
  if expo x = 0 then frac x else (frac x + 2 ^ 52) * 2 ^ (expo x - 1)

/-- The signed magnitude of a finite number in units. -/
def smag (x : F64) : Int := if sign x then -(mag x : Int) else (mag x : Int)

/-- A word from a sign and bits 62:0. -/
def pack (s : Bool) (bits : Nat) : F64 := BitVec.ofNat 64 (if s then 2 ^ 63 + bits else bits)

def zero : F64 := 0x0000000000000000
def one : F64 := 0x3FF0000000000000
def negOne : F64 := 0xBFF0000000000000
def posInf : F64 := 0x7FF0000000000000

/-- Bits 62:0 of infinity. -/
def infBits : Nat := 2047 * 2 ^ 52

/-- `-x` flips the sign bit (R11). -/
def neg (x : F64) : F64 := x ^^^ 0x8000000000000000

/-- `num / den` rounded to an integer, ties to even. -/
def roundHalfEven (num den : Nat) : Nat :=
  let q := num / den
  let r := num % den
  if den < 2 * r then q + 1 else if 2 * r = den ∧ q % 2 = 1 then q + 1 else q

/-- The exponent of the last place kept when a magnitude of `num / den` units is rounded to 53 bits. -/
def lastPlace (num den : Nat) : Nat := Nat.log2 (num / den) - 52

/-- Bits 62:0 of the binary64 nearest to `num / den` units, ties to even, overflow to infinity (R11, R148). A carry out
of the fraction moves into the exponent by itself. -/
def roundBits (num den : Nat) : Nat :=
  let k := lastPlace num den
  min (k * 2 ^ 52 + roundHalfEven num (den * 2 ^ k)) infBits

/-- The binary64 nearest to `± num / den` units. -/
def round (s : Bool) (num den : Nat) : F64 := pack s (roundBits num den)

/-- A NaN with an unspecified sign and payload (R148): every NaN pattern is some `w`'s. -/
def someNaN (w : Word) : F64 :=
  let v := w ||| 0x7FF0000000000000
  if frac v = 0 then v ||| 0x0008000000000000 else v

/-- The NaN an operation produces from its operands in the command whose number is `ν` (log entry 7). -/
def nan (ν : Nat) (op : FloatOp) (x y : F64) : F64 := someNaN (Config.nanBits ν op x y)

/-- `x + y` (R11, R148). An exact zero sum is +0.0 unless both operands are negative. -/
def add (ν : Nat) (x y : F64) : F64 :=
  if isNaN x || isNaN y then nan ν .add x y
  else if isInf x then (if isInf y && sign x != sign y then nan ν .add x y else x)
  else if isInf y then y
  else
    let z := smag x + smag y
    if z = 0 then pack (sign x && sign y) 0 else round (decide (z < 0)) z.natAbs 1

/-- `x * y` (R11, R148). -/
def mul (ν : Nat) (x y : F64) : F64 :=
  if isNaN x || isNaN y then nan ν .mul x y
  else if isInf x || isInf y then
    (if isZero x || isZero y then nan ν .mul x y else pack (sign x != sign y) infBits)
  else round (sign x != sign y) (mag x * mag y) unit

/-- `x / y` (R11, R148). -/
def div (ν : Nat) (x y : F64) : F64 :=
  if isNaN x || isNaN y then nan ν .div x y
  else if isInf x then (if isInf y then nan ν .div x y else pack (sign x != sign y) infBits)
  else if isInf y then pack (sign x != sign y) 0
  else if isZero y then (if isZero x then nan ν .div x y else pack (sign x != sign y) infBits)
  else round (sign x != sign y) (mag x * unit) (mag y)

/-- The bits of the integer square root below bit `b`, given the bits `r` already found. -/
def isqrtFrom (n : Nat) : Nat → Nat → Nat
  | 0, r => r
  | b + 1, r => isqrtFrom n b (if (r + 2 ^ b) * (r + 2 ^ b) ≤ n then r + 2 ^ b else r)

/-- The integer square root, rounded down. -/
def isqrt (n : Nat) : Nat := isqrtFrom n (Nat.log2 n / 2 + 1) 0

/-- `sqrt(x)` (R11, R148). The root of a positive magnitude has over 500 bits in units, so whether it is exact is all
that rounding needs to know beyond its whole part: an inexact root is stood for by a half unit more. -/
def sqrt (ν : Nat) (x : F64) : F64 :=
  if isNaN x then nan ν .sqrt x x
  else if isZero x then x
  else if sign x then nan ν .sqrt x x
  else if isInf x then x
  else
    let a := mag x * unit
    let r := isqrt a
    round false (2 * r + (if r * r = a then 0 else 1)) 2

/-- `f64(n)` (R11). -/
def ofNat (n : Nat) : F64 := round false (n * unit) 1

/-- The binary64 nearest to a decimal given as a quotient (R118). -/
def ofDecimal (negative : Bool) (num den : Nat) : F64 := round negative (num * unit) den

/-- `floor(x)` of a finite `x` (R11). -/
def floor (x : F64) : Int := smag x / (unit : Int)

/-- Order of the numbers that are not NaN; the two zeros are one number. -/
def rank (x : F64) : Int := if sign x then -(absBits x : Int) else (absBits x : Int)

/-- `x > y`, the ordered comparison: false when either operand is NaN (R14). -/
def gt (x y : F64) : Bool := !isNaN x && !isNaN y && decide (rank y < rank x)

/-- `x < y` (R14). -/
def lt (x y : F64) : Bool := gt y x

/-- `x <= y`, ordered. -/
def le (x y : F64) : Bool := !isNaN x && !isNaN y && decide (rank x ≤ rank y)

/-- `Σ f(j)` for `j` in `0..n-1`, in ascending order from +0.0 (R12). -/
def sum (ν : Nat) (f : Nat → F64) : Nat → F64
  | 0 => zero
  | n + 1 => add ν (sum ν f n) (f n)

end Sys2Proof.F64
end

