-- ==== Sys2Proof/Machine/Functions.lean ====
section
/-! DEFINITION. The constants of R7 and R12, and the configuration functions `COS`, `SIN`, `LN` and `POW10` of R13: free
functions (Config.lean) on which exactly the laws of R13 are imposed. Every function that obeys the laws is one of them,
and nothing else can be proved of them (log entry 6). -/

namespace Sys2Proof.Machine

/-- `TWO_PI` (R12). -/
def twoPi : F64 := 0x401921FB54442D18

/-- `FS_MIN` = 100.0 (R7). -/
def fsMin : F64 := 0x4059000000000000

/-- `DUR_MIN` = 0.001 (R7). -/
def durMin : F64 := 0x3F50624DD2F1A9FC

/-- `AMP_DEFAULT` = 1.0 (R7). -/
def ampDefault : F64 := 0x3FF0000000000000

/-- `COS`: 1.0 at both zeros (R13). -/
def cos (x : F64) : F64 := if F64.isZero x then F64.one else Config.cosRaw x

/-- `SIN`: each zero is its own sine (R13). -/
def sin (x : F64) : F64 := if F64.isZero x then x else Config.sinRaw x

/-- A word made `<= 0`: itself if it is, else its negative, else (a NaN) +0.0. -/
def atMostZero (r : F64) : F64 :=
  if F64.le r F64.zero then r else if F64.isNaN r then F64.zero else F64.neg r

/-- `LN`: +0.0 at 1.0, and at most 0 on (0, 1] (R13). -/
def ln (u : F64) : F64 :=
  if u = F64.one then F64.zero
  else if F64.gt u F64.zero && F64.le u F64.one then atMostZero (Config.lnRaw u)
  else Config.lnRaw u

/-- `POW10` for the integers `1..k` at which R13 fixes it, else the free function. -/
def pow10From (x : F64) : Nat → F64
  | 0 => Config.pow10Raw x
  | k + 1 => if x = F64.ofNat (k + 1) then F64.ofNat (10 ^ (k + 1)) else pow10From x k

/-- `POW10`: 1.0 at +0.0 and exact at the integers 1 to 22 (R13). -/
def pow10 (x : F64) : F64 := if x = F64.zero then F64.one else pow10From x 22

end Sys2Proof.Machine
end

