-- ==== Sys2Proof/Machine/State.lean ====
section
/-! DEFINITION. The architectural state of the block (10_state.md R30: registers, buffers, sequencer phase), what
surrounds it on the bus, the reasons a step can stop, and the state after hardware reset (R60, R340). -/

namespace Sys2Proof.Machine

/-- The parameters of R7 that differ from machine to machine: where the block's window stands on the host bus, and the
capacities of the sample buffers and of `BITS`. No step changes them (log entries 5 and 19). -/
structure Conf where
  /-- `BASE`: any physical address, R7 leaves it to the platform -/
  base       : Nat
  maxSamples : Nat
  maxBits    : Nat
  deriving DecidableEq, Repr

/-- The ranges of R7 and R8; `BASE` has none. -/
def Conf.legal (c : Conf) : Bool :=
  decide (1000 ≤ c.maxSamples) && decide (c.maxSamples ≤ 65536) && decide (4 ≤ c.maxBits) && decide (c.maxBits ≤ 65535)

/-- A modulation scheme (R37, R40). -/
inductive Scheme where
  | bpsk
  | fsk
  deriving DecidableEq, Repr

/-- `CTRL.TIMEBASE` (R38). -/
inductive TimeBase where
  | duration
  | bitrate
  deriving DecidableEq, Repr

/-- `CTRL.POLICY` (R39); the code 3 is never stored. -/
inductive Policy where
  | atEnd
  | midpoint
  | intervalAverage
  deriving DecidableEq, Repr

/-- `CTRL` (R37 to R39); `CTRL[63:4]` reads 0. -/
structure Ctrl where
  scheme   : Scheme
  timebase : TimeBase
  policy   : Policy
  deriving DecidableEq, Repr

/-- The codes of `STATUS.ERR` (R301); no other code is ever written. -/
inductive ErrCode where
  | noError
  | illegalCmd
  | busy
  | noData
  | size
  | range
  deriving DecidableEq, Repr

/-- `STATUS` less `BUSY`, which is the sequencer phase seen from the bus (R40, R58); reserved bits read 0. -/
structure Status where
  genValid    : Bool
  genScheme   : Scheme
  noisy       : Bool
  demodValid  : Bool
  demodScheme : Scheme
  clamp       : Bool
  err         : ErrCode
  deriving DecidableEq, Repr

/-- The RW parameter registers of R36: the word the host wrote, verbatim (R34). -/
structure Params where
  amp      : F64
  fs       : F64
  duration : F64
  bitrate  : F64
  fc       : F64
  f0       : F64
  f1       : F64
  snrDb    : F64
  nbits    : Word
  deriving DecidableEq, Repr

/-- The RO registers a command writes (R36, R49, R50). -/
structure Derived where
  n      : Word
  spb    : Word
  ndec   : Word
  fsEff  : F64
  durEff : F64
  ampEff : F64
  psig   : F64
  sigma  : F64
  deriving DecidableEq, Repr

/-- The sequencer phase (R58). -/
inductive Phase where
  | idle
  | busy (cmd : Instr)
  deriving DecidableEq, Repr

/-- Which agent moves in a step, and what it does (R16, R92; log entry 1). -/
inductive Turn where
  /-- The host performs one bus transaction with the block; a `CMD` write only begins a command (R270). -/
  | host (a : Access)
  /-- The host performs an access at a physical address: the block's own if it falls in the window at `BASE` (R80). -/
  | bus (p : PhysAccess)
  /-- The host writes a word to `CMD`, and the command it starts reaches its completion step before the next turn:
  one transition from acceptance to completion, as R352 allows. -/
  | command (w : Word)
  /-- The sequencer performs the completion step of the running command, if any (R352). -/
  | sequencer
  /-- The platform asserts the reset input (R340). -/
  | assertReset
  /-- The platform releases the reset input (R340). -/
  | releaseReset
  deriving DecidableEq, Repr

/-- What the block last answered on the bus (R300: an error response for a transaction it cannot perform). -/
inductive Response where
  | noAccess
  | data (v : Word)
  | done
  | busError (o : Offset)
  deriving DecidableEq, Repr

/-- Counters that give every unspecified value a name of its own (the MODEL's own fields, log entry 14). -/
structure Fresh where
  /-- entropy draws made so far (R205) -/
  draws  : Nat
  /-- commands completed so far: a NaN's sign and payload may differ from one to the next (R148) -/
  nans   : Nat
  /-- in-flight reads answered so far (R351) -/
  reads  : Nat
  /-- hardware resets so far (R342) -/
  resets : Nat
  /-- aborts so far (R341) -/
  aborts : Nat
  deriving DecidableEq, Repr

/-- The buffers' contents: (byte offset, byte) pairs, offsets strictly rising; an offset that is not listed has not been
written since the last hardware reset and has no value of its own (log entries 9 and 10). -/
abbrev Memory := List Host.Cell

/-- The whole machine. -/
structure State where
  conf     : Conf
  ctrl     : Ctrl
  status   : Status
  par      : Params
  der      : Derived
  mem      : Memory
  phase    : Phase
  inReset  : Bool
  agenda   : List Turn
  response : Response
  fresh    : Fresh
  deriving DecidableEq, Repr

/-- Reasons to stop with a fault: none. The block has no trap and no command that stops it (R306); a malformed access
gets a bus error response and the block carries on (R300). No part of the model raises a fault, which is safe. -/
inductive Fault where
  deriving DecidableEq, Repr

/-- Reasons to refuse. -/
inductive Refusal where
  /-- Raised by `exec` for a command that has no meaning yet (none is left). Safe: the model stops where the hardware goes
  on. -/
  | notModelled (mnemonic : String)
  /-- Raised by `step` for a host access while the reset input is asserted: what it does is the platform's business and
  a model does not accept it (R340, 93_implementation_defined.md item 14). Safe: the model stops. -/
  | accessInReset
  deriving DecidableEq, Repr

/-- `CTRL` after reset (R60). -/
def Ctrl.reset : Ctrl := { scheme := .bpsk, timebase := .duration, policy := .atEnd }

/-- `STATUS` after reset (R60). -/
def Status.reset : Status :=
  { genValid := false, genScheme := .bpsk, noisy := false, demodValid := false, demodScheme := .bpsk, clamp := false,
    err := .noError }

/-- The parameter registers after reset: zeros, and a quiet NaN in `SNR_DB` (R60). -/
def Params.reset : Params :=
  { amp := 0, fs := 0, duration := 0, bitrate := 0, fc := 0, f0 := 0, f1 := 0, snrDb := 0x7FF8000000000000, nbits := 0 }

/-- The RO registers after reset (R60). -/
def Derived.reset : Derived :=
  { n := 0, spb := 0, ndec := 0, fsEff := 0, durEff := 0, ampEff := 0, psig := 0, sigma := 0 }

/-- The state right after hardware reset of the machine with parameters `c` (R60, R340): every register as the spec says,
no buffer entry written, the sequencer idle. Nothing has happened on the bus and the counters of free values stand at zero
(DESIGN CHOICE, log entry 14). -/
def State.resetOf (c : Conf) : State :=
  { conf := c
    ctrl := Ctrl.reset
    status := Status.reset
    par := Params.reset
    der := Derived.reset
    mem := []
    phase := .idle
    inReset := false
    agenda := []
    response := .noAccess
    fresh := { draws := 0, nans := 0, reads := 0, resets := 0, aborts := 0 } }

/-- The parameters of the machine of `State.reset`: the default capacities of R7; for `BASE`, which R7 leaves open, address 0
(DESIGN CHOICE, log entries 5 and 19; statements about reset are made for every `Conf`). -/
def Conf.default : Conf := { base := 0, maxSamples := 65536, maxBits := 4096 }

/-- The state right after hardware reset, with the parameters of `Conf.default`. -/
def State.reset : State := State.resetOf Conf.default

end Sys2Proof.Machine
end

