-- ==== Sys2Proof/Machine/Flags.lean ====
section
/-! DEFINITION. `STATUS` and `CTRL` as words, and every change a command, an error or the host makes to the flags
(10_state.md R37 to R47, 60_exceptions.md R301, R302). -/

namespace Sys2Proof.Machine

/-- `CTRL.SCHEME`, `STATUS.GEN_SCHEME` and `STATUS.DEMOD_SCHEME`: 0 BPSK, 1 FSK (R37, R40). -/
def Scheme.code : Scheme → Nat
  | .bpsk => 0
  | .fsk => 1

/-- `CTRL.TIMEBASE` (R38). -/
def TimeBase.code : TimeBase → Nat
  | .duration => 0
  | .bitrate => 1

/-- `CTRL.POLICY` (R39). -/
def Policy.code : Policy → Nat
  | .atEnd => 0
  | .midpoint => 1
  | .intervalAverage => 2

/-- The codes of R301. -/
def ErrCode.code : ErrCode → Nat
  | .noError => 0x00
  | .illegalCmd => 0x01
  | .busy => 0x02
  | .noData => 0x03
  | .size => 0x04
  | .range => 0x05

/-- `STATUS.BUSY` is the phase seen from the bus (R41, R58). -/
def Phase.isBusy : Phase → Bool
  | .idle => false
  | .busy _ => true

/-- `STATUS` as R40 lays it out; bits 7 and 63:16 read 0. -/
def statusWord (busy : Bool) (st : Status) : Word :=
  BitVec.ofNat 64 (busy.toNat + 2 * st.genValid.toNat + 4 * st.genScheme.code + 8 * st.noisy.toNat
    + 16 * st.demodValid.toNat + 32 * st.demodScheme.code + 64 * st.clamp.toNat + 256 * st.err.code)

/-- `CTRL` as R37 to R39 lay it out; bits 63:4 read 0. -/
def ctrlWord (c : Ctrl) : Word :=
  BitVec.ofNat 64 (c.scheme.code + 2 * c.timebase.code + 4 * c.policy.code)

/-- What a write of `w` to `CTRL` stores: a policy of 3 is stored as 0 and bits 63:4 are discarded (R39). -/
def ctrlOfWord (w : Word) : Ctrl :=
  { scheme := if w.toNat % 2 = 0 then .bpsk else .fsk
    timebase := if w.toNat / 2 % 2 = 0 then .duration else .bitrate
    policy :=
      if w.toNat / 4 % 4 = 1 then .midpoint else if w.toNat / 4 % 4 = 2 then .intervalAverage else .atEnd }

/-- `raise CmdError(code)` has exactly one effect (R302). -/
def cmdError (e : ErrCode) (s : State) : State := { s with status := { s.status with err := e } }

/-- A host write of any value to `STATUS` clears `ERR` and `CLAMP` (R47). -/
def clearStatus (s : State) : State := { s with status := { s.status with err := .noError, clamp := false } }

/-- The flags of a successful generate (R42, R143); `CLAMP` is sticky (R45). -/
def Status.afterGenerate (st : Status) (sch : Scheme) (clamped : Bool) : Status :=
  { st with genValid := true, genScheme := sch, noisy := false, demodValid := false, clamp := st.clamp || clamped }

/-- The flags of a completed noise command (R43, R44, R200). -/
def Status.afterNoise (st : Status) (noisy : Bool) : Status := { st with noisy := noisy, demodValid := false }

/-- The flags of a completed demodulation (R44, R220, R250). -/
def Status.afterDemod (st : Status) (sch : Scheme) (clamped : Bool) : Status :=
  { st with demodValid := true, demodScheme := sch, clamp := st.clamp || clamped }

end Sys2Proof.Machine
end

