-- ==== Sys2Proof/Machine/Ops.lean ====
section
/-! DEFINITION. The address map (R36, R81 to R84), the operations on memory, buffer entries and registers, and what the
rules call the commit and the end of a command. -/

namespace Sys2Proof.Machine

/-! Memory: bytes at offsets, one canonical form. -/

/-- The byte written at an offset, if one was. -/
def Memory.get? : Memory → Nat → Option Byte
  | [], _ => none
  | (b, v) :: m, a => if b = a then some v else Memory.get? m a

/-- A byte written at an offset. -/
def Memory.set : Memory → Nat → Byte → Memory
  | [], a, v => [(a, v)]
  | (b, w) :: m, a, v =>
    if a < b then (a, v) :: (b, w) :: m else if a = b then (a, v) :: m else (b, w) :: Memory.set m a v

/-- All offsets of a memory lie above `lo`, strictly rising. -/
def Memory.risingFrom : Nat → Memory → Bool
  | _, [] => true
  | lo, (b, _) :: m => decide (lo ≤ b) && Memory.risingFrom (b + 1) m

/-- The canonical form: offsets strictly rising. An unlisted offset has no value of its own, so no entry can repeat it. -/
def Memory.wf (m : Memory) : Bool := Memory.risingFrom 0 m

/-- Byte `k` of a word is its bits `8k+7:8k` (R87). -/
def byteOf (w : Word) (k : Nat) : Byte := BitVec.ofNat 8 (w.toNat / 256 ^ k)

/-- Bytes `0..k-1` of a word stored at an offset. -/
def Memory.putBytes (m : Memory) (a : Nat) (w : Word) : Nat → Memory
  | 0 => m
  | k + 1 => Memory.set (Memory.putBytes m a w k) (a + k) (byteOf w k)

/-- A word stored at an offset, little-endian (R87). -/
def Memory.putWord (m : Memory) (a : Nat) (w : Word) : Memory := Memory.putBytes m a w 8

/-! The address map. -/

/-- Where a register stands in the register file (R36). -/
def regOffset : Reg → Nat
  | .id => 0x000
  | .ctrl => 0x008
  | .cmd => 0x010
  | .status => 0x018
  | .amp => 0x020
  | .fs => 0x028
  | .duration => 0x030
  | .bitrate => 0x038
  | .fc => 0x040
  | .f0 => 0x048
  | .f1 => 0x050
  | .snrDb => 0x058
  | .nbits => 0x060
  | .n => 0x068
  | .spb => 0x070
  | .ndec => 0x078
  | .fsEff => 0x080
  | .durEff => 0x088
  | .ampEff => 0x090
  | .psig => 0x098
  | .sigma => 0x0A0

/-- The registers in the order of R36. -/
def allRegs : List Reg :=
  [.id, .ctrl, .cmd, .status, .amp, .fs, .duration, .bitrate, .fc, .f0, .f1, .snrDb, .nbits, .n, .spb, .ndec, .fsEff,
   .durEff, .ampEff, .psig, .sigma]

/-- Where a buffer's window begins (R82). -/
def window : Buf → Nat
  | .bits => 0x100000
  | .t => 0x180000
  | .bb => 0x200000
  | .car => 0x280000
  | .mod => 0x300000
  | .rx => 0x380000
  | .mixed => 0x400000
  | .filt => 0x480000
  | .q => 0x500000
  | .recon => 0x580000
  | .dec => 0x600000
  | .e0 => 0x680000
  | .e1 => 0x700000
  | .mark => 0x780000

/-- The buffers in the order of R82. -/
def allBufs : List Buf := [.bits, .t, .bb, .car, .mod, .rx, .mixed, .filt, .q, .recon, .dec, .e0, .e1, .mark]

/-- The length of a window in bytes: 65536 entries of 8 (R82). -/
def windowBytes : Nat := 0x80000

/-- A buffer's capacity in entries (R55, R82; log entry 15 for `MARK`). -/
def capacity (c : Conf) : Buf → Nat
  | .bits => c.maxBits
  | .mark => c.maxBits + 1
  | _ => c.maxSamples

/-- Entry `i` of a buffer is at `W + 8*i` (R83). -/
def entryAddr (b : Buf) (i : Nat) : Nat := window b + 8 * i

/-- What an offset selects. -/
inductive Target where
  | reg (r : Reg)
  | entry (b : Buf) (i : Nat)
  | unmapped
  deriving DecidableEq, Repr

/-- What the offset of an 8-byte-aligned access selects; an entry at or beyond its buffer's capacity is unmapped (R81 to
R84). -/
def targetOf (c : Conf) (o : Nat) : Target :=
  match allRegs.find? (fun r => regOffset r == o) with
  | some r => .reg r
  | none =>
    match allBufs.find? (fun b => decide (window b ≤ o) && decide (o < window b + windowBytes)) with
    | some b => if (o - window b) / 8 < capacity c b then .entry b ((o - window b) / 8) else .unmapped
    | none => .unmapped

/-! Buffer entries. -/

/-- One byte of buffer memory: what was last written there, else what the last hardware reset left (R342, log entry 9). -/
def readByte (s : State) (a : Nat) : Byte :=
  match Memory.get? s.mem a with
  | some v => v
  | none => Config.resetByte s.fresh.resets a

/-- The `k` bytes from an offset on, the first the least significant (R87). -/
def bytesAt (s : State) (a : Nat) : Nat → Nat
  | 0 => 0
  | k + 1 => (readByte s a).toNat + 256 * bytesAt s (a + 1) k

/-- The word stored at an offset (R87). -/
def wordAt (s : State) (a : Nat) : Word := BitVec.ofNat 64 (bytesAt s a 8)

/-- `BUF.NAME[i]`, read (R10). -/
def entry (s : State) (b : Buf) (i : Nat) : Word := wordAt s (entryAddr b i)

/-- `BUF.NAME[i] <- v` (R10). -/
def putEntry (b : Buf) (i : Nat) (v : Word) (s : State) : State :=
  { s with mem := Memory.putWord s.mem (entryAddr b i) v }

/-- `for i in 0..n-1: BUF.NAME[i] <- f(i)`. -/
def fill (b : Buf) (f : Nat → Word) : Nat → State → State
  | 0, s => s
  | n + 1, s => putEntry b n (f n) (fill b f n s)

/-- A byte offset that lies in one of the first `n` entries of a buffer, for some pair of the list. -/
def coveredBy (rs : List (Buf × Nat)) (a : Nat) : Bool :=
  rs.any fun r => decide (entryAddr r.1 0 ≤ a) && decide (a < entryAddr r.1 r.2)

/-! Registers. -/

/-- The constant of R31. -/
def idWord : Word := 0x314B53464B535042

/-- What a register holds, as the bus shows it (R36); a read of `CMD` returns 0 (R35). -/
def regValue (s : State) : Reg → Word
  | .id => idWord
  | .ctrl => ctrlWord s.ctrl
  | .cmd => 0
  | .status => statusWord s.phase.isBusy s.status
  | .amp => s.par.amp
  | .fs => s.par.fs
  | .duration => s.par.duration
  | .bitrate => s.par.bitrate
  | .fc => s.par.fc
  | .f0 => s.par.f0
  | .f1 => s.par.f1
  | .snrDb => s.par.snrDb
  | .nbits => s.par.nbits
  | .n => s.der.n
  | .spb => s.der.spb
  | .ndec => s.der.ndec
  | .fsEff => s.der.fsEff
  | .durEff => s.der.durEff
  | .ampEff => s.der.ampEff
  | .psig => s.der.psig
  | .sigma => s.der.sigma

/-- What a host read of a buffer entry returns: a `BITS` entry is its bit 0 (R51), any other the whole word. -/
def entryValue (s : State) (b : Buf) (i : Nat) : Word :=
  match b with
  | .bits => BitVec.ofNat 64 ((entry s .bits i).toNat % 2)
  | _ => entry s b i

/-- The value at an offset: a register's, an entry's, or 0 where nothing is mapped (R84). -/
def targetValue (s : State) : Target → Word
  | .reg r => regValue s r
  | .entry b i => entryValue s b i
  | .unmapped => 0

/-! Commands: acceptance and completion. -/

/-- Acceptance of a command (R270). -/
def accept (m : Instr) (s : State) : State := { s with phase := .busy m }

/-- The end of every command: `STATUS.BUSY <- 0`, phase `IDLE` (R352). -/
def endCommand (s : State) : State := { s with phase := .idle }

/-- A command other than `SOFT_RESET`, from its write to its completion step: `ERR_BUSY` if one is running (R270), else
its body between acceptance and completion (R352). -/
def issue (m : Instr) (body : State → State) (s : State) : State :=
  if s.phase.isBusy then cmdError .busy s else endCommand (body (accept m s))

/-- The NaNs of the command that ends here are its own (log entry 7). -/
def nextNans (s : State) : State := { s with fresh := { s.fresh with nans := s.fresh.nans + 1 } }

/-! Reset. -/

/-- Every register at its value in R60, the phase `IDLE`; buffers are not touched. -/
def resetRegisters (s : State) : State :=
  { s with ctrl := Ctrl.reset, status := Status.reset, par := Params.reset, der := Derived.reset, phase := .idle }

/-- Release of hardware reset: registers as in R60, every buffer entry unspecified (R340, R342). -/
def hardReset (s : State) : State :=
  { resetRegisters s with mem := [], inReset := false, fresh := { s.fresh with resets := s.fresh.resets + 1 } }

end Sys2Proof.Machine
end

