-- ==== Sys2Proof/Machine/Operands.lean ====
section
/-! DEFINITION. How the commands read their operands: clamping (R130 to R134), the bit source (R140, R141), the sample
grid (R135 to R139, R143) and the parts shared by the generators and the demodulators (R143, R144). -/

namespace Sys2Proof.Machine

/-- `sanMin` of R132: the value, and whether it was substituted (R131). -/
def sanMin (x m : F64) : F64 × Bool := if F64.isNaN x || F64.lt x m then (m, true) else (x, false)

/-- `sanAmp` of R132. -/
def sanAmp (a : F64) : F64 × Bool := if !F64.finite a || F64.le a F64.zero then (ampDefault, true) else (a, false)

/-- `sanFreq` of R132. -/
def sanFreq (f : F64) : F64 × Bool := if !F64.finite f then (F64.zero, true) else (f, false)

/-- `NB`: the number of bits in use (R140). -/
def bitCount (s : State) : Nat := if s.par.nbits.toNat = 0 then 4 else s.par.nbits.toNat

/-- The fallback pattern `[1,0,1,0]` (R140). -/
def fallbackBit (b : Nat) : Bool := b % 2 == 0

/-- Bit `b` of the sequence in use: bit 0 of `BITS[b]`, or the fallback's when `NBITS = 0` (R140, R51). -/
def sourceBit (s : State) (b : Nat) : Bool :=
  if s.par.nbits.toNat = 0 then fallbackBit b else (entry s .bits b).toNat % 2 == 1

/-- The number of the command in progress, from which its NaNs take their payloads (log entry 7). -/
def nanEpoch (s : State) : Nat := s.fresh.nans

/-- The duration before clamping (R133). -/
def rawDuration (s : State) : F64 :=
  match s.ctrl.timebase with
  | .duration => s.par.duration
  | .bitrate => F64.div (nanEpoch s) (F64.ofNat (bitCount s)) s.par.bitrate

/-- What `GRID` returns (R143), less the bits themselves, which are `sourceBit`'s. -/
structure Grid where
  nb      : Nat
  amp     : F64
  fs      : F64
  dur     : F64
  n       : Nat
  spb     : Nat
  ndec    : Nat
  clamped : Bool
  deriving DecidableEq, Repr

/-- `p = fs * dur` of the clamped sample rate and duration (R134, R135). -/
def gridProduct (s : State) : F64 :=
  F64.mul (nanEpoch s) (sanMin s.par.fs fsMin).1 (sanMin (rawDuration s) durMin).1

/-- The size check of R136. -/
def gridTooLarge (s : State) : Bool :=
  gridProduct s == F64.posInf || decide ((s.conf.maxSamples : Int) < F64.floor (gridProduct s))

/-- `N = max(1, floor(p))` (R135). -/
def gridSamples (s : State) : Nat := max 1 (F64.floor (gridProduct s)).toNat

/-- `SPB = max(1, N div NB)` (R135). -/
def gridSpb (s : State) : Nat := max 1 (gridSamples s / bitCount s)

/-- The generate prologue `GRID` (R143); no result stands for `raise CmdError(ERR_SIZE)`. -/
def grid (s : State) : Option Grid :=
  if gridTooLarge s then none
  else
    some
      { nb := bitCount s
        amp := (sanAmp s.par.amp).1
        fs := (sanMin s.par.fs fsMin).1
        dur := (sanMin (rawDuration s) durMin).1
        n := gridSamples s
        spb := gridSpb s
        ndec := gridSamples s / gridSpb s
        clamped := (sanAmp s.par.amp).2 || (sanMin s.par.fs fsMin).2 || (sanMin (rawDuration s) durMin).2 }

/-- The owner bit of sample `i` (R141). -/
def Grid.owner (g : Grid) (i : Nat) : Nat := min (i / g.spb) (g.nb - 1)

/-- The instant of sample `i`, `f64(i) / fs` (R137). -/
def Grid.instant (g : Grid) (ν : Nat) (i : Nat) : F64 := F64.div ν (F64.ofNat i) g.fs

/-- Bit-boundary marker `b`, `(f64(b) * dur) / f64(NB)` (R142). -/
def Grid.marker (g : Grid) (ν : Nat) (b : Nat) : F64 :=
  F64.div ν (F64.mul ν (F64.ofNat b) g.dur) (F64.ofNat g.nb)

/-- `+amp` for a 1 bit, `-amp` for a 0 bit (R161, R187). -/
def nrz (amp : F64) (bit : Bool) : F64 := if bit then amp else F64.neg amp

/-- A bit as a stored word: 0 or 1. -/
def bitWord (b : Bool) : Word := if b then 1 else 0

/-- The fallback written back when `NBITS = 0` (R140). -/
def commitFallback (s : State) : State :=
  if s.par.nbits.toNat = 0 then
    let s1 := fill .bits (fun b => bitWord (fallbackBit b)) 4 s
    { s1 with par := { s1.par with nbits := 4 } }
  else s

/-- The registers a successful generate writes (R138). -/
def Grid.derived (g : Grid) : Derived :=
  { n := BitVec.ofNat 64 g.n, spb := BitVec.ofNat 64 g.spb, ndec := BitVec.ofNat 64 g.ndec, fsEff := g.fs,
    durEff := g.dur, ampEff := g.amp, psig := F64.zero, sigma := F64.zero }

/-- `COMMIT_GRID` (R143). -/
def commitGrid (g : Grid) (clamped : Bool) (sch : Scheme) (s : State) : State :=
  let ν := nanEpoch s
  let s1 := commitFallback s
  let s2 := fill .t (g.instant ν) g.n s1
  let s3 := fill .rx (fun i => entry s2 .mod i) g.n s2
  let s4 := fill .mark (g.marker ν) (g.nb + 1) s3
  nextNans { s4 with der := g.derived, status := s4.status.afterGenerate sch clamped }

/-- `N`, `SPB` and `NDEC` as the last generate left them (R145). -/
def sampleCount (s : State) : Nat := s.der.n.toNat
def samplesPerBit (s : State) : Nat := s.der.spb.toNat
def decisionCount (s : State) : Nat := s.der.ndec.toNat

/-- The phase angle `(TWO_PI * f) * t` (R12). -/
def angle (ν : Nat) (f t : F64) : F64 := F64.mul ν (F64.mul ν twoPi f) t

/-- `RECON` (R144): the decision of the sample's interval, the last one's for trailing samples. -/
def reconstruct (s : State) : State :=
  fill .recon
    (fun i =>
      if entry s .dec (min (i / samplesPerBit s) (decisionCount s - 1)) = 1 then F64.one else F64.negOne)
    (sampleCount s) s

end Sys2Proof.Machine
end

