-- ==== Sys2Proof/Machine/Demodulate.lean ====
section
/-! DEFINITION. `DEMOD_BPSK` (44_bpsk_demod.md) and `DEMOD_FSK` (45_fsk_demod.md). -/

namespace Sys2Proof.Machine

/-- Mixing with the regenerated carrier and its quadrature (R221, R227). -/
def mixDown (fc : F64) (s : State) : State :=
  let ν := nanEpoch s
  let s1 := fill .mixed (fun i => F64.mul ν (entry s .rx i) (cos (angle ν fc (entry s .t i)))) (sampleCount s) s
  fill .q (fun i => F64.mul ν (entry s .rx i) (sin (angle ν fc (entry s .t i)))) (sampleCount s) s1

/-- The first sample of the averaging window of sample `i`: `max(0, i - SPB + 1)` (R222). -/
def windowStart (s : State) (i : Nat) : Nat := i + 1 - samplesPerBit s

/-- The causal moving average of `MIXED` at sample `i`, its window summed directly (R222). -/
def movingAverage (s : State) (i : Nat) : F64 :=
  let ν := nanEpoch s
  let lo := windowStart s i
  F64.div ν (F64.sum ν (fun j => entry s .mixed (lo + j)) (i - lo + 1)) (F64.ofNat (i - lo + 1))

/-- The decision statistic of interval `b` (R223, R224). -/
def statistic (s : State) (b : Nat) : F64 :=
  let ν := nanEpoch s
  let first := b * samplesPerBit s
  match s.ctrl.policy with
  | .atEnd => entry s .filt (first + samplesPerBit s - 1)
  | .midpoint => entry s .filt (first + samplesPerBit s / 2)
  | .intervalAverage =>
    F64.div ν (F64.sum ν (fun j => entry s .filt (first + j)) (samplesPerBit s)) (F64.ofNat (samplesPerBit s))

/-- `STATUS` and the command's end after a demodulation (R44, R220, R250). -/
def finishDemod (sch : Scheme) (clamped : Bool) (s : State) : State :=
  nextNans { s with status := s.status.afterDemod sch clamped }

/-- The body of `DEMOD_BPSK` (R220). -/
def demodBpskBody (s : State) : State :=
  if !s.status.genValid then cmdError .noData s
  else
    let fc := sanFreq s.par.fc
    let s1 := mixDown fc.1 s
    let s2 := fill .filt (movingAverage s1) (sampleCount s1) s1
    let s3 := fill .dec (fun b => bitWord (F64.gt (statistic s2 b) F64.zero)) (decisionCount s2) s2
    finishDemod .bpsk fc.2 (reconstruct s3)

/-- The correlation of `RX` with a cosine at `f` over interval `b`, in global time (R251, R252). -/
def correlation (s : State) (f : F64) (b : Nat) : F64 :=
  let ν := nanEpoch s
  F64.sum ν
    (fun j =>
      F64.mul ν (entry s .rx (b * samplesPerBit s + j)) (cos (angle ν f (entry s .t (b * samplesPerBit s + j)))))
    (samplesPerBit s)

/-- The body of `DEMOD_FSK` (R250). -/
def demodFskBody (s : State) : State :=
  if !s.status.genValid then cmdError .noData s
  else
    let f0 := sanFreq s.par.f0
    let f1 := sanFreq s.par.f1
    let s1 := fill .e0 (correlation s f0.1) (decisionCount s) s
    let s2 := fill .e1 (correlation s f1.1) (decisionCount s) s1
    let s3 := fill .dec (fun b => bitWord (F64.gt (entry s2 .e1 b) (entry s2 .e0 b))) (decisionCount s) s2
    finishDemod .fsk (f0.2 || f1.2) (reconstruct s3)

/-- `DEMOD_BPSK`: R220. -/
def execDemodBpsk (s : State) : Host.Outcome State Fault Refusal := .next (issue .demodBpsk demodBpskBody s)

/-- `DEMOD_FSK`: R250. -/
def execDemodFsk (s : State) : Host.Outcome State Fault Refusal := .next (issue .demodFsk demodFskBody s)

end Sys2Proof.Machine
end

