-- ==== Sys2Proof/Machine/Generate.lean ====
section
/-! DEFINITION. `GEN_BPSK` (41_bpsk_mod.md) and `GEN_FSK` (42_fsk_mod.md). -/

namespace Sys2Proof.Machine

/-- The waveform loop of R160. -/
def bpskWaveform (g : Grid) (fc : F64) (s : State) : State :=
  let ν := nanEpoch s
  let s1 := fill .bb (fun i => nrz g.amp (sourceBit s (g.owner i))) g.n s
  let s2 := fill .car (fun i => cos (angle ν fc (g.instant ν i))) g.n s1
  fill .mod (fun i => F64.mul ν (entry s2 .bb i) (entry s2 .car i)) g.n s2

/-- The body of `GEN_BPSK` (R160). -/
def genBpskBody (s : State) : State :=
  match grid s with
  | none => cmdError .size s
  | some g =>
    let fc := sanFreq s.par.fc
    commitGrid g (g.clamped || fc.2) .bpsk (bpskWaveform g fc.1 s)

/-- `full`: the samples that lie in some bit window (R180). -/
def Grid.full (g : Grid) : Nat := min g.n (g.nb * g.spb)

/-- The sample from which sample `i` is computed: itself, or the last computed one for trailing samples (R184). -/
def Grid.source (g : Grid) (i : Nat) : Nat := if i < g.full then i else g.full - 1

/-- The FSK carrier at a sample of a bit window: local time, reset at each bit (R181, R182). -/
def fskCarrier (s : State) (g : Grid) (f0 f1 : F64) (i : Nat) : F64 :=
  let ν := nanEpoch s
  let b := i / g.spb
  cos (angle ν (if sourceBit s b then f1 else f0) (F64.div ν (F64.ofNat (i - b * g.spb)) g.fs))

/-- The waveform loops of R180. -/
def fskWaveform (g : Grid) (f0 f1 : F64) (s : State) : State :=
  let ν := nanEpoch s
  let s1 := fill .car (fun i => fskCarrier s g f0 f1 (g.source i)) g.n s
  let s2 := fill .mod (fun i => F64.mul ν g.amp (entry s1 .car i)) g.n s1
  fill .bb (fun i => nrz g.amp (sourceBit s (g.source i / g.spb))) g.n s2

/-- The body of `GEN_FSK` (R180). -/
def genFskBody (s : State) : State :=
  match grid s with
  | none => cmdError .size s
  | some g =>
    let f0 := sanFreq s.par.f0
    let f1 := sanFreq s.par.f1
    commitGrid g (g.clamped || f0.2 || f1.2) .fsk (fskWaveform g f0.1 f1.1 s)

/-- `GEN_BPSK`: R160. -/
def execGenBpsk (s : State) : Host.Outcome State Fault Refusal := .next (issue .genBpsk genBpskBody s)

/-- `GEN_FSK`: R180. -/
def execGenFsk (s : State) : Host.Outcome State Fault Refusal := .next (issue .genFsk genFskBody s)

end Sys2Proof.Machine
end

