-- ==== Sys2Proof/Machine/Noise.lean ====
section
/-! DEFINITION. `ADD_NOISE` (43_noise.md). -/

namespace Sys2Proof.Machine

/-- 2^53 as a binary64. -/
def twoTo53 : F64 := 0x4340000000000000

/-- The Gaussian transform of R206 on one pair of draws. -/
def gaussian (ν : Nat) (k1 k2 : BitVec 53) : F64 :=
  let u1 := F64.div ν (F64.add ν (F64.ofNat k1.toNat) F64.one) twoTo53
  let u2 := F64.div ν (F64.ofNat k2.toNat) twoTo53
  F64.mul ν (F64.sqrt ν (F64.mul ν 0xC000000000000000 (ln u1))) (cos (F64.mul ν twoPi u2))

/-- The mean power of `MOD` over the whole grid (R202). -/
def signalPower (s : State) : F64 :=
  let ν := nanEpoch s
  F64.div ν (F64.sum ν (fun i => F64.mul ν (entry s .mod i) (entry s .mod i)) (sampleCount s))
    (F64.ofNat (sampleCount s))

/-- The noise standard deviation (R202); the divisor 10.0 is 0x4024000000000000. -/
def noiseSigma (s : State) : F64 :=
  let ν := nanEpoch s
  F64.sqrt ν (F64.div ν (signalPower s) (pow10 (F64.div ν s.par.snrDb 0x4024000000000000)))

/-- The noisy sample `i` at a given deviation, with the draws `k1(i)`, `k2(i)` in the order of R205 (R206). -/
def noisySample (s : State) (sigma : F64) (i : Nat) : F64 :=
  let ν := nanEpoch s
  F64.add ν (entry s .mod i)
    (F64.mul ν sigma
      (gaussian ν (Config.entropy (s.fresh.draws + 2 * i)) (Config.entropy (s.fresh.draws + 2 * i + 1))))

/-- `SNR_DB` not finite: `RX` is a copy of `MOD` and nothing is drawn (R201). -/
def copyWithoutNoise (s : State) : State :=
  let s1 := fill .rx (fun i => entry s .mod i) (sampleCount s) s
  nextNans
    { s1 with der := { s1.der with psig := F64.zero, sigma := F64.zero }, status := s1.status.afterNoise false }

/-- `SNR_DB` finite: noise on every sample, `2*N` draws (R200, R204, R205). -/
def addGaussianNoise (s : State) : State :=
  let sigma := noiseSigma s
  let s1 := fill .rx (noisySample s sigma) (sampleCount s) s
  nextNans
    { s1 with
      der := { s1.der with psig := signalPower s, sigma := sigma }
      status := s1.status.afterNoise true
      fresh := { s1.fresh with draws := s.fresh.draws + 2 * sampleCount s } }

/-- The body of `ADD_NOISE` (R200). -/
def addNoiseBody (s : State) : State :=
  if !s.status.genValid then cmdError .noData s
  else if F64.finite s.par.snrDb then addGaussianNoise s else copyWithoutNoise s

/-- `ADD_NOISE`: R200. -/
def execAddNoise (s : State) : Host.Outcome State Fault Refusal := .next (issue .addNoise addNoiseBody s)

end Sys2Proof.Machine
end

