-- ==== Sys2Proof/Machine/Control.lean ====
section
/-! DEFINITION. `NOP`, `RUN` and `SOFT_RESET`, and the abort of a running command (46_control.md, 70_reset_and_hazards.md
R341). -/

namespace Sys2Proof.Machine

/-- The body of `NOP`: nothing (R271). -/
def nopBody (s : State) : State := s

/-- The body of `RUN`: generate, noise, demodulate; an `ERR_SIZE` of the first stops it (R272). -/
def runBody (s : State) : State :=
  match grid s with
  | none => cmdError .size s
  | some _ =>
    match s.ctrl.scheme with
    | .bpsk => demodBpskBody (addNoiseBody (genBpskBody s))
    | .fsk => demodFskBody (addNoiseBody (genFskBody s))

/-- What the sequencer computes for each command it runs. `SOFT_RESET` never runs there: it takes effect within its own
write (R352). -/
def commandBody : Instr → State → State
  | .nop => nopBody
  | .genBpsk => genBpskBody
  | .genFsk => genFskBody
  | .addNoise => addNoiseBody
  | .demodBpsk => demodBpskBody
  | .demodFsk => demodFskBody
  | .run => runBody
  | .softReset => nopBody

/-- The completion step of a running command (R352). -/
def complete (m : Instr) (s : State) : State := endCommand (commandBody m s)

/-- What a generate writes: which buffers, and how many entries of each (R160, R167). -/
def generateWrites (s : State) : List (Buf × Nat) :=
  match grid s with
  | none => []
  | some g => [(.t, g.n), (.bb, g.n), (.car, g.n), (.mod, g.n), (.rx, g.n), (.mark, g.nb + 1)]

/-- What a demodulation writes on a grid of `n` samples and `ndec` intervals (R232, R259). -/
def demodWrites (sch : Scheme) (n ndec : Nat) : List (Buf × Nat) :=
  match sch with
  | .bpsk => [(.mixed, n), (.q, n), (.filt, n), (.dec, ndec), (.recon, n)]
  | .fsk => [(.e0, ndec), (.e1, ndec), (.dec, ndec), (.recon, n)]

/-- The buffer entries a command writes, `BITS` apart: a command that fails writes none (R302). -/
def bufferWrites (m : Instr) (s : State) : List (Buf × Nat) :=
  match m with
  | .nop => []
  | .genBpsk => generateWrites s
  | .genFsk => generateWrites s
  | .addNoise => if s.status.genValid then [(.rx, sampleCount s)] else []
  | .demodBpsk => if s.status.genValid then demodWrites .bpsk (sampleCount s) (decisionCount s) else []
  | .demodFsk => if s.status.genValid then demodWrites .fsk (sampleCount s) (decisionCount s) else []
  | .run =>
    match grid s with
    | none => []
    | some g => generateWrites s ++ demodWrites s.ctrl.scheme g.n g.ndec
  | .softReset => []

/-- Whether a command writes the fallback bits: a generate that succeeds with `NBITS = 0` (R140). -/
def writesFallback (m : Instr) (s : State) : Bool :=
  match m with
  | .genBpsk | .genFsk | .run => s.par.nbits.toNat == 0 && (grid s).isSome
  | .nop | .addNoise | .demodBpsk | .demodFsk | .softReset => false

/-- The `BITS` entries a command writes (R140). -/
def fallbackWrites (m : Instr) (s : State) : List (Buf × Nat) := if writesFallback m s then [(.bits, 4)] else []

/-- Unspecified values in every entry of a list of buffers (R341, log entry 12). -/
def scramble (s : State) : List (Buf × Nat) → State
  | [] => s
  | (b, n) :: rest => fill b (fun i => Config.abortWord s.fresh.aborts (entryAddr b i)) n (scramble s rest)

/-- The fallback bits an aborted command may have committed (R276). -/
def maybeFallback (m : Instr) (s : State) : State :=
  if writesFallback m s && Config.abortCommitsFallback s.fresh.aborts then
    fill .bits (fun b => bitWord (fallbackBit b)) 4 s
  else s

/-- Abort of a running command: what it would have written is unspecified, the rest as it was; the draws it can have made
are consumed (R341, R276). -/
def abort (s : State) : State :=
  match s.phase with
  | .idle => s
  | .busy m =>
    let s1 := scramble (maybeFallback m s) (bufferWrites m s)
    { s1 with
      phase := .idle
      fresh := { s1.fresh with draws := (commandBody m s).fresh.draws, aborts := s1.fresh.aborts + 1 } }

/-- `SOFT_RESET` (R275): it takes effect within its own write, in any phase. -/
def softReset (s : State) : State := resetRegisters (abort s)

/-- `NOP`: R271. -/
def execNop (s : State) : Host.Outcome State Fault Refusal := .next (issue .nop nopBody s)

/-- `RUN`: R272. -/
def execRun (s : State) : Host.Outcome State Fault Refusal := .next (issue .run runBody s)

/-- `SOFT_RESET`: R275. -/
def execSoftReset (s : State) : Host.Outcome State Fault Refusal := .next (softReset s)

end Sys2Proof.Machine
end

