-- ==== Sys2Proof/Machine/Bus.lean ====
section
/-! DEFINITION. The host bus: reads, writes, the `CMD` register, in-flight state, bus errors, and the reset input
(10_state.md R35, 20_memory.md, 46_control.md R270 and R277, 60_exceptions.md, 70_reset_and_hazards.md). -/

namespace Sys2Proof.Machine

/-! Reads. -/

/-- The registers, `STATUS` apart, that a running command writes: those of its *Operands written* line (R351, log entry
11). -/
def regInFlight (m : Instr) (s : State) (r : Reg) : Bool :=
  match m with
  | .nop | .softReset | .demodBpsk | .demodFsk => false
  | .addNoise => r == .psig || r == .sigma
  | .genBpsk | .genFsk | .run =>
    match r with
    | .n | .spb | .ndec | .fsEff | .durEff | .ampEff | .psig | .sigma => true
    | .nbits => s.par.nbits.toNat == 0
    | .id | .ctrl | .cmd | .status | .amp | .fs | .duration | .bitrate | .fc | .f0 | .f1 | .snrDb => false

/-- `STATUS.ERR` (R40) where a command that needs a grid fails for want of one: it writes the code (R145, R302, R352). -/
def errWithoutGrid (s : State) : Word := if s.status.genValid then 0x0000 else 0xFF00

/-- The `STATUS` bits a running command writes, `BUSY` excepted (R351). A noise or demodulate command writes `ERR` when it has
no grid (R302, R352). A generate's line names `STATUS` whole while R40 lists the fields it writes; the model's reading
(DEDUCED, log entry 11): those fields and `ERR` are in flight, and `DEMOD_SCHEME` (bit 5) and the reserved bits, which no rule
has a generate write, are not. -/
def statusInFlight (m : Instr) (s : State) : Word :=
  match m with
  | .nop => 0x0000
  | .genBpsk => 0xFF5E
  | .genFsk => 0xFF5E
  | .addNoise => 0x0018 ||| errWithoutGrid s
  | .demodBpsk => 0x0070 ||| errWithoutGrid s
  | .demodFsk => 0x0070 ||| errWithoutGrid s
  | .run => 0xFF7E
  | .softReset => 0x0000

/-- Whether a running generate writes a buffer entry (R160): whole buffers, since its line gives no range, and the
fallback bits when `NBITS = 0`. -/
def generateInFlight (s : State) (b : Buf) (i : Nat) : Bool :=
  match b with
  | .t | .bb | .car | .mod | .rx | .mark => true
  | .bits => s.par.nbits.toNat == 0 && decide (i < 4)
  | .mixed | .filt | .q | .recon | .dec | .e0 | .e1 => false

/-- Whether a running demodulation on `n` samples and `ndec` intervals writes a buffer entry (R220, R250). -/
def demodInFlight (sch : Scheme) (n ndec : Nat) (b : Buf) (i : Nat) : Bool :=
  (demodWrites sch n ndec).any fun w => w.1 == b && decide (i < w.2)

/-- The entries that the demodulation phase of `RUN` writes: those of the grid that its generate makes, none if there is
no such grid (R232, R259, R272). -/
def runDemodInFlight (s : State) (b : Buf) (i : Nat) : Bool :=
  match grid s with
  | none => false
  | some g => demodInFlight s.ctrl.scheme g.n g.ndec b i

/-- The buffer entries a running command writes (R351). -/
def entryInFlight (m : Instr) (s : State) (b : Buf) (i : Nat) : Bool :=
  match m with
  | .nop | .softReset => false
  | .genBpsk | .genFsk => generateInFlight s b i
  | .addNoise => b == .rx && decide (i < sampleCount s)
  | .demodBpsk => demodInFlight .bpsk (sampleCount s) (decisionCount s) b i
  | .demodFsk => demodInFlight .fsk (sampleCount s) (decisionCount s) b i
  | .run => generateInFlight s b i || runDemodInFlight s b i

/-- All 64 bits, or none. -/
def allBits (b : Bool) : Word := if b then 0xFFFFFFFFFFFFFFFF else 0

/-- The bits of a target that are in flight: a read returns any value there (R351). -/
def inFlightMask (s : State) (tgt : Target) : Word :=
  match s.phase with
  | .idle => 0
  | .busy m =>
    match tgt with
    | .reg .status => statusInFlight m s
    | .reg r => allBits (regInFlight m s r)
    | .entry b i => allBits (entryInFlight m s b i)
    | .unmapped => 0

/-- What a host read returns: the target's value, with free bits where it is in flight (R277, R351). -/
def readData (s : State) (tgt : Target) : Word :=
  let mask := inFlightMask s tgt
  if mask = 0 then targetValue s tgt
  else (targetValue s tgt &&& ~~~mask) ||| (Config.inFlightWord s.fresh.reads &&& mask)

/-- A read has no side effect (R89); the model counts in-flight reads so that each has a value of its own. -/
def countRead (s : State) (tgt : Target) : State :=
  if inFlightMask s tgt = 0 then s else { s with fresh := { s.fresh with reads := s.fresh.reads + 1 } }

/-! Writes. -/

/-- A word that is not accepted: `ERR_BUSY` first, then `ERR_ILLEGAL_CMD` (R270, R305). -/
def rejectWord (s : State) : State := if s.phase.isBusy then cmdError .busy s else cmdError .illegalCmd s

/-- A write to `CMD` that only begins a command (R270). -/
def writeCmd (w : Word) (s : State) : State :=
  match decodeWord w with
  | .error _ => rejectWord s
  | .ok .softReset => softReset s
  | .ok m => if s.phase.isBusy then cmdError .busy s else accept m s

/-- A write to `NBITS` (R48). -/
def writeNbits (v : Word) (s : State) : State :=
  if v.toNat ≤ s.conf.maxBits then { s with par := { s.par with nbits := v } } else cmdError .range s

/-- A write that is rejected while a command runs (R350). -/
def unlessBusy (s t : State) : State := if s.phase.isBusy then cmdError .busy s else t

/-- A write to a register: RW registers store, RO registers ignore (R35, R36, R277). -/
def writeReg (r : Reg) (v : Word) (s : State) : State :=
  match r with
  | .id => s
  | .ctrl => unlessBusy s { s with ctrl := ctrlOfWord v }
  | .cmd => writeCmd v s
  | .status => clearStatus s
  | .amp => unlessBusy s { s with par := { s.par with amp := v } }
  | .fs => unlessBusy s { s with par := { s.par with fs := v } }
  | .duration => unlessBusy s { s with par := { s.par with duration := v } }
  | .bitrate => unlessBusy s { s with par := { s.par with bitrate := v } }
  | .fc => unlessBusy s { s with par := { s.par with fc := v } }
  | .f0 => unlessBusy s { s with par := { s.par with f0 := v } }
  | .f1 => unlessBusy s { s with par := { s.par with f1 := v } }
  | .snrDb => unlessBusy s { s with par := { s.par with snrDb := v } }
  | .nbits => unlessBusy s (writeNbits v s)
  | .n => s
  | .spb => s
  | .ndec => s
  | .fsEff => s
  | .durEff => s
  | .ampEff => s
  | .psig => s
  | .sigma => s

/-- A write to a buffer entry: `BITS` keeps bit 0 (R51), `RX` the word (R57), every other buffer is RO (R52, R53). -/
def writeEntry (b : Buf) (i : Nat) (v : Word) (s : State) : State :=
  match b with
  | .bits => unlessBusy s (putEntry .bits i (BitVec.ofNat 64 (v.toNat % 2)) s)
  | .rx => unlessBusy s (putEntry .rx i v s)
  | .t | .bb | .car | .mod | .mixed | .filt | .q | .recon | .dec | .e0 | .e1 | .mark => s

/-- A write to a target; an unmapped one ignores it (R84). -/
def writeTarget (tgt : Target) (v : Word) (s : State) : State :=
  match tgt with
  | .reg r => writeReg r v s
  | .entry b i => writeEntry b i v s
  | .unmapped => s

/-- One host bus transaction (R85, R86, R277, R300): a malformed one is answered with a bus error and changes nothing
else. -/
def busAccess (a : Access) (s : State) : State :=
  if !a.wellFormed then { s with response := .busError a.offset }
  else
    let tgt := targetOf s.conf a.offset.toNat
    match a.dir with
    | .read => { countRead s tgt with response := .data (readData s tgt) }
    | .write v => { writeTarget tgt v s with response := .done }

/-- The offset within the block that a physical address stands for, if it falls in the 16 MiB window at `BASE` (R80). -/
def offsetOf (c : Conf) (addr : Nat) : Option Offset :=
  if c.base ≤ addr ∧ addr < c.base + 2 ^ 24 then some (BitVec.ofNat 24 (addr - c.base)) else none

/-- The transaction that a physical access is for this block, if it is one (R80, log entry 19). -/
def PhysAccess.onBlock (c : Conf) (p : PhysAccess) : Option Access :=
  (offsetOf c p.addr).map fun o => { offset := o, width := p.width, dir := p.dir }

/-- The host's turn: a transaction with the block, refused while the reset input is asserted (R340, log entry 13). -/
def hostTurn (a : Access) (s : State) : Host.Outcome State Fault Refusal :=
  if s.inReset then .refused .accessInReset else .next (busAccess a s)

/-- An access at a physical address. One outside the window is not the block's: it does nothing to it and gets no answer
from it (R80, log entry 19). -/
def busTurn (p : PhysAccess) (s : State) : Host.Outcome State Fault Refusal :=
  match PhysAccess.onBlock s.conf p with
  | some a => hostTurn a s
  | none => .next { s with response := .noAccess }

/-! The sequencer and the reset input. -/

/-- The sequencer's move: the completion step of the running command, if there is one (R352). -/
def sequencerMove (s : State) : State :=
  match s.phase with
  | .idle => s
  | .busy m => complete m s

/-- The reset input is asserted: a running command is abandoned (R340, R341). -/
def assertReset (s : State) : State := { abort s with inReset := true }

/-- The reset input is released (R340); it must have been asserted. -/
def releaseReset (s : State) : State := if s.inReset then hardReset s else s

end Sys2Proof.Machine
end

