-- ==== Sys2Proof/Machine/Dispatch.lean ====
section
/-! DEFINITION. One arm per command: the meaning of its word written to `CMD`, from the write to the completion step
(R270, R352). -/

namespace Sys2Proof.Machine

def exec (i : Instr) (s : State) : Host.Outcome State Fault Refusal :=
  match i with
  | .nop => Sys2Proof.Machine.execNop s
  | .genBpsk => Sys2Proof.Machine.execGenBpsk s
  | .genFsk => Sys2Proof.Machine.execGenFsk s
  | .addNoise => Sys2Proof.Machine.execAddNoise s
  | .demodBpsk => Sys2Proof.Machine.execDemodBpsk s
  | .demodFsk => Sys2Proof.Machine.execDemodFsk s
  | .run => Sys2Proof.Machine.execRun s
  | .softReset => Sys2Proof.Machine.execSoftReset s

end Sys2Proof.Machine
end

