-- ==== Sys2Proof/Machine/Step.lean ====
section
/-! DEFINITION. One step: the agent whose turn it is moves (R16, R92; log entry 1). -/

namespace Sys2Proof.Machine

/-- One turn, the agenda already advanced. Commands, like other accesses, are refused while the reset input is asserted
(R340). -/
def turn (t : Turn) (s : State) : Host.Outcome State Fault Refusal :=
  match t with
  | .host a => hostTurn a s
  | .bus p => busTurn p s
  | .command w =>
    if s.inReset then .refused .accessInReset
    else
      match decodeWord w with
      | .ok i => exec i { s with response := .done }
      | .error _ => .next (rejectWord { s with response := .done })
  | .sequencer => .next (sequencerMove s)
  | .assertReset => .next (assertReset s)
  | .releaseReset => .next (releaseReset s)

/-- One step. With nothing left on the agenda the sequencer finishes what is running, so that every accepted command
completes (R353); then nothing moves. -/
def step (s : State) : Host.Outcome State Fault Refusal :=
  match s.agenda with
  | [] => .next (sequencerMove s)
  | t :: rest => turn t { s with agenda := rest }

/-- The state in which the very next step is the write of the word `w` (its low `nbits` bits) to `CMD`, run to its
completion; the reset input is not asserted (log entry 2). -/
def State.withFetchWord (s : State) (nbits w : Nat) : State :=
  { s with agenda := .command (BitVec.ofNat 64 (w % 2 ^ nbits)) :: s.agenda, inReset := false }

end Sys2Proof.Machine
end

