-- ==== Sys2Proof/Machine/HostProgram.lean ====
section
/-! DEFINITION. Host programs: what each line of the notation of R118 expands to on the bus. -/

namespace Sys2Proof.Machine

/-- The offset a place stands for (R118). -/
def placeOffset : Place → Offset
  | .reg r => BitVec.ofNat 24 (regOffset r)
  | .entry b i => BitVec.ofNat 24 (entryAddr b i)
  | .off o => o

/-- The word a literal stands for: an `f:` literal is the nearest binary64, ties to even (R118). -/
def literalWord : Literal → Word
  | .int v => v
  | .f64 negative num den => F64.ofDecimal negative num den

/-- `MemWrite(offset, 8, v)` (R10). -/
def memWrite (o : Offset) (v : Word) : Access := { offset := o, width := 8, dir := .write v }

/-- `MemRead(offset, 8)` (R10). -/
def memRead (o : Offset) : Access := { offset := o, width := 8, dir := .read }

/-- One poll of `STATUS` (R93). -/
def pollStatus : Turn := .host (memRead (placeOffset (.reg .status)))

/-- The writes `W BITS[j], bj` from entry `j` on (R118). -/
def bitWrites (j : Nat) : List Bool → List Turn
  | [] => []
  | b :: rest => .host (memWrite (placeOffset (.entry .bits j)) (bitWord b)) :: bitWrites (j + 1) rest

/-- A line's bus transactions, and for `WAIT` the completion that ends its loop after `k` polls that read `BUSY = 1`
(R118, log entry 16). -/
def expandLine : HostLine → List Turn
  | .w dst v => [.host (memWrite (placeOffset dst) (literalWord v))]
  | .r dst => [.host (memRead (placeOffset dst))]
  | .cmd i => [.host (memWrite (placeOffset (.reg .cmd)) (encode i))]
  | .wait k => List.replicate k pollStatus ++ [.sequencer, pollStatus]
  | .clr => [.host (memWrite (placeOffset (.reg .status)) 0)]
  | .loadBits bits =>
    .host (memWrite (placeOffset (.reg .nbits)) (BitVec.ofNat 64 bits.length)) :: bitWrites 0 bits

/-- A host program as an agenda. -/
def expand (p : List HostLine) : List Turn := p.flatMap expandLine

end Sys2Proof.Machine
end

