-- ==== Sys2Proof/Safety.lean ====
section
/-! DEFINITION. What claims call a legal state and a safe step. -/

namespace Sys2Proof.Machine

/-- The relations between the parts of the state that every step keeps: capacities in the ranges of R8, the memory in its
canonical form, counts within capacity (R48, R136), `NDEC = N div SPB` (R49), a valid grid has at least one sample and
one sample per bit (R139), later stages are valid only on a valid grid (R42 to R44), `SOFT_RESET` never runs in the
sequencer (R352), and nothing runs while the reset input is asserted (R340). -/
structure State.Inv (s : State) : Prop where
  conf_legal : s.conf.legal = true
  mem_wf : Memory.wf s.mem = true
  nbits_le : s.par.nbits.toNat ≤ s.conf.maxBits
  samples_le : sampleCount s ≤ s.conf.maxSamples
  spb_le : samplesPerBit s ≤ sampleCount s
  ndec_eq : decisionCount s = sampleCount s / samplesPerBit s
  grid_pos : s.status.genValid = true → 1 ≤ samplesPerBit s
  noisy_valid : s.status.noisy = true → s.status.genValid = true
  demod_valid : s.status.demodValid = true → s.status.genValid = true
  phase_legal : s.phase ≠ .busy .softReset
  reset_idle : s.inReset = true → s.phase = .idle

/-- Every byte the memory lists belongs to an entry that exists (R55, R82, R84). -/
def State.MemoryMapped (s : State) : Prop :=
  ∀ c ∈ s.mem, ∃ b i, i < capacity s.conf b ∧ entryAddr b i ≤ c.1 ∧ c.1 < entryAddr b i + 8

/-- A step that neither faults nor refuses. -/
def Safe (s : State) : Prop := ∃ t, step s = .next t

end Sys2Proof.Machine
end

