-- ==== Sys2Proof/Certificates/Slice0/Obligations.lean ====
section
/-! DEFINITION. Statements for the provers, from the spec's numbered rules. The first part names what they speak of. -/

namespace Sys2Proof.Machine

/-! What the statements speak of. -/

/-- The host may use the block and no command runs. -/
def Ready (s : State) : Prop := s.phase = .idle ∧ s.inReset = false

/-- A command of R111 other than `SOFT_RESET`: one the sequencer runs. -/
def Runs (i : Instr) : Prop := i ≠ .softReset

/-- The register table of R60. -/
def resetTable : Reg → Word
  | .id => 0x314B53464B535042
  | .snrDb => 0x7FF8000000000000
  | .ctrl | .cmd | .status | .amp | .fs | .duration | .bitrate | .fc | .f0 | .f1 | .nbits | .n | .spb | .ndec
  | .fsEff | .durEff | .ampEff | .psig | .sigma => 0

/-- The register file of R36. -/
def registerTable : List (Nat × Reg) :=
  [(0x000, .id), (0x008, .ctrl), (0x010, .cmd), (0x018, .status), (0x020, .amp), (0x028, .fs), (0x030, .duration),
   (0x038, .bitrate), (0x040, .fc), (0x048, .f0), (0x050, .f1), (0x058, .snrDb), (0x060, .nbits), (0x068, .n),
   (0x070, .spb), (0x078, .ndec), (0x080, .fsEff), (0x088, .durEff), (0x090, .ampEff), (0x098, .psig), (0x0A0, .sigma)]

/-- The buffer windows of R82. -/
def windowTable : List (Nat × Buf) :=
  [(0x100000, .bits), (0x180000, .t), (0x200000, .bb), (0x280000, .car), (0x300000, .mod), (0x380000, .rx),
   (0x400000, .mixed), (0x480000, .filt), (0x500000, .q), (0x580000, .recon), (0x600000, .dec), (0x680000, .e0),
   (0x700000, .e1), (0x780000, .mark)]

/-- The codes of R301. -/
def errorCode : ErrCode → Nat
  | .noError => 0x00
  | .illegalCmd => 0x01
  | .busy => 0x02
  | .noData => 0x03
  | .size => 0x04
  | .range => 0x05

/-- A word with the fields of `STATUS` at their bits (R40). -/
def StatusLaidOut (v : Word) (s : State) : Prop :=
  (v.getLsbD 0 = true ↔ s.phase ≠ .idle) ∧ v.getLsbD 1 = s.status.genValid ∧
    (v.getLsbD 2 = true ↔ s.status.genScheme = .fsk) ∧ v.getLsbD 3 = s.status.noisy ∧
    v.getLsbD 4 = s.status.demodValid ∧ (v.getLsbD 5 = true ↔ s.status.demodScheme = .fsk) ∧
    v.getLsbD 6 = s.status.clamp ∧ v.getLsbD 7 = false ∧ v.toNat / 256 = errorCode s.status.err

/-- A word with the fields of `CTRL` at their bits (R37 to R39). -/
def CtrlLaidOut (v : Word) (s : State) : Prop :=
  (v.getLsbD 0 = true ↔ s.ctrl.scheme = .fsk) ∧ (v.getLsbD 1 = true ↔ s.ctrl.timebase = .bitrate) ∧
    (v.toNat / 4 % 4 = 0 ↔ s.ctrl.policy = .atEnd) ∧ (v.toNat / 4 % 4 = 1 ↔ s.ctrl.policy = .midpoint) ∧
    (v.toNat / 4 % 4 = 2 ↔ s.ctrl.policy = .intervalAverage) ∧ v.toNat / 16 = 0

/-- The registers, `STATUS` apart, of a command's *Operands written* line (R160, R180, R200, R220, R250, R271, R272);
`NBITS` is written by the fallback only (R140), and `SOFT_RESET` never runs (R352). -/
def registersWritten (m : Instr) (s : State) : List Reg :=
  match m with
  | .nop | .demodBpsk | .demodFsk | .softReset => []
  | .addNoise => [.psig, .sigma]
  | .genBpsk | .genFsk | .run =>
    [.n, .spb, .ndec, .fsEff, .durEff, .ampEff, .psig, .sigma] ++ (if s.par.nbits = 0 then [.nbits] else [])

/-- The `STATUS` bits of that line, `BUSY` apart, and the bits of `ERR` where a command without a grid writes them (R145);
of a generate's `STATUS`, named whole, as log entry 11 says. -/
def statusBitsWritten (m : Instr) (s : State) : List Nat :=
  match m with
  | .nop | .softReset => []
  | .genBpsk | .genFsk => [1, 2, 3, 4, 6, 8, 9, 10, 11, 12, 13, 14, 15]
  | .addNoise => [3, 4] ++ (if s.status.genValid then [] else [8, 9, 10, 11, 12, 13, 14, 15])
  | .demodBpsk | .demodFsk => [4, 5, 6] ++ (if s.status.genValid then [] else [8, 9, 10, 11, 12, 13, 14, 15])
  | .run => [1, 2, 3, 4, 5, 6, 8, 9, 10, 11, 12, 13, 14, 15]

/-- The buffer entries of the lines of R160 and R180, which give no range (log entry 11), and the fallback bits (R140). -/
def GenerateLine (s : State) (b : Buf) (i : Nat) : Prop :=
  b = .t ∨ b = .bb ∨ b = .car ∨ b = .mod ∨ b = .rx ∨ b = .mark ∨ (b = .bits ∧ s.par.nbits = 0 ∧ i < 4)

/-- The buffer entries of the lines of R220 and R250, on a grid of `n` samples and `ndec` intervals. -/
def DemodulateLine (sch : Scheme) (n ndec : Nat) (b : Buf) (i : Nat) : Prop :=
  (b = .dec ∧ i < ndec) ∨ (b = .recon ∧ i < n) ∨
    (sch = .bpsk ∧ (b = .mixed ∨ b = .q ∨ b = .filt) ∧ i < n) ∨ (sch = .fsk ∧ (b = .e0 ∨ b = .e1) ∧ i < ndec)

/-- The buffer entries of a command's *Operands written* line. -/
def EntryWritten (m : Instr) (s : State) (b : Buf) (i : Nat) : Prop :=
  match m with
  | .nop | .softReset => False
  | .genBpsk | .genFsk => GenerateLine s b i
  | .addNoise => b = .rx ∧ i < s.der.n.toNat
  | .demodBpsk => DemodulateLine .bpsk s.der.n.toNat s.der.ndec.toNat b i
  | .demodFsk => DemodulateLine .fsk s.der.n.toNat s.der.ndec.toNat b i
  | .run => GenerateLine s b i ∨ ∃ g, grid s = some g ∧ DemodulateLine s.ctrl.scheme g.n g.ndec b i

/-- An 8-byte write and an 8-byte read at an offset. -/
def writeAt (o : Nat) (v : Word) : Access := { offset := BitVec.ofNat 24 o, width := 8, dir := .write v }
def readAt (o : Nat) : Access := { offset := BitVec.ofNat 24 o, width := 8, dir := .read }

/-- The binary64 parameter registers of R36, all RW. -/
def IsParameter (r : Reg) : Prop :=
  r = .amp ∨ r = .fs ∨ r = .duration ∨ r = .bitrate ∨ r = .fc ∨ r = .f0 ∨ r = .f1 ∨ r = .snrDb

/-- The RW registers R350 lists. -/
def IsRwRegister (r : Reg) : Prop := IsParameter r ∨ r = .ctrl ∨ r = .nbits

/-- The RO registers of R36, `STATUS` apart. -/
def IsRoRegister (r : Reg) : Prop :=
  r = .id ∨ r = .n ∨ r = .spb ∨ r = .ndec ∨ r = .fsEff ∨ r = .durEff ∨ r = .ampEff ∨ r = .psig ∨ r = .sigma

/-- The RW buffers of R82. -/
def IsRwBuffer (b : Buf) : Prop := b = .bits ∨ b = .rx

/-- The unmapped offsets of R84. -/
def UnmappedOffset (c : Conf) (o : Nat) : Prop :=
  (0x0A8 ≤ o ∧ o ≤ 0x0F8) ∨ (0x000100 ≤ o ∧ o ≤ 0x0FFFFF) ∨ (0x800000 ≤ o ∧ o ≤ 0xFFFFFF) ∨
    ∃ b i, capacity c b ≤ i ∧ i < 65536 ∧ o = entryAddr b i

/-- Every byte outside the first entries of the listed buffers reads as before. -/
def BytesKeptOutside (rs : List (Buf × Nat)) (s t : State) : Prop :=
  ∀ a, coveredBy rs a = false → readByte t a = readByte s a

/-- What no command but `SOFT_RESET` touches: the capacities, `CTRL`, the reset input, the agenda, the last response. -/
def SurroundingsKept (s t : State) : Prop :=
  t.conf = s.conf ∧ t.ctrl = s.ctrl ∧ t.inReset = s.inReset ∧ t.agenda = s.agenda ∧ t.response = s.response

/-- The grid registers of R49, which only a generate writes. -/
def GridRegistersKept (s t : State) : Prop :=
  t.der.n = s.der.n ∧ t.der.spb = s.der.spb ∧ t.der.ndec = s.der.ndec ∧ t.der.fsEff = s.der.fsEff ∧
    t.der.durEff = s.der.durEff ∧ t.der.ampEff = s.der.ampEff

/-- The number of bits of R140, the duration before clamping of R133 and the product `p` of R135, from the registers. -/
def bitsInUse (s : State) : Nat := if s.par.nbits.toNat = 0 then 4 else s.par.nbits.toNat
def durationAsked (s : State) : F64 :=
  if s.ctrl.timebase = .duration then s.par.duration
  else F64.div s.fresh.nans (F64.ofNat (bitsInUse s)) s.par.bitrate
def samplesAsked (s : State) : F64 :=
  F64.mul s.fresh.nans (sanMin s.par.fs fsMin).1 (sanMin (durationAsked s) durMin).1

/-- The commands that write the grid registers (R49, R60). -/
def WritesGrid (i : Instr) : Prop := i = .genBpsk ∨ i = .genFsk ∨ i = .run ∨ i = .softReset

/-- The next step is the end of a command of the kind `P`: one run in a single transition, or the completion step of the
one that is running. -/
def CommandEndsNext (P : Instr → Prop) (s : State) : Prop :=
  (∃ w i rest, s.agenda = .command w :: rest ∧ decodeWord w = .ok i ∧ P i) ∨
    ∃ m, s.phase = .busy m ∧ P m ∧ (s.agenda = [] ∨ ∃ rest, s.agenda = .sequencer :: rest)

/-- The next step is a host's write of the `SOFT_RESET` word to `CMD`, or the release of the reset input. -/
def ResetNext (s : State) : Prop :=
  (∃ rest, s.agenda = .host (writeAt 0x010 0x0000000000000007) :: rest) ∨
    (∃ p rest, s.agenda = .bus p :: rest ∧
      PhysAccess.onBlock s.conf p = some (writeAt 0x010 0x0000000000000007)) ∨
    ∃ rest, s.agenda = .releaseReset :: rest ∧ s.inReset = true

/-- The sanitised frequencies (R132). -/
def carrierFreq (s : State) : F64 := (sanFreq s.par.fc).1
def zeroFreq (s : State) : F64 := (sanFreq s.par.f0).1
def oneFreq (s : State) : F64 := (sanFreq s.par.f1).1

/-- What a generate writes (R160, R180), the fallback bits included (R140). -/
def generateFootprint (s : State) (g : Grid) : List (Buf × Nat) :=
  [(.t, g.n), (.bb, g.n), (.car, g.n), (.mod, g.n), (.rx, g.n), (.mark, g.nb + 1)] ++
    (if s.par.nbits = 0 then [(.bits, 4)] else [])

/-- A generate's parameter substitutions (R131): those of `GRID` and the frequencies of its scheme. -/
def generateSubstitutes (sch : Scheme) (s : State) : Bool :=
  (sanAmp s.par.amp).2 || (sanMin s.par.fs fsMin).2 || (sanMin (rawDuration s) durMin).2 ||
    (match sch with
      | .bpsk => (sanFreq s.par.fc).2
      | .fsk => (sanFreq s.par.f0).2 || (sanFreq s.par.f1).2)

/-- Whether a command that completes substitutes a clamped value; one that fails with `ERR_SIZE` or `ERR_NO_DATA` does not
count (R131). -/
def substitutes (i : Instr) (s : State) : Bool :=
  match i with
  | .nop | .addNoise | .softReset => false
  | .genBpsk => !gridTooLarge s && generateSubstitutes .bpsk s
  | .genFsk => !gridTooLarge s && generateSubstitutes .fsk s
  | .run => !gridTooLarge s && generateSubstitutes s.ctrl.scheme s
  | .demodBpsk => s.status.genValid && (sanFreq s.par.fc).2
  | .demodFsk => s.status.genValid && ((sanFreq s.par.f0).2 || (sanFreq s.par.f1).2)

/-- The number a finite binary64 stands for. -/
def F64value (x : F64) : ℚ := (F64.smag x : ℚ) / (F64.unit : ℚ)

/-- `r` is the IEEE 754 result for the exact number `q`, rounded to nearest with ties to even: no finite binary64 is
nearer, a tie goes to the pattern whose last bit is 0, and a number at or beyond the overflow threshold gives the infinity
of its sign (R11, R148). -/
def RoundsTo (q : ℚ) (r : F64) : Prop :=
  if |q| < 2 ^ 1024 - 2 ^ 970 then
    F64.finite r = true ∧
      ∀ z, F64.finite z = true →
        |F64value r - q| ≤ |F64value z - q| ∧
          (|F64value r - q| = |F64value z - q| → F64value z = F64value r ∨ r.toNat % 2 = 0)
  else F64.isInf r = true ∧ F64.sign r = decide (q < 0)

end Sys2Proof.Machine

open Sys2Proof Sys2Proof.Machine

/-! Encoding and decoding. -/

/-- R111: the eight command words; a word is legal only when `MBZ = 0`. -/
def Obligations.CommandWordsOfTheOpcodeMap : Prop :=
  decodeWord 0x0000000000000000 = .ok .nop ∧ decodeWord 0x0000000000000001 = .ok .genBpsk ∧
    decodeWord 0x0000000000000002 = .ok .genFsk ∧ decodeWord 0x0000000000000003 = .ok .addNoise ∧
    decodeWord 0x0000000000000004 = .ok .demodBpsk ∧ decodeWord 0x0000000000000005 = .ok .demodFsk ∧
    decodeWord 0x0000000000000006 = .ok .run ∧ decodeWord 0x0000000000000007 = .ok .softReset ∧
    ∀ (w : Word) (i : Instr), decodeWord w = .ok i → w.toNat / 256 = 0

/-- R110, R111, R112: a word decodes to a command exactly when it is that command's word, so no two words share a meaning
and no bit is dropped. -/
def Obligations.WordDecodesOnlyToItsCommand : Prop :=
  ∀ (w : Word) (i : Instr), decodeWord w = .ok i ↔ w = encode i

/-- R87, R110, R111: bytes decode to a command and a rest exactly when they are the command's eight bytes, least significant
first, followed by that rest. -/
def Obligations.BytesDecodeExactlyAsEncoded : Prop :=
  ∀ (bytes : List Byte) (i : Instr) (rest : List Byte),
    decodeBytes bytes = .ok (i, rest) ↔ bytes = encodeBytes i ++ rest

/-- R112: the decoder is total: a word with `MBZ` zero and a code up to 7 is the command of that code, and the words it
calls `ILLEGAL` are those with a nonzero `MBZ` or a code above 7; written to `CMD` while no command runs, such a word raises
`ERR_ILLEGAL_CMD` and has no other effect (only the bus answers). -/
def Obligations.IllegalWordsRaiseIllegalCmd : Prop :=
  ∀ w : Word,
    (w.toNat / 256 = 0 → w.toNat % 256 ≤ 7 →
        ∃ i, decodeWord w = .ok i ∧ (opcode i).toNat = w.toNat % 256) ∧
      ((∃ e, decodeWord w = .error e) ↔ (w.toNat / 256 ≠ 0 ∨ 7 < w.toNat % 256)) ∧
      ∀ s : State, Ready s → (w.toNat / 256 ≠ 0 ∨ 7 < w.toNat % 256) →
        busAccess (writeAt 0x010 w) s = { s with status := { s.status with err := .illegalCmd }, response := .done }

/-! Steps. -/

/-- R112, R270, R305, R352: when the next turn is a host's `CMD` write run to completion and the reset input is not asserted,
the step is `exec` of the command its word decodes to, with the agenda advanced and the bus answered; an illegal word raises
`ERR_ILLEGAL_CMD` while no command runs and `ERR_BUSY` while one does, and nothing else. The word placed by `withFetchWord` is
the next one the step runs (log entry 2). -/
def Obligations.StepRunsTheDecodedCommand : Prop :=
  (∀ (s : State) (w : Word) (rest : List Turn) (i : Instr),
    s.agenda = .command w :: rest → s.inReset = false → decodeWord w = .ok i →
      step s = exec i { s with agenda := rest, response := .done }) ∧
    (∀ (s : State) (nbits w : Nat) (i : Instr), decodeTableWord nbits w = some i →
      step (s.withFetchWord nbits w) = exec i { s with inReset := false, response := .done }) ∧
    ∀ (s : State) (w : Word) (rest : List Turn),
      s.agenda = .command w :: rest → s.inReset = false → (w.toNat / 256 ≠ 0 ∨ 7 < w.toNat % 256) →
        (s.phase = .idle →
          step s = .next { s with agenda := rest, status := { s.status with err := .illegalCmd }, response := .done }) ∧
          ∀ m, s.phase = .busy m →
            step s = .next { s with agenda := rest, status := { s.status with err := .busy }, response := .done }

/-- R306, R340: a step never faults; it refuses exactly a host access to the block made while the reset input is
asserted (the refusal is the model's choice, log entry 13); otherwise it answers a next state. -/
def Obligations.StepStopsOnlyForAccessInReset : Prop :=
  ∀ s : State,
    (step s = .refused .accessInReset ↔
        s.inReset = true ∧
          ∃ rest, (∃ a, s.agenda = .host a :: rest) ∨ (∃ w, s.agenda = .command w :: rest) ∨
            ∃ p, s.agenda = .bus p :: rest ∧ s.conf.base ≤ p.addr ∧ p.addr < s.conf.base + 2 ^ 24) ∧
      (step s = .refused .accessInReset ∨ ∃ t, step s = .next t)

/-- R352: running a command as one transition from acceptance to completion gives the state that its acceptance followed by
the sequencer's completion step gives. -/
def Obligations.OneTransitionEqualsAcceptThenComplete : Prop :=
  ∀ (s : State) (w : Word) (m : Instr) (rest : List Turn), Ready s → decodeWord w = .ok m → Runs m →
    ∃ u t, step { s with agenda := .host (writeAt 0x010 w) :: .sequencer :: rest } = .next u ∧ u.phase = .busy m ∧
      step u = .next t ∧ step { s with agenda := .command w :: rest } = .next t ∧ t.phase = .idle

/-- R92, R93, R118, R278: the host program `CMD i; WAIT`, however often its loop polls, ends with the registers, flags and
memory that the command alone gives, and its last poll reads the final `STATUS` with `BUSY` 0. How `WAIT` expands to turns is
the model's choice (log entry 16). -/
def Obligations.CommandThenWaitEqualsTheCommand : Prop :=
  ∀ (s : State) (i : Instr) (k : Nat), Ready s → Runs i →
    ∃ t u, exec i s = .next t ∧
      Sys2Proof.core.run (k + 3) { s with agenda := expand [.cmd i, .wait k] } = .next u ∧
      u.ctrl = t.ctrl ∧ u.status = t.status ∧ u.par = t.par ∧ u.der = t.der ∧ u.mem = t.mem ∧ u.phase = .idle ∧
      u.fresh.draws = t.fresh.draws ∧ u.agenda = [] ∧ u.response = .data (statusWord false t.status)

/-- R353: an accepted command is completed or ended within as many steps as the agenda has turns, and one more; that the
sequencer moves when no turn is left is the model's reading (log entry 18). -/
def Obligations.RunningCommandEnds : Prop :=
  ∀ (s : State) (m : Instr), s.phase = .busy m → s.inReset = false →
    ∃ k t, k ≤ s.agenda.length + 1 ∧ Sys2Proof.core.run k s = .next t ∧ t.phase = .idle

/-! Invariants. -/

/-- The reset state of every machine with legal parameters is legal (R7, R8, R60, R340); `State.reset` is that of the
parameters of log entry 5. -/
def Obligations.ResetStateIsLegal : Prop :=
  ∀ c : Conf, c.legal = true →
    (State.resetOf c).Inv ∧ (State.resetOf c).MemoryMapped ∧ (c.maxSamples = 65536 → c.maxBits = 4096 → c.base = 0 →
      State.resetOf c = State.reset)

/-- Every step keeps the invariant: legal capacities, canonical memory, counts within capacity, `NDEC = N div SPB`, validity
flags in order, no `SOFT_RESET` in the sequencer, nothing running in reset; and no step changes `BASE` or the capacities (R7). -/
def Obligations.StepKeepsTheInvariant : Prop :=
  ∀ s t : State, s.Inv → step s = .next t → t.Inv ∧ t.conf = s.conf

/-- R55, R84, R280: every step keeps the memory inside the entries that exist, whether a command or the host writes. -/
def Obligations.StepKeepsMemoryInsideBuffers : Prop :=
  ∀ s t : State, s.Inv → s.MemoryMapped → step s = .next t → t.MemoryMapped

/-! Reset. -/

/-- R60: the register table holds in the reset state, after a hardware reset and after `SOFT_RESET` from any state, and the
sequencer is idle. -/
def Obligations.RegistersAfterReset : Prop :=
  (∀ c r, regValue (State.resetOf c) r = resetTable r) ∧
    ∀ s : State,
      (∀ r, regValue (hardReset s) r = resetTable r) ∧ (hardReset s).phase = .idle ∧
        ∃ t, exec .softReset s = .next t ∧ t.phase = .idle ∧ ∀ r, regValue t r = resetTable r

/-- R276: `SOFT_RESET` while no command runs leaves every byte of every buffer as it was, and the host's side with it. -/
def Obligations.SoftResetKeepsBuffersWhenIdle : Prop :=
  ∀ s : State, s.phase = .idle →
    ∃ t, exec .softReset s = .next t ∧ (∀ a, readByte t a = readByte s a) ∧ t.conf = s.conf ∧ t.inReset = s.inReset ∧
      t.agenda = s.agenda ∧ t.response = s.response ∧ t.fresh = s.fresh

/-- R275, R276, R341: `SOFT_RESET` while command `m` runs changes no byte but those of entries `m` would write; `BITS` keeps
its entries unless the fallback was committed, and then it is committed whole (the model's choice, log entry 12). -/
def Obligations.AbortTouchesOnlyTheCommandsEntries : Prop :=
  ∀ (s : State) (m : Instr), s.Inv → s.phase = .busy m →
    ∃ t, exec .softReset s = .next t ∧ t.phase = .idle ∧ t.status = Status.reset ∧ t.conf = s.conf ∧
      t.inReset = s.inReset ∧ t.agenda = s.agenda ∧ t.response = s.response ∧
      BytesKeptOutside (bufferWrites m s ++ fallbackWrites m s) s t ∧
      ((∀ b, b < 65536 → entry t .bits b = entry s .bits b) ∨
        (writesFallback m s = true ∧ entry t .bits 0 = 1 ∧ entry t .bits 1 = 0 ∧ entry t .bits 2 = 1 ∧
          entry t .bits 3 = 0 ∧ ∀ b, 4 ≤ b → b < 65536 → entry t .bits b = entry s .bits b))

/-- R340, R342: asserting and releasing the reset input from any state leaves the sequencer idle, the registers of R60 and
no buffer byte that was written before (how memory and the reset input are held is the model's choice, log entries 9, 10 and
13). -/
def Obligations.HardwareResetSequence : Prop :=
  ∀ (s : State) (rest : List Turn), s.agenda = .assertReset :: .releaseReset :: rest →
    ∃ t u, step s = .next t ∧ t.inReset = true ∧ t.phase = .idle ∧ step t = .next u ∧ u.inReset = false ∧
      u.phase = .idle ∧ u.mem = [] ∧ u.agenda = rest ∧ ∀ r, regValue u r = resetTable r

/-! The host bus. -/

/-- R34, R36: while no command runs, a parameter register stores the word written to it verbatim and reads it back; no other
register and no byte of memory changes. -/
def Obligations.ParameterWriteReadsBackVerbatim : Prop :=
  ∀ (s : State) (r : Reg) (v : Word), Ready s → IsParameter r →
    (busAccess (readAt (regOffset r)) (busAccess (writeAt (regOffset r) v) s)).response = .data v ∧
      (∀ r', r' ≠ r → regValue (busAccess (writeAt (regOffset r) v) s) r' = regValue s r') ∧
      ∀ a, readByte (busAccess (writeAt (regOffset r) v) s) a = readByte s a

/-- R37, R38, R39: `CTRL` has its fields at their bits and with their codes; a write to it keeps bits 1:0, stores the policy
with 3 replaced by 0, and discards bits 63:4; no other register and no byte of memory changes. -/
def Obligations.CtrlIsWriteAnyReadLegal : Prop :=
  (∀ s : State, CtrlLaidOut (regValue s .ctrl) s) ∧
  ∀ (s : State) (v : Word), Ready s →
    (busAccess (readAt 0x008) (busAccess (writeAt 0x008 v) s)).response =
        .data (if v.toNat / 4 % 4 = 3 then BitVec.ofNat 64 (v.toNat % 4) else BitVec.ofNat 64 (v.toNat % 16)) ∧
      (∀ r, r ≠ .ctrl → regValue (busAccess (writeAt 0x008 v) s) r = regValue s r) ∧
      ∀ a, readByte (busAccess (writeAt 0x008 v) s) a = readByte s a

/-- R48: `NBITS` stores a count within `MAX_BITS` and otherwise raises `ERR_RANGE` and stays. -/
def Obligations.NbitsWriteIsRangeChecked : Prop :=
  ∀ (s : State) (v : Word), Ready s →
    (v.toNat ≤ s.conf.maxBits →
      busAccess (writeAt 0x060 v) s = { s with par := { s.par with nbits := v }, response := .done }) ∧
    (s.conf.maxBits < v.toNat →
      busAccess (writeAt 0x060 v) s = { s with status := { s.status with err := .range }, response := .done })

/-- R47: a write of any value to `STATUS` clears `ERR` and `CLAMP` and nothing else, in every phase; a command that
substitutes a clamped value sets `CLAMP` again at its completion. -/
def Obligations.StatusWriteClearsErrAndClamp : Prop :=
  ∀ (s : State) (v : Word),
    busAccess (writeAt 0x018 v) s =
        { s with status := { s.status with err := .noError, clamp := false }, response := .done } ∧
      ∀ m, s.phase = .busy m → substitutes m s = true →
        (complete m (busAccess (writeAt 0x018 v) s)).status.clamp = true

/-- R51, R57: while no command runs, an entry of `BITS` stores bit 0 of the word written and reads it back zero-extended, an
entry of `RX` stores the word; every other entry of every buffer reads as before, and no register changes. -/
def Obligations.BufferEntryWriteReadsBack : Prop :=
  ∀ (s : State) (b : Buf) (i : Nat) (v : Word), s.Inv → Ready s → IsRwBuffer b → i < capacity s.conf b →
    (busAccess (readAt (entryAddr b i)) (busAccess (writeAt (entryAddr b i) v) s)).response =
        .data (if b = .bits then BitVec.ofNat 64 (v.toNat % 2) else v) ∧
      (∀ c j, j < 65536 → ¬(c = b ∧ j = i) →
        entry (busAccess (writeAt (entryAddr b i) v) s) c j = entry s c j) ∧
      ∀ r, regValue (busAccess (writeAt (entryAddr b i) v) s) r = regValue s r

/-- R87: byte `k` of the word written to an entry of `RX` is bits `8k+7:8k` of it. -/
def Obligations.EntryBytesAreLittleEndian : Prop :=
  ∀ (s : State) (i k : Nat) (v : Word), Ready s → i < capacity s.conf .rx → i < 65536 → k < 8 →
    (readByte (busAccess (writeAt (entryAddr .rx i) v) s) (entryAddr .rx i + k)).toNat = v.toNat / 256 ^ k % 256

/-- R84: an aligned 8-byte access to an unmapped offset reads 0 and ignores a write, in every phase; that the entries of
`MARK` from `MAX_BITS + 1` on are unmapped is the model's reading (log entry 15: R53 gives it more). R80: a physical access in
the 16 MiB window at `BASE` is the transaction at its offset, and one outside it leaves the block as it was and gets no answer
(log entry 19). -/
def Obligations.UnmappedOffsetsReadZero : Prop :=
  (∀ (s : State) (o : Nat) (v : Word), o % 8 = 0 → UnmappedOffset s.conf o →
    busAccess (readAt o) s = { s with response := .data 0 } ∧
      busAccess (writeAt o v) s = { s with response := .done }) ∧
    ∀ (s : State) (p : PhysAccess) (rest : List Turn), s.agenda = .bus p :: rest →
      (∀ o, o < 2 ^ 24 → p.addr = s.conf.base + o →
        step s =
          step { s with agenda := .host { offset := BitVec.ofNat 24 o, width := p.width, dir := p.dir } :: rest }) ∧
      (p.addr < s.conf.base ∨ s.conf.base + 2 ^ 24 ≤ p.addr →
        step s = .next { s with agenda := rest, response := .noAccess })

/-- R35, R84: a write to a read-only register or to an entry of a read-only buffer is ignored, in every phase, with no
error. -/
def Obligations.ReadOnlyWritesAreIgnored : Prop :=
  ∀ (s : State) (v : Word),
    (∀ r, IsRoRegister r → busAccess (writeAt (regOffset r) v) s = { s with response := .done }) ∧
      ∀ b i, ¬IsRwBuffer b → i < 65536 → busAccess (writeAt (entryAddr b i) v) s = { s with response := .done }

/-- R85, R86, R300: an access of another width or at an offset that is no multiple of 8 is answered with a bus error and
changes nothing else, in every phase and at every offset. -/
def Obligations.MalformedAccessIsBusError : Prop :=
  ∀ (s : State) (a : Access), (a.width ≠ 8 ∨ a.offset.toNat % 8 ≠ 0) →
    busAccess a s = { s with response := .busError a.offset }

/-- R350: while a command runs, a write to a RW register, to an entry of a RW buffer, or of any word but the `SOFT_RESET`
word to `CMD` raises `ERR_BUSY` and stores nothing, and the command goes on; a write to `STATUS` is accepted (R47), and one
to a RO register or a RO buffer entry is ignored with no error. -/
def Obligations.WritesWhileBusyAreRejected : Prop :=
  ∀ (s : State) (m : Instr) (v : Word), s.phase = .busy m →
    (∀ r, IsRwRegister r →
      busAccess (writeAt (regOffset r) v) s = { s with status := { s.status with err := .busy }, response := .done }) ∧
    (∀ b i, IsRwBuffer b → i < capacity s.conf b → i < 65536 →
      busAccess (writeAt (entryAddr b i) v) s = { s with status := { s.status with err := .busy }, response := .done }) ∧
    (v ≠ 0x0000000000000007 →
      busAccess (writeAt 0x010 v) s = { s with status := { s.status with err := .busy }, response := .done }) ∧
    busAccess (writeAt 0x018 v) s =
      { s with status := { s.status with err := .noError, clamp := false }, response := .done } ∧
    (∀ r, IsRoRegister r → busAccess (writeAt (regOffset r) v) s = { s with response := .done }) ∧
    ∀ b i, ¬IsRwBuffer b → i < 65536 → busAccess (writeAt (entryAddr b i) v) s = { s with response := .done }

/-- R34, R36, R40, R82 to R84, R89, R277, R351: what a read returns. While no command runs it returns the value of the
register of R36, or of the entry of R82, at its offset (bit 0 of a `BITS` entry, 0 beyond a buffer's capacity), and changes
nothing but the bus's answer. While `m` runs it changes nothing a host or a command can see; a register or entry that `m` does
not write reads its value, and so does every `STATUS` field that `m` does not write, `BUSY` reading 1. `STATUS` has the layout
of R40. What `m` writes is the state of its *Operands written* line, and the completion step leaves all other state, `BUSY`
apart, as it was. (`MARK`'s capacity is log entry 15's; which state `m` writes is read from the spec as log entry 11 says, a generate's
`STATUS` fields among it: `ERR` is in flight and `DEMOD_SCHEME` is not.) -/
def Obligations.ReadsInEveryPhase : Prop :=
  (∀ s : State, StatusLaidOut (regValue s .status) s) ∧
    (∀ (s : State) (m : Instr),
      (∀ r, regInFlight m s r = true ↔ r ∈ registersWritten m s) ∧
        (∀ j, (statusInFlight m s).getLsbD j = true ↔ j ∈ statusBitsWritten m s) ∧
        ∀ b i, entryInFlight m s b i = true ↔ EntryWritten m s b i) ∧
    (∀ (s : State) (m : Instr), s.Inv → s.phase = .busy m →
      (∀ r, r ≠ .status → regInFlight m s r = false → regValue (complete m s) r = regValue s r) ∧
        regValue (complete m s) .status &&& ~~~(statusInFlight m s ||| 1) =
          regValue s .status &&& ~~~(statusInFlight m s ||| 1) ∧
        ∀ b i, i < 65536 → entryInFlight m s b i = false → entry (complete m s) b i = entry s b i) ∧
    (∀ s : State, s.phase = .idle →
      (∀ e ∈ registerTable, busAccess (readAt e.1) s = { s with response := .data (regValue s e.2) }) ∧
        ∀ e ∈ windowTable, ∀ i, i < 65536 →
          busAccess (readAt (e.1 + 8 * i)) s =
            { s with
              response :=
                .data (if capacity s.conf e.2 ≤ i then 0
                  else if e.2 = .bits then BitVec.ofNat 64 ((entry s .bits i).toNat % 2) else entry s e.2 i) }) ∧
    ∀ (s : State) (m : Instr) (a : Access), s.phase = .busy m → a.wellFormed = true → a.dir = .read →
      ∃ v, (busAccess a s).response = .data v ∧
        (busAccess a s).ctrl = s.ctrl ∧ (busAccess a s).status = s.status ∧ (busAccess a s).par = s.par ∧
        (busAccess a s).der = s.der ∧ (busAccess a s).mem = s.mem ∧ (busAccess a s).phase = s.phase ∧
        (∀ r, targetOf s.conf a.offset.toNat = .reg r → r ≠ .status → regInFlight m s r = false → v = regValue s r) ∧
        (targetOf s.conf a.offset.toNat = .reg .status →
          v.toNat % 2 = 1 ∧ v &&& ~~~(statusInFlight m s) = regValue s .status &&& ~~~(statusInFlight m s)) ∧
        (targetOf s.conf a.offset.toNat = .unmapped → v = 0) ∧
        ∀ b i, targetOf s.conf a.offset.toNat = .entry b i → entryInFlight m s b i = false → v = entryValue s b i

/-- R95, R350: whatever the host does on the bus while a command runs, short of the `SOFT_RESET` word, every register and
buffer the command reads stays as it was at acceptance, and the command goes on. -/
def Obligations.RunningCommandsInputsAreFrozen : Prop :=
  ∀ (s : State) (m : Instr) (a : Access), s.phase = .busy m → a.dir ≠ .write 0x0000000000000007 →
    (busAccess a s).phase = .busy m ∧ (busAccess a s).ctrl = s.ctrl ∧ (busAccess a s).par = s.par ∧
      (busAccess a s).der = s.der ∧ (busAccess a s).mem = s.mem ∧
      (busAccess a s).status.genValid = s.status.genValid ∧ (busAccess a s).fresh.draws = s.fresh.draws

/-- R270, R275, R277, R305: the `SOFT_RESET` word is accepted in every phase and takes effect within its write. The word of a
command other than `SOFT_RESET`, written while no command runs, starts it: `BUSY` rises and nothing else changes, `ERR`
included; given while one runs, the command raises `ERR_BUSY` and does nothing else. -/
def Obligations.AcceptanceRule : Prop :=
  (∀ s : State, ∃ t, exec .softReset s = .next t ∧
    busAccess (writeAt 0x010 0x0000000000000007) s = { t with response := .done }) ∧
  ∀ (s : State) (i : Instr), Runs i →
    (Ready s → busAccess (writeAt 0x010 (encode i)) s = { s with phase := .busy i, response := .done }) ∧
      ∀ m, s.phase = .busy m → exec i s = .next { s with status := { s.status with err := .busy } }

/-! Clamping and the grid. -/

/-- R132: the clamping functions give legal values: the minimum for NaN and everything below it, +Infinity unchanged; a
finite positive amplitude; a finite frequency; and they report exactly the substitutions. -/
def Obligations.ClampedValuesAreLegal : Prop :=
  (∀ x m, m = fsMin ∨ m = durMin →
      F64.le m (sanMin x m).1 = true ∧ (sanMin x m).1 = (if F64.le m x then x else m) ∧
        (sanMin x m).2 = !F64.le m x) ∧
    (∀ x, F64.finite (sanAmp x).1 = true ∧ F64.gt (sanAmp x).1 F64.zero = true ∧
        ((sanAmp x).2 = false → (sanAmp x).1 = x) ∧ ((sanAmp x).2 = true → (sanAmp x).1 = F64.one) ∧
        (sanAmp x).2 = !(F64.finite x && F64.gt x F64.zero)) ∧
      ∀ x, F64.finite (sanFreq x).1 = true ∧ (sanFreq x).1 = (if F64.finite x then x else F64.zero) ∧
        (sanFreq x).2 = !F64.finite x

/-- R133, R134, R135, R136, R143: there is a grid exactly when `p` is not +Infinity and its floor is at most `MAX_SAMPLES`;
and the grid's rate, duration, amplitude and sizes. -/
def Obligations.GridFollowsTheParameters : Prop :=
  (∀ s : State,
    (∃ g, grid s = some g) ↔
      samplesAsked s ≠ F64.posInf ∧ F64.floor (samplesAsked s) ≤ (s.conf.maxSamples : Int)) ∧
  ∀ (s : State) (g : Grid), grid s = some g →
    g.nb = (if s.par.nbits.toNat = 0 then 4 else s.par.nbits.toNat) ∧ g.amp = (sanAmp s.par.amp).1 ∧
      g.fs = (sanMin s.par.fs fsMin).1 ∧
      (s.ctrl.timebase = .duration → g.dur = (sanMin s.par.duration durMin).1) ∧
      (s.ctrl.timebase = .bitrate →
        g.dur = (sanMin (F64.div s.fresh.nans (F64.ofNat g.nb) s.par.bitrate) durMin).1) ∧
      g.n = max 1 (F64.floor (F64.mul s.fresh.nans g.fs g.dur)).toNat ∧ g.spb = max 1 (g.n / g.nb) ∧
      g.ndec = g.n / g.spb ∧ g.n ≤ max 1 s.conf.maxSamples

/-- R139: the facts about the grid that the spec derives. -/
def Obligations.GridSizesInRange : Prop :=
  ∀ (s : State) (g : Grid), grid s = some g →
    1 ≤ g.n ∧ 1 ≤ g.spb ∧ 1 ≤ g.ndec ∧ g.ndec ≤ g.n ∧
      (g.nb ≤ g.n → g.nb ≤ g.ndec ∧ g.ndec ≤ 2 * g.nb - 1 ∧ g.nb * g.spb ≤ g.n) ∧
      (g.n < g.nb → g.spb = 1 ∧ g.ndec = g.n ∧ g.ndec < g.nb)

/-- R136: `p` is never NaN; when it is +Infinity or its floor exceeds `MAX_SAMPLES`, a generate and `RUN` change
`STATUS.ERR` alone. -/
def Obligations.OversizeGridChangesOnlyErr : Prop :=
  ∀ s : State,
    F64.isNaN (gridProduct s) = false ∧
      (s.phase = .idle → gridProduct s = F64.posInf ∨ (s.conf.maxSamples : Int) < F64.floor (gridProduct s) →
        ∀ i, i = .genBpsk ∨ i = .genFsk ∨ i = .run →
          exec i s = .next { s with status := { s.status with err := .size } })

/-- R45, R131: a command that completes sets `CLAMP` if it substituted a value and otherwise leaves it; no command clears
it; one that fails does not set it. -/
def Obligations.ClampIsSticky : Prop :=
  ∀ (s : State) (i : Instr), s.phase = .idle → Runs i →
    ∃ t, exec i s = .next t ∧ t.status.clamp = (s.status.clamp || substitutes i s)

/-- R140, R51: with `NBITS >= 1` a generate's bit `b` is bit 0 of `BITS[b]`; with `NBITS = 0` a successful generate uses
`[1,0,1,0]` and commits it to `BITS` and `NBITS`. -/
def Obligations.FallbackBitsAreCommitted : Prop :=
  (∀ (s : State) (b : Nat), 1 ≤ s.par.nbits.toNat → sourceBit s b = (entry s .bits b).getLsbD 0) ∧
  ∀ (s : State) (g : Grid) (i : Instr), s.Inv → s.phase = .idle → s.par.nbits = 0 → grid s = some g →
    i = .genBpsk ∨ i = .genFsk →
      g.nb = 4 ∧ (∀ b, b < 4 → sourceBit s b = decide (b % 2 = 0)) ∧
        ∃ t, exec i s = .next t ∧ t.par.nbits = 4 ∧ entry t .bits 0 = 1 ∧ entry t .bits 1 = 0 ∧
          entry t .bits 2 = 1 ∧ entry t .bits 3 = 0

/-! Commands. -/

/-- R271: `NOP` does nothing. -/
def Obligations.NopChangesNothing : Prop :=
  ∀ s : State, s.phase = .idle → exec .nop s = .next s

/-- R160 to R163, R137, R138, R142, R143: the result of `GEN_BPSK`. -/
def Obligations.GenBpskWritesTheWaveform : Prop :=
  ∀ (s : State) (g : Grid), s.Inv → s.phase = .idle → grid s = some g →
    ∃ t, exec .genBpsk s = .next t ∧ t.phase = .idle ∧
      (∀ i, i < g.n →
        entry t .t i = F64.div s.fresh.nans (F64.ofNat i) g.fs ∧
          entry t .bb i = (if sourceBit s (min (i / g.spb) (g.nb - 1)) then g.amp else F64.neg g.amp) ∧
          entry t .car i =
            cos (F64.mul s.fresh.nans (F64.mul s.fresh.nans twoPi (carrierFreq s)) (entry t .t i)) ∧
          entry t .mod i = F64.mul s.fresh.nans (entry t .bb i) (entry t .car i) ∧
          entry t .rx i = entry t .mod i) ∧
      (∀ b, b ≤ g.nb →
        entry t .mark b =
          F64.div s.fresh.nans (F64.mul s.fresh.nans (F64.ofNat b) g.dur) (F64.ofNat g.nb)) ∧
      t.der.n.toNat = g.n ∧ t.der.spb.toNat = g.spb ∧ t.der.ndec.toNat = g.ndec ∧ t.der.fsEff = g.fs ∧
      t.der.durEff = g.dur ∧ t.der.ampEff = g.amp ∧ t.der.psig = F64.zero ∧ t.der.sigma = F64.zero ∧
      t.status.genValid = true ∧ t.status.genScheme = .bpsk ∧ t.status.noisy = false ∧ t.status.demodValid = false

/-- R180 to R184, R187, R137, R138, R142, R143: the result of `GEN_FSK`; a trailing sample copies the last computed one. -/
def Obligations.GenFskWritesTheWaveform : Prop :=
  ∀ (s : State) (g : Grid), s.Inv → s.phase = .idle → grid s = some g →
    ∃ t, exec .genFsk s = .next t ∧ t.phase = .idle ∧
      (∀ i, i < g.n → entry t .t i = F64.div s.fresh.nans (F64.ofNat i) g.fs ∧ entry t .rx i = entry t .mod i) ∧
      (∀ i, i < min g.n (g.nb * g.spb) →
        entry t .car i =
            cos (F64.mul s.fresh.nans
              (F64.mul s.fresh.nans twoPi (if sourceBit s (i / g.spb) then oneFreq s else zeroFreq s))
              (F64.div s.fresh.nans (F64.ofNat (i - i / g.spb * g.spb)) g.fs)) ∧
          entry t .mod i = F64.mul s.fresh.nans g.amp (entry t .car i) ∧
          entry t .bb i = (if sourceBit s (i / g.spb) then g.amp else F64.neg g.amp)) ∧
      (∀ i, min g.n (g.nb * g.spb) ≤ i → i < g.n →
        entry t .car i = entry t .car (min g.n (g.nb * g.spb) - 1) ∧
          entry t .mod i = entry t .mod (min g.n (g.nb * g.spb) - 1) ∧
          entry t .bb i = entry t .bb (min g.n (g.nb * g.spb) - 1)) ∧
      (∀ b, b ≤ g.nb →
        entry t .mark b =
          F64.div s.fresh.nans (F64.mul s.fresh.nans (F64.ofNat b) g.dur) (F64.ofNat g.nb)) ∧
      t.der.n.toNat = g.n ∧ t.der.spb.toNat = g.spb ∧ t.der.ndec.toNat = g.ndec ∧ t.der.fsEff = g.fs ∧
      t.der.durEff = g.dur ∧ t.der.ampEff = g.amp ∧ t.der.psig = F64.zero ∧ t.der.sigma = F64.zero ∧
      t.status.genValid = true ∧ t.status.genScheme = .fsk ∧ t.status.noisy = false ∧ t.status.demodValid = false

/-- R160, R180, R167, R130, R42: what a successful generate leaves alone: every byte but those of the entries it writes
(`T`, `BB`, `CAR`, `MOD`, `RX` up to `N`, `MARK` up to `NB`, the fallback bits), every parameter register but `NBITS`, which
changes only with the fallback, `CTRL`, `ERR`, `DEMOD_SCHEME` and the entropy source. -/
def Obligations.GenerateFrame : Prop :=
  ∀ (s t : State) (g : Grid) (i : Instr), s.phase = .idle → grid s = some g → i = .genBpsk ∨ i = .genFsk →
    exec i s = .next t →
      BytesKeptOutside (generateFootprint s g) s t ∧ SurroundingsKept s t ∧ t.phase = .idle ∧
        t.par = (if s.par.nbits = 0 then { s.par with nbits := 4 } else s.par) ∧ t.status.err = s.status.err ∧
        t.status.demodScheme = s.status.demodScheme ∧ t.fresh.draws = s.fresh.draws

/-- R186: every FSK bit that owns a sample starts with a carrier of 1.0, whatever the bit and its index, provided
`TWO_PI * f` of its tone does not overflow (log entry 17). -/
def Obligations.FskBitStartsAtCarrierOne : Prop :=
  ∀ (s t : State) (g : Grid) (b : Nat), s.Inv → s.phase = .idle → grid s = some g → exec .genFsk s = .next t →
    b * g.spb < min g.n (g.nb * g.spb) →
    F64.finite (F64.mul s.fresh.nans twoPi (if sourceBit s b then oneFreq s else zeroFreq s)) = true →
      entry t .car (b * g.spb) = F64.one

/-- R145: without a valid grid the noise command and the demodulators raise `ERR_NO_DATA` and have no other effect. -/
def Obligations.NoGridRaisesNoData : Prop :=
  ∀ (s : State) (i : Instr), s.phase = .idle → s.status.genValid = false →
    i = .addNoise ∨ i = .demodBpsk ∨ i = .demodFsk →
      exec i s = .next { s with status := { s.status with err := .noData } }

/-- R201: a non-finite `SNR_DB` makes `RX` a copy of `MOD`, draws nothing, and clears `PSIG`, `SIGMA` and `NOISY`; noise is
off in this way from reset on, `SNR_DB` being a NaN there. -/
def Obligations.NonFiniteSnrCopiesTheSignal : Prop :=
  F64.isNaN State.reset.par.snrDb = true ∧
    ∀ s : State, s.Inv → s.phase = .idle → s.status.genValid = true → F64.finite s.par.snrDb = false →
    ∃ t, exec .addNoise s = .next t ∧ t.phase = .idle ∧
      (∀ i, i < s.der.n.toNat → entry t .rx i = entry s .mod i) ∧ t.fresh.draws = s.fresh.draws ∧
      t.der.psig = F64.zero ∧ t.der.sigma = F64.zero ∧ t.status.noisy = false ∧ t.status.demodValid = false

/-- R200, R202, R205, R206: a finite `SNR_DB` adds Box–Muller noise of the measured power to every sample of `MOD`, with
exactly `2*N` draws in the order of R205. It holds for every answer of the entropy source. -/
def Obligations.FiniteSnrAddsGaussianNoise : Prop :=
  ∀ s : State, s.Inv → s.phase = .idle → s.status.genValid = true → F64.finite s.par.snrDb = true →
    ∃ t, exec .addNoise s = .next t ∧ t.phase = .idle ∧
      t.der.psig =
        F64.div s.fresh.nans
          (F64.sum s.fresh.nans (fun i => F64.mul s.fresh.nans (entry s .mod i) (entry s .mod i)) s.der.n.toNat)
          (F64.ofNat s.der.n.toNat) ∧
      t.der.sigma =
        F64.sqrt s.fresh.nans
          (F64.div s.fresh.nans t.der.psig (pow10 (F64.div s.fresh.nans s.par.snrDb (F64.ofNat 10)))) ∧
      (∀ i, i < s.der.n.toNat →
        entry t .rx i =
          F64.add s.fresh.nans (entry s .mod i)
            (F64.mul s.fresh.nans t.der.sigma
              (F64.mul s.fresh.nans
                (F64.sqrt s.fresh.nans
                  (F64.mul s.fresh.nans (F64.neg (F64.ofNat 2))
                    (ln (F64.div s.fresh.nans
                      (F64.add s.fresh.nans (F64.ofNat (Config.entropy (s.fresh.draws + 2 * i)).toNat) F64.one)
                      (F64.ofNat (2 ^ 53))))))
                (cos (F64.mul s.fresh.nans twoPi
                  (F64.div s.fresh.nans (F64.ofNat (Config.entropy (s.fresh.draws + 2 * i + 1)).toNat)
                    (F64.ofNat (2 ^ 53)))))))) ∧
      t.fresh.draws = s.fresh.draws + 2 * s.der.n.toNat ∧ t.status.noisy = true ∧ t.status.demodValid = false

/-- R200, R203, R204: the noise command writes `RX[0..N-1]`, `PSIG`, `SIGMA`, `NOISY` and `DEMOD_VALID` and leaves every
other byte, register and flag alone. -/
def Obligations.NoiseFrame : Prop :=
  ∀ s t : State, s.phase = .idle → s.status.genValid = true → exec .addNoise s = .next t →
    BytesKeptOutside [(.rx, s.der.n.toNat)] s t ∧ SurroundingsKept s t ∧ GridRegistersKept s t ∧ t.phase = .idle ∧
      t.par = s.par ∧ t.status = { s.status with noisy := t.status.noisy, demodValid := false }

/-- R220 to R227, R144: the result of `DEMOD_BPSK`. -/
def Obligations.DemodBpskDecides : Prop :=
  ∀ s : State, s.Inv → s.phase = .idle → s.status.genValid = true →
    ∃ t, exec .demodBpsk s = .next t ∧ t.phase = .idle ∧
      (∀ i, i < s.der.n.toNat →
        entry t .mixed i =
            F64.mul s.fresh.nans (entry s .rx i)
              (cos (F64.mul s.fresh.nans (F64.mul s.fresh.nans twoPi (carrierFreq s)) (entry s .t i))) ∧
          entry t .q i =
            F64.mul s.fresh.nans (entry s .rx i)
              (sin (F64.mul s.fresh.nans (F64.mul s.fresh.nans twoPi (carrierFreq s)) (entry s .t i))) ∧
          entry t .filt i =
            F64.div s.fresh.nans
              (F64.sum s.fresh.nans (fun j => entry t .mixed (i + 1 - s.der.spb.toNat + j))
                (min (i + 1) s.der.spb.toNat))
              (F64.ofNat (min (i + 1) s.der.spb.toNat)) ∧
          entry t .recon i =
            (if entry t .dec (min (i / s.der.spb.toNat) (s.der.ndec.toNat - 1)) = 1 then F64.one else F64.negOne)) ∧
      (∀ b, b < s.der.ndec.toNat →
        entry t .dec b =
          (if F64.gt
              (match s.ctrl.policy with
                | .atEnd => entry t .filt (b * s.der.spb.toNat + s.der.spb.toNat - 1)
                | .midpoint => entry t .filt (b * s.der.spb.toNat + s.der.spb.toNat / 2)
                | .intervalAverage =>
                  F64.div s.fresh.nans
                    (F64.sum s.fresh.nans (fun j => entry t .filt (b * s.der.spb.toNat + j)) s.der.spb.toNat)
                    (F64.ofNat s.der.spb.toNat))
              F64.zero then 1 else 0)) ∧
      t.status.demodValid = true ∧ t.status.demodScheme = .bpsk

/-- R250 to R254, R144: the result of `DEMOD_FSK`. -/
def Obligations.DemodFskDecides : Prop :=
  ∀ s : State, s.Inv → s.phase = .idle → s.status.genValid = true →
    ∃ t, exec .demodFsk s = .next t ∧ t.phase = .idle ∧
      (∀ b, b < s.der.ndec.toNat →
        entry t .e0 b =
            F64.sum s.fresh.nans
              (fun j =>
                F64.mul s.fresh.nans (entry s .rx (b * s.der.spb.toNat + j))
                  (cos (F64.mul s.fresh.nans (F64.mul s.fresh.nans twoPi (zeroFreq s))
                    (entry s .t (b * s.der.spb.toNat + j)))))
              s.der.spb.toNat ∧
          entry t .e1 b =
            F64.sum s.fresh.nans
              (fun j =>
                F64.mul s.fresh.nans (entry s .rx (b * s.der.spb.toNat + j))
                  (cos (F64.mul s.fresh.nans (F64.mul s.fresh.nans twoPi (oneFreq s))
                    (entry s .t (b * s.der.spb.toNat + j)))))
              s.der.spb.toNat ∧
          entry t .dec b = (if F64.gt (entry t .e1 b) (entry t .e0 b) then 1 else 0)) ∧
      (∀ i, i < s.der.n.toNat →
        entry t .recon i =
          (if entry t .dec (min (i / s.der.spb.toNat) (s.der.ndec.toNat - 1)) = 1 then F64.one else F64.negOne)) ∧
      t.status.demodValid = true ∧ t.status.demodScheme = .fsk

/-- R232, R259, R49, R130, R228: what the demodulators leave alone: every byte but those of the entries they write, the
parameter registers, `CTRL`, `N`, `SPB`, `NDEC` and the other grid registers, `PSIG`, `SIGMA`, `ERR`, `GEN_VALID`,
`GEN_SCHEME`, `NOISY` and the entropy source. -/
def Obligations.DemodulateFrame : Prop :=
  ∀ s t : State, s.phase = .idle → s.status.genValid = true →
    ((exec .demodBpsk s = .next t →
        BytesKeptOutside
          [(.mixed, s.der.n.toNat), (.q, s.der.n.toNat), (.filt, s.der.n.toNat), (.dec, s.der.ndec.toNat),
           (.recon, s.der.n.toNat)] s t) ∧
      (exec .demodFsk s = .next t →
        BytesKeptOutside
          [(.e0, s.der.ndec.toNat), (.e1, s.der.ndec.toNat), (.dec, s.der.ndec.toNat), (.recon, s.der.n.toNat)] s t)) ∧
      (exec .demodBpsk s = .next t ∨ exec .demodFsk s = .next t →
        SurroundingsKept s t ∧ t.phase = .idle ∧ t.par = s.par ∧ t.der = s.der ∧ t.status.err = s.status.err ∧
          t.status.genValid = s.status.genValid ∧ t.status.genScheme = s.status.genScheme ∧
          t.status.noisy = s.status.noisy ∧ t.fresh.draws = s.fresh.draws)

/-- R250, R253: with equal tones the correlations are equal bit for bit and every decision is 0. Where a correlation is a NaN,
that the two are one NaN is the model's choice (log entry 7). -/
def Obligations.EqualTonesDecideZero : Prop :=
  ∀ s t : State, s.Inv → s.phase = .idle → s.status.genValid = true → zeroFreq s = oneFreq s →
    exec .demodFsk s = .next t →
      (∀ b, b < s.der.ndec.toNat → entry t .e1 b = entry t .e0 b ∧ entry t .dec b = 0) ∧
        ∀ i, i < s.der.n.toNat → entry t .recon i = F64.negOne

/-- R229 (2): no-noise round trip, the half that holds for every `COS`: after `GEN_BPSK` and `DEMOD_BPSK` under `END` with
`N >= NB`, every 0 bit is decided 0, if no carrier sample is NaN and `TWO_PI * fc` does not overflow (log entry 17). -/
def Obligations.ZeroBitsSurviveTheRoundTrip : Prop :=
  ∀ (s t u : State) (g : Grid), s.Inv → s.phase = .idle → grid s = some g → s.ctrl.policy = .atEnd → g.nb ≤ g.n →
    exec .genBpsk s = .next t → exec .demodBpsk t = .next u →
    F64.finite (F64.mul s.fresh.nans twoPi (carrierFreq s)) = true →
    (∀ k, k < g.n → F64.isNaN (entry t .car k) = false) →
      ∀ b, b < g.nb → sourceBit s b = false → entry u .dec b = 0

/-- R272, R273 (which the spec derives): `RUN` on a grid that fits ends in the state that its three phases end in, issued
one after another with the same entropy answers, with the flags R272 lists. That the two give the same NaNs, whose sign and
payload R148 leaves free, is the model's choice (log entry 7). -/
def Obligations.RunEqualsItsThreePhases : Prop :=
  ∀ (s : State) (g : Grid), s.phase = .idle → grid s = some g →
    ∃ s1 s2 t, exec (if s.ctrl.scheme = .bpsk then .genBpsk else .genFsk) s = .next s1 ∧
      exec .addNoise s1 = .next s2 ∧
      exec (if s.ctrl.scheme = .bpsk then .demodBpsk else .demodFsk) s2 = .next t ∧ exec .run s = .next t ∧
      t.phase = .idle ∧ t.status.genValid = true ∧ t.status.genScheme = s.ctrl.scheme ∧
      t.status.noisy = F64.finite s.par.snrDb ∧ t.status.demodValid = true ∧ t.status.demodScheme = s.ctrl.scheme ∧
      t.status.err = s.status.err

/-- R272, R167, R232, R259, R205: what a successful `RUN` leaves alone: every byte but those its phases write, the parameter
registers but `NBITS` under the fallback, `CTRL`; it draws `2*N` times when `SNR_DB` is finite and not otherwise, and its
grid registers are those of the generate. -/
def Obligations.RunFrame : Prop :=
  ∀ (s t : State) (g : Grid), s.Inv → s.phase = .idle → grid s = some g → exec .run s = .next t →
    BytesKeptOutside (generateFootprint s g ++ demodWrites s.ctrl.scheme g.n g.ndec) s t ∧ SurroundingsKept s t ∧
      t.par = (if s.par.nbits = 0 then { s.par with nbits := 4 } else s.par) ∧
      t.fresh.draws = s.fresh.draws + (if F64.finite s.par.snrDb then 2 * g.n else 0) ∧
      t.der.n.toNat = g.n ∧ t.der.spb.toNat = g.spb ∧ t.der.ndec.toNat = g.ndec ∧ t.der.fsEff = g.fs ∧
      t.der.durEff = g.dur ∧ t.der.ampEff = g.amp

/-- R43, R49, R50, R60: of the commands only the generates, `RUN` and `SOFT_RESET` change `N`, `SPB`, `NDEC` and the `_EFF`
registers, and only those and the noise command change `PSIG` and `SIGMA`; of the steps of the whole machine, host accesses
and the reset input included, only the end of such a command, the `SOFT_RESET` write and the release of reset do. -/
def Obligations.OnlyGeneratesWriteTheGrid : Prop :=
  (∀ (s t : State) (i : Instr), exec i s = .next t → ¬WritesGrid i →
    GridRegistersKept s t ∧ (i ≠ .addNoise → t.der = s.der)) ∧
    ∀ s t : State, step s = .next t →
      (GridRegistersKept s t ∨ CommandEndsNext WritesGrid s ∨ ResetNext s) ∧
        (t.der = s.der ∨ CommandEndsNext (fun i => WritesGrid i ∨ i = .addNoise) s ∨ ResetNext s)

/-! binary64. -/

/-- R13: the laws of the configuration functions. -/
def Obligations.ConfigurationFunctionLaws : Prop :=
  cos F64.zero = F64.one ∧ cos (F64.neg F64.zero) = F64.one ∧ sin F64.zero = F64.zero ∧
    sin (F64.neg F64.zero) = F64.neg F64.zero ∧ ln F64.one = F64.zero ∧
    (∀ u, F64.gt u F64.zero = true → F64.le u F64.one = true → F64.le (ln u) F64.zero = true) ∧
    pow10 F64.zero = F64.one ∧
    ∀ k, 1 ≤ k → k ≤ 22 → pow10 (F64.ofNat k) = F64.ofNat (10 ^ k) ∧ F64value (pow10 (F64.ofNat k)) = 10 ^ k

/-- R11: `f64(n)` is exact below 2^53, `floor` of a finite number is the greatest integer not above it, and `-x` stands for
the opposite number. -/
def Obligations.IntegersConvertExactly : Prop :=
  (∀ n : Nat, n < 2 ^ 53 → F64.finite (F64.ofNat n) = true ∧ F64value (F64.ofNat n) = n) ∧
    ∀ x, F64.finite x = true →
      F64.floor x = ⌊F64value x⌋ ∧ F64.finite (F64.neg x) = true ∧ F64value (F64.neg x) = -F64value x

/-- R14: the ordered comparison is false on NaN, is the order of the numbers on finite operands, so the two zeros are equal,
and puts +Infinity above and -Infinity below every other word that is not NaN; a NaN or zero statistic decides 0. -/
def Obligations.ComparisonIsOrdered : Prop :=
  (∀ x y, F64.isNaN x = true ∨ F64.isNaN y = true → F64.gt x y = false) ∧
    (∀ x y, F64.finite x = true → F64.finite y = true → (F64.gt x y = true ↔ F64value y < F64value x)) ∧
    (∀ x y, F64.isNaN x = false → F64.isNaN y = false →
      (F64.isInf x = true → (F64.gt x y = true ↔ F64.sign x = false ∧ y ≠ x)) ∧
        (F64.isInf y = true → (F64.gt x y = true ↔ F64.sign y = true ∧ x ≠ y))) ∧
    F64.gt (F64.neg F64.zero) F64.zero = false ∧ ∀ x, F64.finite x = (!F64.isNaN x && !F64.isInf x)

/-- R11, R148: the sum of finite numbers is their exact sum, rounded to nearest even; a zero sum is negative only when both
operands are; an infinity plus a finite number or the same infinity is that infinity. -/
def Obligations.AdditionIsCorrectlyRounded : Prop :=
  (∀ (ν : Nat) (x y : F64), F64.isInf x = true → F64.finite y = true ∨ y = x →
    F64.add ν x y = x ∧ F64.add ν y x = x) ∧
  ∀ (ν : Nat) (x y : F64), F64.finite x = true → F64.finite y = true →
    RoundsTo (F64value x + F64value y) (F64.add ν x y) ∧
      (F64value x + F64value y = 0 → F64.sign (F64.add ν x y) = (F64.sign x && F64.sign y))

/-- R11, R148: the product of finite numbers is their exact product, rounded to nearest even, with the sign of the
operands' signs; an infinity times a word that is neither zero nor NaN is an infinity of that sign. -/
def Obligations.MultiplicationIsCorrectlyRounded : Prop :=
  (∀ (ν : Nat) (x y : F64), F64.isInf x = true → F64.isNaN y = false → F64.isZero y = false →
    (F64.isInf (F64.mul ν x y) = true ∧ F64.sign (F64.mul ν x y) = (F64.sign x != F64.sign y)) ∧
      F64.isInf (F64.mul ν y x) = true ∧ F64.sign (F64.mul ν y x) = (F64.sign y != F64.sign x)) ∧
  ∀ (ν : Nat) (x y : F64), F64.finite x = true → F64.finite y = true →
    RoundsTo (F64value x * F64value y) (F64.mul ν x y) ∧
      F64.sign (F64.mul ν x y) = (F64.sign x != F64.sign y)

/-- R11, R148: the quotient of finite numbers by a nonzero one is their exact quotient, rounded to nearest even, with the
sign of the operands' signs; a word that is neither zero nor NaN over a zero, and an infinity over a finite number, is an
infinity of that sign; a finite number over an infinity is a zero of that sign (R133). -/
def Obligations.DivisionIsCorrectlyRounded : Prop :=
  (∀ (ν : Nat) (x y : F64),
    (F64.isNaN x = false → F64.isZero x = false → F64.isZero y = true →
      F64.isInf (F64.div ν x y) = true ∧ F64.sign (F64.div ν x y) = (F64.sign x != F64.sign y)) ∧
    (F64.isInf x = true → F64.finite y = true →
      F64.isInf (F64.div ν x y) = true ∧ F64.sign (F64.div ν x y) = (F64.sign x != F64.sign y)) ∧
    (F64.finite x = true → F64.isInf y = true →
      F64.isZero (F64.div ν x y) = true ∧ F64.sign (F64.div ν x y) = (F64.sign x != F64.sign y))) ∧
  ∀ (ν : Nat) (x y : F64), F64.finite x = true → F64.finite y = true → F64.isZero y = false →
    RoundsTo (F64value x / F64value y) (F64.div ν x y) ∧
      F64.sign (F64.div ν x y) = (F64.sign x != F64.sign y)

/-- R11: the square root of a positive finite number is finite, not negative, and no nonnegative finite number is nearer to
the exact root; the root of +Infinity is +Infinity and the root of a zero is that zero. -/
def Obligations.SquareRootIsNearest : Prop :=
  (∀ ν : Nat, F64.sqrt ν F64.posInf = F64.posInf ∧ F64.sqrt ν F64.zero = F64.zero ∧
    F64.sqrt ν (F64.neg F64.zero) = F64.neg F64.zero) ∧
  ∀ (ν : Nat) (x : F64), F64.finite x = true → F64.gt x F64.zero = true →
    F64.finite (F64.sqrt ν x) = true ∧ F64.sign (F64.sqrt ν x) = false ∧
      ∀ z, F64.finite z = true →
        |(F64value (F64.sqrt ν x) : ℝ) - Real.sqrt (F64value x : ℝ)| ≤
          |(F64value z : ℝ) - Real.sqrt (F64value x : ℝ)|

/-- R148: the operations that have no number for a result give a NaN, whatever its sign and payload: a NaN operand, opposite
infinities added, a zero and an infinity multiplied in either order, equal kinds divided, the root of a negative number. -/
def Obligations.InvalidOperationsGiveNaN : Prop :=
  ∀ (ν : Nat) (x y : F64),
    (F64.isNaN x = true ∨ F64.isNaN y = true →
      F64.isNaN (F64.add ν x y) = true ∧ F64.isNaN (F64.mul ν x y) = true ∧ F64.isNaN (F64.div ν x y) = true) ∧
    (F64.isInf x = true → F64.isInf y = true → F64.sign x ≠ F64.sign y → F64.isNaN (F64.add ν x y) = true) ∧
    (F64.isZero x = true → F64.isInf y = true →
      F64.isNaN (F64.mul ν x y) = true ∧ F64.isNaN (F64.mul ν y x) = true) ∧
    (F64.isInf x = true → F64.isInf y = true → F64.isNaN (F64.div ν x y) = true) ∧
    (F64.isZero x = true → F64.isZero y = true → F64.isNaN (F64.div ν x y) = true) ∧
    (F64.isNaN x = true ∨ (F64.sign x = true ∧ F64.isZero x = false) → F64.isNaN (F64.sqrt ν x) = true)
end

