-- ==== Sys2Proof/Laws/Memory.lean ====
section
/-! SUPPORT. Memory: what one byte reads as after a write, the canonical form is kept, words are made of their bytes. -/

namespace Sys2Proof.Machine

@[simp] theorem Memory.get?_nil (a : Nat) : Memory.get? [] a = none := rfl

@[simp] theorem Memory.get?_cons (b : Nat) (v : Byte) (m : Memory) (a : Nat) :
    Memory.get? ((b, v) :: m) a = if b = a then some v else Memory.get? m a := rfl

/-- Read after write of one byte: the written byte at its offset, every other byte as before. -/
theorem Memory.get?_set (m : Memory) (a : Nat) (v : Byte) (x : Nat) :
    Memory.get? (Memory.set m a v) x = if x = a then some v else Memory.get? m x := by
  induction m with
  | nil => simp [Memory.set, eq_comm]
  | cons c m ih =>
    obtain ⟨b, w⟩ := c
    simp only [Memory.set]
    split_ifs <;> simp_all <;> grind

/-- Read after write of the first bytes of a word. -/
theorem Memory.get?_putBytes (m : Memory) (a : Nat) (w : Word) (k x : Nat) :
    Memory.get? (Memory.putBytes m a w k) x =
      if a ≤ x ∧ x < a + k then some (byteOf w (x - a)) else Memory.get? m x := by
  induction k with
  | zero => simp only [Memory.putBytes]; rw [if_neg (by omega)]
  | succ k ih =>
    rw [Memory.putBytes, Memory.get?_set, ih]
    by_cases h : x = a + k
    · subst h; simp
    · simp only [h, if_false]; congr 1; exact propext (by omega)

/-- Read after write of a word. -/
theorem Memory.get?_putWord (m : Memory) (a : Nat) (w : Word) (x : Nat) :
    Memory.get? (Memory.putWord m a w) x =
      if a ≤ x ∧ x < a + 8 then some (byteOf w (x - a)) else Memory.get? m x :=
  Memory.get?_putBytes m a w 8 x

theorem Memory.risingFrom_mono {lo lo' : Nat} {m : Memory} (h : lo' ≤ lo) (hm : Memory.risingFrom lo m = true) :
    Memory.risingFrom lo' m = true := by
  cases m with
  | nil => rfl
  | cons c m =>
    obtain ⟨b, v⟩ := c
    simp only [Memory.risingFrom, Bool.and_eq_true, decide_eq_true_eq] at *
    exact ⟨by omega, hm.2⟩

theorem Memory.risingFrom_set {lo : Nat} {m : Memory} (a : Nat) (v : Byte) (hm : Memory.risingFrom lo m = true)
    (h : lo ≤ a) : Memory.risingFrom lo (Memory.set m a v) = true := by
  induction m generalizing lo with
  | nil => simp [Memory.set, Memory.risingFrom, h]
  | cons c m ih =>
    obtain ⟨b, w⟩ := c
    simp only [Memory.risingFrom, Bool.and_eq_true, decide_eq_true_eq] at hm
    simp only [Memory.set]
    split_ifs with h1 h2
    · simp only [Memory.risingFrom, Bool.and_eq_true, decide_eq_true_eq]; exact ⟨h, by omega, hm.2⟩
    · subst h2; simp only [Memory.risingFrom, Bool.and_eq_true, decide_eq_true_eq]; exact ⟨h, hm.2⟩
    · simp only [Memory.risingFrom, Bool.and_eq_true, decide_eq_true_eq]
      exact ⟨hm.1, ih hm.2 (by omega)⟩

/-- Writing a byte keeps the canonical form. -/
theorem Memory.wf_set {m : Memory} (a : Nat) (v : Byte) (hm : Memory.wf m = true) :
    Memory.wf (Memory.set m a v) = true := Memory.risingFrom_set a v hm (Nat.zero_le a)

/-- Writing a word keeps the canonical form. -/
theorem Memory.wf_putWord {m : Memory} (a : Nat) (w : Word) (hm : Memory.wf m = true) :
    Memory.wf (Memory.putWord m a w) = true := by
  unfold Memory.putWord
  suffices h : ∀ k, Memory.wf (Memory.putBytes m a w k) = true from h 8
  intro k
  induction k with
  | zero => exact hm
  | succ k ih => exact Memory.wf_set _ _ ih

/-- The cells of a memory after a byte is written are the old ones and the new one. -/
theorem Memory.mem_set {m : Memory} {a : Nat} {v : Byte} {c : Host.Cell} (h : c ∈ Memory.set m a v) :
    c = (a, v) ∨ c ∈ m := by
  induction m with
  | nil => simpa [Memory.set] using h
  | cons d m ih =>
    obtain ⟨b, w⟩ := d
    simp only [Memory.set] at h
    split_ifs at h <;> simp only [List.mem_cons] at * <;> tauto

/-- The cells of a memory after a word is written are the old ones and eight at the word's offsets. -/
theorem Memory.mem_putWord {m : Memory} {a : Nat} {w : Word} {c : Host.Cell} (h : c ∈ Memory.putWord m a w) :
    (a ≤ c.1 ∧ c.1 < a + 8) ∨ c ∈ m := by
  unfold Memory.putWord at h
  suffices g : ∀ k, k ≤ 8 → c ∈ Memory.putBytes m a w k → (a ≤ c.1 ∧ c.1 < a + 8) ∨ c ∈ m from g 8 le_rfl h
  intro k
  induction k with
  | zero => intro _ h; exact .inr h
  | succ k ih =>
    intro hk h
    rcases Memory.mem_set h with rfl | h
    · left; simp; omega
    · exact ih (by omega) h

/-- A word is the sum of its bytes, the first the least significant (R87). -/
theorem wordAt_eq_of_bytes (s : State) (a : Nat) (w : Word) (h : ∀ k, k < 8 → readByte s (a + k) = byteOf w k) :
    wordAt s a = w := by
  have hw := w.isLt
  have e : ∀ k, k < 8 → (readByte s (a + k)).toNat = w.toNat / 256 ^ k % 256 := by
    intro k hk; rw [h k hk]; simp [byteOf]
  have e0 := e 0 (by omega); have e1 := e 1 (by omega); have e2 := e 2 (by omega); have e3 := e 3 (by omega)
  have e4 := e 4 (by omega); have e5 := e 5 (by omega); have e6 := e 6 (by omega); have e7 := e 7 (by omega)
  apply BitVec.eq_of_toNat_eq
  simp only [wordAt, bytesAt, BitVec.toNat_ofNat, Nat.add_assoc, Nat.reduceAdd] at *
  simp only [Nat.add_zero] at e0
  rw [e0, e1, e2, e3, e4, e5, e6, e7]
  omega

/-- Words made of equal bytes are equal. -/
theorem wordAt_congr {s t : State} {a : Nat} (h : ∀ k, k < 8 → readByte s (a + k) = readByte t (a + k)) :
    wordAt s a = wordAt t a := by
  have h0 := h 0 (by omega); have h1 := h 1 (by omega); have h2 := h 2 (by omega); have h3 := h 3 (by omega)
  have h4 := h 4 (by omega); have h5 := h 5 (by omega); have h6 := h 6 (by omega); have h7 := h 7 (by omega)
  simp only [wordAt, bytesAt, Nat.add_assoc, Nat.reduceAdd, Nat.add_zero] at *
  rw [h0, h1, h2, h3, h4, h5, h6, h7]

end Sys2Proof.Machine
end

