-- ==== Sys2Proof/Laws/State.lean ====
section
/-! SUPPORT. What each named update of the state changes, field by field. -/

namespace Sys2Proof.Machine

@[simp] theorem cmdError_conf (e : ErrCode) (s : State) : (cmdError e s).conf = s.conf := rfl
@[simp] theorem cmdError_ctrl (e : ErrCode) (s : State) : (cmdError e s).ctrl = s.ctrl := rfl
@[simp] theorem cmdError_status (e : ErrCode) (s : State) : (cmdError e s).status = { s.status with err := e } := rfl
@[simp] theorem cmdError_par (e : ErrCode) (s : State) : (cmdError e s).par = s.par := rfl
@[simp] theorem cmdError_der (e : ErrCode) (s : State) : (cmdError e s).der = s.der := rfl
@[simp] theorem cmdError_mem (e : ErrCode) (s : State) : (cmdError e s).mem = s.mem := rfl
@[simp] theorem cmdError_phase (e : ErrCode) (s : State) : (cmdError e s).phase = s.phase := rfl
@[simp] theorem cmdError_inReset (e : ErrCode) (s : State) : (cmdError e s).inReset = s.inReset := rfl
@[simp] theorem cmdError_agenda (e : ErrCode) (s : State) : (cmdError e s).agenda = s.agenda := rfl
@[simp] theorem cmdError_response (e : ErrCode) (s : State) : (cmdError e s).response = s.response := rfl
@[simp] theorem cmdError_fresh (e : ErrCode) (s : State) : (cmdError e s).fresh = s.fresh := rfl

@[simp] theorem clearStatus_conf (s : State) : (clearStatus s).conf = s.conf := rfl
@[simp] theorem clearStatus_ctrl (s : State) : (clearStatus s).ctrl = s.ctrl := rfl
@[simp] theorem clearStatus_status (s : State) : (clearStatus s).status = { s.status with err := .noError, clamp := false } := rfl
@[simp] theorem clearStatus_par (s : State) : (clearStatus s).par = s.par := rfl
@[simp] theorem clearStatus_der (s : State) : (clearStatus s).der = s.der := rfl
@[simp] theorem clearStatus_mem (s : State) : (clearStatus s).mem = s.mem := rfl
@[simp] theorem clearStatus_phase (s : State) : (clearStatus s).phase = s.phase := rfl
@[simp] theorem clearStatus_inReset (s : State) : (clearStatus s).inReset = s.inReset := rfl
@[simp] theorem clearStatus_agenda (s : State) : (clearStatus s).agenda = s.agenda := rfl
@[simp] theorem clearStatus_response (s : State) : (clearStatus s).response = s.response := rfl
@[simp] theorem clearStatus_fresh (s : State) : (clearStatus s).fresh = s.fresh := rfl

@[simp] theorem putEntry_conf (b : Buf) (i : Nat) (v : Word) (s : State) : (putEntry b i v s).conf = s.conf := rfl
@[simp] theorem putEntry_ctrl (b : Buf) (i : Nat) (v : Word) (s : State) : (putEntry b i v s).ctrl = s.ctrl := rfl
@[simp] theorem putEntry_status (b : Buf) (i : Nat) (v : Word) (s : State) : (putEntry b i v s).status = s.status := rfl
@[simp] theorem putEntry_par (b : Buf) (i : Nat) (v : Word) (s : State) : (putEntry b i v s).par = s.par := rfl
@[simp] theorem putEntry_der (b : Buf) (i : Nat) (v : Word) (s : State) : (putEntry b i v s).der = s.der := rfl
@[simp] theorem putEntry_mem (b : Buf) (i : Nat) (v : Word) (s : State) : (putEntry b i v s).mem = Memory.putWord s.mem (entryAddr b i) v := rfl
@[simp] theorem putEntry_phase (b : Buf) (i : Nat) (v : Word) (s : State) : (putEntry b i v s).phase = s.phase := rfl
@[simp] theorem putEntry_inReset (b : Buf) (i : Nat) (v : Word) (s : State) : (putEntry b i v s).inReset = s.inReset := rfl
@[simp] theorem putEntry_agenda (b : Buf) (i : Nat) (v : Word) (s : State) : (putEntry b i v s).agenda = s.agenda := rfl
@[simp] theorem putEntry_response (b : Buf) (i : Nat) (v : Word) (s : State) : (putEntry b i v s).response = s.response := rfl
@[simp] theorem putEntry_fresh (b : Buf) (i : Nat) (v : Word) (s : State) : (putEntry b i v s).fresh = s.fresh := rfl

@[simp] theorem accept_conf (m : Instr) (s : State) : (accept m s).conf = s.conf := rfl
@[simp] theorem accept_ctrl (m : Instr) (s : State) : (accept m s).ctrl = s.ctrl := rfl
@[simp] theorem accept_status (m : Instr) (s : State) : (accept m s).status = s.status := rfl
@[simp] theorem accept_par (m : Instr) (s : State) : (accept m s).par = s.par := rfl
@[simp] theorem accept_der (m : Instr) (s : State) : (accept m s).der = s.der := rfl
@[simp] theorem accept_mem (m : Instr) (s : State) : (accept m s).mem = s.mem := rfl
@[simp] theorem accept_phase (m : Instr) (s : State) : (accept m s).phase = .busy m := rfl
@[simp] theorem accept_inReset (m : Instr) (s : State) : (accept m s).inReset = s.inReset := rfl
@[simp] theorem accept_agenda (m : Instr) (s : State) : (accept m s).agenda = s.agenda := rfl
@[simp] theorem accept_response (m : Instr) (s : State) : (accept m s).response = s.response := rfl
@[simp] theorem accept_fresh (m : Instr) (s : State) : (accept m s).fresh = s.fresh := rfl

@[simp] theorem endCommand_conf (s : State) : (endCommand s).conf = s.conf := rfl
@[simp] theorem endCommand_ctrl (s : State) : (endCommand s).ctrl = s.ctrl := rfl
@[simp] theorem endCommand_status (s : State) : (endCommand s).status = s.status := rfl
@[simp] theorem endCommand_par (s : State) : (endCommand s).par = s.par := rfl
@[simp] theorem endCommand_der (s : State) : (endCommand s).der = s.der := rfl
@[simp] theorem endCommand_mem (s : State) : (endCommand s).mem = s.mem := rfl
@[simp] theorem endCommand_phase (s : State) : (endCommand s).phase = .idle := rfl
@[simp] theorem endCommand_inReset (s : State) : (endCommand s).inReset = s.inReset := rfl
@[simp] theorem endCommand_agenda (s : State) : (endCommand s).agenda = s.agenda := rfl
@[simp] theorem endCommand_response (s : State) : (endCommand s).response = s.response := rfl
@[simp] theorem endCommand_fresh (s : State) : (endCommand s).fresh = s.fresh := rfl

@[simp] theorem nextNans_conf (s : State) : (nextNans s).conf = s.conf := rfl
@[simp] theorem nextNans_ctrl (s : State) : (nextNans s).ctrl = s.ctrl := rfl
@[simp] theorem nextNans_status (s : State) : (nextNans s).status = s.status := rfl
@[simp] theorem nextNans_par (s : State) : (nextNans s).par = s.par := rfl
@[simp] theorem nextNans_der (s : State) : (nextNans s).der = s.der := rfl
@[simp] theorem nextNans_mem (s : State) : (nextNans s).mem = s.mem := rfl
@[simp] theorem nextNans_phase (s : State) : (nextNans s).phase = s.phase := rfl
@[simp] theorem nextNans_inReset (s : State) : (nextNans s).inReset = s.inReset := rfl
@[simp] theorem nextNans_agenda (s : State) : (nextNans s).agenda = s.agenda := rfl
@[simp] theorem nextNans_response (s : State) : (nextNans s).response = s.response := rfl
@[simp] theorem nextNans_fresh (s : State) : (nextNans s).fresh = { s.fresh with nans := s.fresh.nans + 1 } := rfl

@[simp] theorem resetRegisters_conf (s : State) : (resetRegisters s).conf = s.conf := rfl
@[simp] theorem resetRegisters_ctrl (s : State) : (resetRegisters s).ctrl = Ctrl.reset := rfl
@[simp] theorem resetRegisters_status (s : State) : (resetRegisters s).status = Status.reset := rfl
@[simp] theorem resetRegisters_par (s : State) : (resetRegisters s).par = Params.reset := rfl
@[simp] theorem resetRegisters_der (s : State) : (resetRegisters s).der = Derived.reset := rfl
@[simp] theorem resetRegisters_mem (s : State) : (resetRegisters s).mem = s.mem := rfl
@[simp] theorem resetRegisters_phase (s : State) : (resetRegisters s).phase = .idle := rfl
@[simp] theorem resetRegisters_inReset (s : State) : (resetRegisters s).inReset = s.inReset := rfl
@[simp] theorem resetRegisters_agenda (s : State) : (resetRegisters s).agenda = s.agenda := rfl
@[simp] theorem resetRegisters_response (s : State) : (resetRegisters s).response = s.response := rfl
@[simp] theorem resetRegisters_fresh (s : State) : (resetRegisters s).fresh = s.fresh := rfl

@[simp] theorem hardReset_conf (s : State) : (hardReset s).conf = s.conf := rfl
@[simp] theorem hardReset_ctrl (s : State) : (hardReset s).ctrl = Ctrl.reset := rfl
@[simp] theorem hardReset_status (s : State) : (hardReset s).status = Status.reset := rfl
@[simp] theorem hardReset_par (s : State) : (hardReset s).par = Params.reset := rfl
@[simp] theorem hardReset_der (s : State) : (hardReset s).der = Derived.reset := rfl
@[simp] theorem hardReset_mem (s : State) : (hardReset s).mem = [] := rfl
@[simp] theorem hardReset_phase (s : State) : (hardReset s).phase = .idle := rfl
@[simp] theorem hardReset_inReset (s : State) : (hardReset s).inReset = false := rfl
@[simp] theorem hardReset_agenda (s : State) : (hardReset s).agenda = s.agenda := rfl
@[simp] theorem hardReset_response (s : State) : (hardReset s).response = s.response := rfl
@[simp] theorem hardReset_fresh (s : State) : (hardReset s).fresh = { s.fresh with resets := s.fresh.resets + 1 } := rfl

@[simp] theorem finishDemod_conf (sch : Scheme) (c : Bool) (s : State) : (finishDemod sch c s).conf = s.conf := rfl
@[simp] theorem finishDemod_ctrl (sch : Scheme) (c : Bool) (s : State) : (finishDemod sch c s).ctrl = s.ctrl := rfl
@[simp] theorem finishDemod_status (sch : Scheme) (c : Bool) (s : State) : (finishDemod sch c s).status = s.status.afterDemod sch c := rfl
@[simp] theorem finishDemod_par (sch : Scheme) (c : Bool) (s : State) : (finishDemod sch c s).par = s.par := rfl
@[simp] theorem finishDemod_der (sch : Scheme) (c : Bool) (s : State) : (finishDemod sch c s).der = s.der := rfl
@[simp] theorem finishDemod_mem (sch : Scheme) (c : Bool) (s : State) : (finishDemod sch c s).mem = s.mem := rfl
@[simp] theorem finishDemod_phase (sch : Scheme) (c : Bool) (s : State) : (finishDemod sch c s).phase = s.phase := rfl
@[simp] theorem finishDemod_inReset (sch : Scheme) (c : Bool) (s : State) : (finishDemod sch c s).inReset = s.inReset := rfl
@[simp] theorem finishDemod_agenda (sch : Scheme) (c : Bool) (s : State) : (finishDemod sch c s).agenda = s.agenda := rfl
@[simp] theorem finishDemod_response (sch : Scheme) (c : Bool) (s : State) : (finishDemod sch c s).response = s.response := rfl
@[simp] theorem finishDemod_fresh (sch : Scheme) (c : Bool) (s : State) : (finishDemod sch c s).fresh = { s.fresh with nans := s.fresh.nans + 1 } := rfl

@[simp] theorem fill_conf (b : Buf) (f : Nat → Word) (n : Nat) (s : State) : (fill b f n s).conf = s.conf := by
  induction n with
  | zero => rfl
  | succ n ih => simp [fill, ih]

@[simp] theorem fill_ctrl (b : Buf) (f : Nat → Word) (n : Nat) (s : State) : (fill b f n s).ctrl = s.ctrl := by
  induction n with
  | zero => rfl
  | succ n ih => simp [fill, ih]

@[simp] theorem fill_status (b : Buf) (f : Nat → Word) (n : Nat) (s : State) : (fill b f n s).status = s.status := by
  induction n with
  | zero => rfl
  | succ n ih => simp [fill, ih]

@[simp] theorem fill_par (b : Buf) (f : Nat → Word) (n : Nat) (s : State) : (fill b f n s).par = s.par := by
  induction n with
  | zero => rfl
  | succ n ih => simp [fill, ih]

@[simp] theorem fill_der (b : Buf) (f : Nat → Word) (n : Nat) (s : State) : (fill b f n s).der = s.der := by
  induction n with
  | zero => rfl
  | succ n ih => simp [fill, ih]

@[simp] theorem fill_phase (b : Buf) (f : Nat → Word) (n : Nat) (s : State) : (fill b f n s).phase = s.phase := by
  induction n with
  | zero => rfl
  | succ n ih => simp [fill, ih]

@[simp] theorem fill_inReset (b : Buf) (f : Nat → Word) (n : Nat) (s : State) : (fill b f n s).inReset = s.inReset := by
  induction n with
  | zero => rfl
  | succ n ih => simp [fill, ih]

@[simp] theorem fill_agenda (b : Buf) (f : Nat → Word) (n : Nat) (s : State) : (fill b f n s).agenda = s.agenda := by
  induction n with
  | zero => rfl
  | succ n ih => simp [fill, ih]

@[simp] theorem fill_response (b : Buf) (f : Nat → Word) (n : Nat) (s : State) : (fill b f n s).response = s.response := by
  induction n with
  | zero => rfl
  | succ n ih => simp [fill, ih]

@[simp] theorem fill_fresh (b : Buf) (f : Nat → Word) (n : Nat) (s : State) : (fill b f n s).fresh = s.fresh := by
  induction n with
  | zero => rfl
  | succ n ih => simp [fill, ih]

@[simp] theorem commitFallback_conf (s : State) : (commitFallback s).conf = s.conf := by
  unfold commitFallback; split <;> simp

@[simp] theorem commitFallback_ctrl (s : State) : (commitFallback s).ctrl = s.ctrl := by
  unfold commitFallback; split <;> simp

@[simp] theorem commitFallback_status (s : State) : (commitFallback s).status = s.status := by
  unfold commitFallback; split <;> simp

@[simp] theorem commitFallback_der (s : State) : (commitFallback s).der = s.der := by
  unfold commitFallback; split <;> simp

@[simp] theorem commitFallback_phase (s : State) : (commitFallback s).phase = s.phase := by
  unfold commitFallback; split <;> simp

@[simp] theorem commitFallback_inReset (s : State) : (commitFallback s).inReset = s.inReset := by
  unfold commitFallback; split <;> simp

@[simp] theorem commitFallback_agenda (s : State) : (commitFallback s).agenda = s.agenda := by
  unfold commitFallback; split <;> simp

@[simp] theorem commitFallback_response (s : State) : (commitFallback s).response = s.response := by
  unfold commitFallback; split <;> simp

@[simp] theorem commitFallback_fresh (s : State) : (commitFallback s).fresh = s.fresh := by
  unfold commitFallback; split <;> simp

@[simp] theorem bpskWaveform_conf (g : Grid) (fc : F64) (s : State) : (bpskWaveform g fc s).conf = s.conf := by simp [bpskWaveform]
@[simp] theorem bpskWaveform_ctrl (g : Grid) (fc : F64) (s : State) : (bpskWaveform g fc s).ctrl = s.ctrl := by simp [bpskWaveform]
@[simp] theorem bpskWaveform_status (g : Grid) (fc : F64) (s : State) : (bpskWaveform g fc s).status = s.status := by simp [bpskWaveform]
@[simp] theorem bpskWaveform_par (g : Grid) (fc : F64) (s : State) : (bpskWaveform g fc s).par = s.par := by simp [bpskWaveform]
@[simp] theorem bpskWaveform_der (g : Grid) (fc : F64) (s : State) : (bpskWaveform g fc s).der = s.der := by simp [bpskWaveform]
@[simp] theorem bpskWaveform_phase (g : Grid) (fc : F64) (s : State) : (bpskWaveform g fc s).phase = s.phase := by simp [bpskWaveform]
@[simp] theorem bpskWaveform_inReset (g : Grid) (fc : F64) (s : State) : (bpskWaveform g fc s).inReset = s.inReset := by simp [bpskWaveform]
@[simp] theorem bpskWaveform_agenda (g : Grid) (fc : F64) (s : State) : (bpskWaveform g fc s).agenda = s.agenda := by simp [bpskWaveform]
@[simp] theorem bpskWaveform_response (g : Grid) (fc : F64) (s : State) : (bpskWaveform g fc s).response = s.response := by simp [bpskWaveform]
@[simp] theorem bpskWaveform_fresh (g : Grid) (fc : F64) (s : State) : (bpskWaveform g fc s).fresh = s.fresh := by simp [bpskWaveform]

@[simp] theorem fskWaveform_conf (g : Grid) (f0 f1 : F64) (s : State) : (fskWaveform g f0 f1 s).conf = s.conf := by simp [fskWaveform]
@[simp] theorem fskWaveform_ctrl (g : Grid) (f0 f1 : F64) (s : State) : (fskWaveform g f0 f1 s).ctrl = s.ctrl := by simp [fskWaveform]
@[simp] theorem fskWaveform_status (g : Grid) (f0 f1 : F64) (s : State) : (fskWaveform g f0 f1 s).status = s.status := by simp [fskWaveform]
@[simp] theorem fskWaveform_par (g : Grid) (f0 f1 : F64) (s : State) : (fskWaveform g f0 f1 s).par = s.par := by simp [fskWaveform]
@[simp] theorem fskWaveform_der (g : Grid) (f0 f1 : F64) (s : State) : (fskWaveform g f0 f1 s).der = s.der := by simp [fskWaveform]
@[simp] theorem fskWaveform_phase (g : Grid) (f0 f1 : F64) (s : State) : (fskWaveform g f0 f1 s).phase = s.phase := by simp [fskWaveform]
@[simp] theorem fskWaveform_inReset (g : Grid) (f0 f1 : F64) (s : State) : (fskWaveform g f0 f1 s).inReset = s.inReset := by simp [fskWaveform]
@[simp] theorem fskWaveform_agenda (g : Grid) (f0 f1 : F64) (s : State) : (fskWaveform g f0 f1 s).agenda = s.agenda := by simp [fskWaveform]
@[simp] theorem fskWaveform_response (g : Grid) (f0 f1 : F64) (s : State) : (fskWaveform g f0 f1 s).response = s.response := by simp [fskWaveform]
@[simp] theorem fskWaveform_fresh (g : Grid) (f0 f1 : F64) (s : State) : (fskWaveform g f0 f1 s).fresh = s.fresh := by simp [fskWaveform]

@[simp] theorem mixDown_conf (fc : F64) (s : State) : (mixDown fc s).conf = s.conf := by simp [mixDown]
@[simp] theorem mixDown_ctrl (fc : F64) (s : State) : (mixDown fc s).ctrl = s.ctrl := by simp [mixDown]
@[simp] theorem mixDown_status (fc : F64) (s : State) : (mixDown fc s).status = s.status := by simp [mixDown]
@[simp] theorem mixDown_par (fc : F64) (s : State) : (mixDown fc s).par = s.par := by simp [mixDown]
@[simp] theorem mixDown_der (fc : F64) (s : State) : (mixDown fc s).der = s.der := by simp [mixDown]
@[simp] theorem mixDown_phase (fc : F64) (s : State) : (mixDown fc s).phase = s.phase := by simp [mixDown]
@[simp] theorem mixDown_inReset (fc : F64) (s : State) : (mixDown fc s).inReset = s.inReset := by simp [mixDown]
@[simp] theorem mixDown_agenda (fc : F64) (s : State) : (mixDown fc s).agenda = s.agenda := by simp [mixDown]
@[simp] theorem mixDown_response (fc : F64) (s : State) : (mixDown fc s).response = s.response := by simp [mixDown]
@[simp] theorem mixDown_fresh (fc : F64) (s : State) : (mixDown fc s).fresh = s.fresh := by simp [mixDown]

@[simp] theorem reconstruct_conf (s : State) : (reconstruct s).conf = s.conf := by simp [reconstruct]
@[simp] theorem reconstruct_ctrl (s : State) : (reconstruct s).ctrl = s.ctrl := by simp [reconstruct]
@[simp] theorem reconstruct_status (s : State) : (reconstruct s).status = s.status := by simp [reconstruct]
@[simp] theorem reconstruct_par (s : State) : (reconstruct s).par = s.par := by simp [reconstruct]
@[simp] theorem reconstruct_der (s : State) : (reconstruct s).der = s.der := by simp [reconstruct]
@[simp] theorem reconstruct_phase (s : State) : (reconstruct s).phase = s.phase := by simp [reconstruct]
@[simp] theorem reconstruct_inReset (s : State) : (reconstruct s).inReset = s.inReset := by simp [reconstruct]
@[simp] theorem reconstruct_agenda (s : State) : (reconstruct s).agenda = s.agenda := by simp [reconstruct]
@[simp] theorem reconstruct_response (s : State) : (reconstruct s).response = s.response := by simp [reconstruct]
@[simp] theorem reconstruct_fresh (s : State) : (reconstruct s).fresh = s.fresh := by simp [reconstruct]

@[simp] theorem commitGrid_conf (g : Grid) (c : Bool) (sch : Scheme) (s : State) :
    (commitGrid g c sch s).conf = s.conf := by simp [commitGrid]

@[simp] theorem commitGrid_ctrl (g : Grid) (c : Bool) (sch : Scheme) (s : State) :
    (commitGrid g c sch s).ctrl = s.ctrl := by simp [commitGrid]

@[simp] theorem commitGrid_phase (g : Grid) (c : Bool) (sch : Scheme) (s : State) :
    (commitGrid g c sch s).phase = s.phase := by simp [commitGrid]

@[simp] theorem commitGrid_inReset (g : Grid) (c : Bool) (sch : Scheme) (s : State) :
    (commitGrid g c sch s).inReset = s.inReset := by simp [commitGrid]

@[simp] theorem commitGrid_agenda (g : Grid) (c : Bool) (sch : Scheme) (s : State) :
    (commitGrid g c sch s).agenda = s.agenda := by simp [commitGrid]

@[simp] theorem commitGrid_response (g : Grid) (c : Bool) (sch : Scheme) (s : State) :
    (commitGrid g c sch s).response = s.response := by simp [commitGrid]

@[simp] theorem commitGrid_der (g : Grid) (c : Bool) (sch : Scheme) (s : State) :
    (commitGrid g c sch s).der = g.derived := rfl

@[simp] theorem commitGrid_status (g : Grid) (c : Bool) (sch : Scheme) (s : State) :
    (commitGrid g c sch s).status = s.status.afterGenerate sch c := by simp [commitGrid]

@[simp] theorem commitGrid_fresh (g : Grid) (c : Bool) (sch : Scheme) (s : State) :
    (commitGrid g c sch s).fresh = { s.fresh with nans := s.fresh.nans + 1 } := by simp [commitGrid]

@[simp] theorem commitGrid_par (g : Grid) (c : Bool) (sch : Scheme) (s : State) :
    (commitGrid g c sch s).par = (commitFallback s).par := by simp [commitGrid]

theorem commitFallback_par (s : State) :
    (commitFallback s).par = if s.par.nbits.toNat = 0 then { s.par with nbits := 4 } else s.par := by
  unfold commitFallback; split <;> simp

@[simp] theorem copyWithoutNoise_conf (s : State) : (copyWithoutNoise s).conf = s.conf := by simp [copyWithoutNoise]
@[simp] theorem copyWithoutNoise_ctrl (s : State) : (copyWithoutNoise s).ctrl = s.ctrl := by simp [copyWithoutNoise]
@[simp] theorem copyWithoutNoise_par (s : State) : (copyWithoutNoise s).par = s.par := by simp [copyWithoutNoise]
@[simp] theorem copyWithoutNoise_phase (s : State) : (copyWithoutNoise s).phase = s.phase := by simp [copyWithoutNoise]
@[simp] theorem copyWithoutNoise_inReset (s : State) : (copyWithoutNoise s).inReset = s.inReset := by simp [copyWithoutNoise]
@[simp] theorem copyWithoutNoise_agenda (s : State) : (copyWithoutNoise s).agenda = s.agenda := by simp [copyWithoutNoise]
@[simp] theorem copyWithoutNoise_response (s : State) : (copyWithoutNoise s).response = s.response := by simp [copyWithoutNoise]

@[simp] theorem addGaussianNoise_conf (s : State) : (addGaussianNoise s).conf = s.conf := by simp [addGaussianNoise]
@[simp] theorem addGaussianNoise_ctrl (s : State) : (addGaussianNoise s).ctrl = s.ctrl := by simp [addGaussianNoise]
@[simp] theorem addGaussianNoise_par (s : State) : (addGaussianNoise s).par = s.par := by simp [addGaussianNoise]
@[simp] theorem addGaussianNoise_phase (s : State) : (addGaussianNoise s).phase = s.phase := by simp [addGaussianNoise]
@[simp] theorem addGaussianNoise_inReset (s : State) : (addGaussianNoise s).inReset = s.inReset := by simp [addGaussianNoise]
@[simp] theorem addGaussianNoise_agenda (s : State) : (addGaussianNoise s).agenda = s.agenda := by simp [addGaussianNoise]
@[simp] theorem addGaussianNoise_response (s : State) : (addGaussianNoise s).response = s.response := by simp [addGaussianNoise]

end Sys2Proof.Machine
end

