-- ==== Sys2Proof/Laws/Buffers.lean ====
section
/-! SUPPORT. Buffer entries: what an entry and a byte read as after a write, after a whole buffer is filled, and after a
change of the state that leaves memory alone. -/

namespace Sys2Proof.Machine

/-- A byte is read from the memory and the number of the last hardware reset alone. -/
theorem readByte_congr {s t : State} (hm : t.mem = s.mem) (hr : t.fresh.resets = s.fresh.resets) (a : Nat) :
    readByte t a = readByte s a := by simp [readByte, hm, hr]

/-- An entry is read from the memory and the number of the last hardware reset alone. -/
theorem entry_congr {s t : State} (hm : t.mem = s.mem) (hr : t.fresh.resets = s.fresh.resets) (b : Buf) (i : Nat) :
    entry t b i = entry s b i := wordAt_congr fun _ _ => readByte_congr hm hr _

/-- A byte after an entry is written. -/
theorem readByte_putEntry (b : Buf) (i : Nat) (v : Word) (s : State) (a : Nat) :
    readByte (putEntry b i v s) a =
      if entryAddr b i ≤ a ∧ a < entryAddr b i + 8 then byteOf v (a - entryAddr b i) else readByte s a := by
  simp only [readByte, putEntry_mem, putEntry_fresh, Memory.get?_putWord]
  split_ifs <;> rfl

/-- Windows do not overlap: entries below 65536 of two buffers, or two entries of one, share no byte (R82, R83). -/
theorem entryAddr_apart {b c : Buf} {i j : Nat} (hi : i < 65536) (hj : j < 65536) (h : ¬(b = c ∧ i = j)) :
    entryAddr b i + 8 ≤ entryAddr c j ∨ entryAddr c j + 8 ≤ entryAddr b i := by
  unfold entryAddr
  by_cases hb : b = c
  · subst hb
    have : i ≠ j := fun e => h ⟨rfl, e⟩
    omega
  · have : window b + 0x80000 ≤ window c ∨ window c + 0x80000 ≤ window b := by
      revert hb; revert b c; intro b c _ _; cases b <;> cases c <;> simp_all [window]
    omega

/-- An entry after an entry is written. -/
theorem entry_putEntry (b : Buf) (i : Nat) (v : Word) (s : State) (c : Buf) (j : Nat) (hi : i < 65536)
    (hj : j < 65536) :
    entry (putEntry b i v s) c j = if c = b ∧ j = i then v else entry s c j := by
  split_ifs with h
  · obtain ⟨rfl, rfl⟩ := h
    apply wordAt_eq_of_bytes
    intro k hk
    rw [readByte_putEntry, if_pos (by omega)]
    congr 1; omega
  · apply wordAt_congr
    intro k hk
    rw [readByte_putEntry, if_neg]
    have := entryAddr_apart hj hi h
    omega

/-- An entry after a buffer's first `n` entries are filled. -/
theorem entry_fill (b : Buf) (f : Nat → Word) (n : Nat) (s : State) (c : Buf) (j : Nat) (hn : n ≤ 65536)
    (hj : j < 65536) :
    entry (fill b f n s) c j = if c = b ∧ j < n then f j else entry s c j := by
  induction n with
  | zero => simp [fill]
  | succ n ih =>
    rw [fill, entry_putEntry _ _ _ _ _ _ (by omega) hj, ih (by omega)]
    by_cases hc : c = b
    · by_cases hn' : j = n
      · simp [hc, hn']
      · have : (j < n + 1) = (j < n) := propext (by omega)
        simp [hc, hn', this]
    · simp [hc]

/-- A filled entry. -/
theorem entry_fill_same (b : Buf) (f : Nat → Word) (n : Nat) (s : State) (j : Nat) (hn : n ≤ 65536) (hj : j < n) :
    entry (fill b f n s) b j = f j := by
  rw [entry_fill _ _ _ _ _ _ hn (by omega), if_pos ⟨rfl, hj⟩]

/-- An entry of another buffer. -/
theorem entry_fill_other {b c : Buf} (h : c ≠ b) (f : Nat → Word) (n : Nat) (s : State) (j : Nat) (hn : n ≤ 65536)
    (hj : j < 65536) : entry (fill b f n s) c j = entry s c j := by
  rw [entry_fill _ _ _ _ _ _ hn hj, if_neg fun e => h e.1]

/-- A byte outside the entries filled. -/
theorem readByte_fill (b : Buf) (f : Nat → Word) (n : Nat) (s : State) (a : Nat)
    (h : ¬(entryAddr b 0 ≤ a ∧ a < entryAddr b n)) : readByte (fill b f n s) a = readByte s a := by
  induction n with
  | zero => rfl
  | succ n ih =>
    unfold entryAddr at h
    rw [fill, readByte_putEntry, if_neg (by unfold entryAddr; omega), ih (by unfold entryAddr; omega)]

/-- Filling a buffer keeps the canonical form. -/
theorem wf_fill (b : Buf) (f : Nat → Word) (n : Nat) {s : State} (h : Memory.wf s.mem = true) :
    Memory.wf (fill b f n s).mem = true := by
  induction n with
  | zero => exact h
  | succ n ih => exact Memory.wf_putWord _ _ ih

/-- Filling a buffer changes the memory alone. -/
theorem fill_eq (b : Buf) (f : Nat → Word) (n : Nat) (s : State) :
    fill b f n s = { s with mem := (fill b f n s).mem } := by
  induction n with
  | zero => rfl
  | succ n ih => rw [fill, ih]; rfl

/-- So does an abort's scrambling. -/
theorem scramble_eq (s : State) (rs : List (Buf × Nat)) : scramble s rs = { s with mem := (scramble s rs).mem } := by
  induction rs with
  | nil => rfl
  | cons r rs ih => simp only [scramble]; rw [fill_eq, ih]

/-- Scrambling keeps the canonical form. -/
theorem wf_scramble (s : State) (rs : List (Buf × Nat)) (h : Memory.wf s.mem = true) :
    Memory.wf (scramble s rs).mem = true := by
  induction rs with
  | nil => exact h
  | cons r rs ih => exact wf_fill _ _ _ ih

/-- The cells after a buffer is filled are the old ones and those of the entries filled. -/
theorem mem_fill {b : Buf} {f : Nat → Word} {n : Nat} {s : State} {c : Host.Cell} (h : c ∈ (fill b f n s).mem) :
    (∃ i, i < n ∧ entryAddr b i ≤ c.1 ∧ c.1 < entryAddr b i + 8) ∨ c ∈ s.mem := by
  induction n with
  | zero => exact .inr h
  | succ n ih =>
    rcases Memory.mem_putWord h with h | h
    · exact .inl ⟨n, by omega, h⟩
    · rcases ih h with ⟨i, hi, g⟩ | g
      · exact .inl ⟨i, by omega, g⟩
      · exact .inr g

@[simp] theorem coveredBy_nil (a : Nat) : coveredBy [] a = false := rfl

@[simp] theorem coveredBy_cons (b : Buf) (n : Nat) (rs : List (Buf × Nat)) (a : Nat) :
    coveredBy ((b, n) :: rs) a = ((decide (entryAddr b 0 ≤ a) && decide (a < entryAddr b n)) || coveredBy rs a) := rfl

/-- A byte outside the entries of a list of buffers. -/
theorem readByte_scramble (s : State) (rs : List (Buf × Nat)) (a : Nat) (h : coveredBy rs a = false) :
    readByte (scramble s rs) a = readByte s a := by
  induction rs with
  | nil => rfl
  | cons r rs ih =>
    obtain ⟨b, n⟩ := r
    simp only [coveredBy_cons, Bool.or_eq_false_iff, Bool.and_eq_false_iff, decide_eq_false_iff_not] at h
    rw [scramble, readByte_fill _ _ _ _ _ (by omega), ih h.2]

end Sys2Proof.Machine
end

