-- ==== Sys2Proof/Laws/Surroundings.lean ====
section
/-! SUPPORT. A command's body neither reads nor changes the phase, the agenda, the bus response and the number of in-flight
reads: it commutes with any change of them. So a command computes the same thing whether it runs at once, after polls, or
as a phase of `RUN`. -/

namespace Sys2Proof.Machine

/-- A state with other surroundings. -/
def dress (p : Phase) (a : List Turn) (r : Response) (k : Nat) (s : State) : State :=
  { s with phase := p, agenda := a, response := r, fresh := { s.fresh with reads := k } }

section
variable (p : Phase) (a : List Turn) (r : Response) (k : Nat)

@[simp] theorem dress_conf (s : State) : (dress p a r k s).conf = s.conf := rfl
@[simp] theorem dress_ctrl (s : State) : (dress p a r k s).ctrl = s.ctrl := rfl
@[simp] theorem dress_status (s : State) : (dress p a r k s).status = s.status := rfl
@[simp] theorem dress_par (s : State) : (dress p a r k s).par = s.par := rfl
@[simp] theorem dress_der (s : State) : (dress p a r k s).der = s.der := rfl
@[simp] theorem dress_mem (s : State) : (dress p a r k s).mem = s.mem := rfl
@[simp] theorem dress_phase (s : State) : (dress p a r k s).phase = p := rfl
@[simp] theorem dress_inReset (s : State) : (dress p a r k s).inReset = s.inReset := rfl
@[simp] theorem dress_agenda (s : State) : (dress p a r k s).agenda = a := rfl
@[simp] theorem dress_response (s : State) : (dress p a r k s).response = r := rfl
@[simp] theorem dress_fresh (s : State) : (dress p a r k s).fresh = { s.fresh with reads := k } := rfl

@[simp] theorem entry_dress (s : State) (b : Buf) (i : Nat) : entry (dress p a r k s) b i = entry s b i := rfl
@[simp] theorem nanEpoch_dress (s : State) : nanEpoch (dress p a r k s) = nanEpoch s := rfl
@[simp] theorem sampleCount_dress (s : State) : sampleCount (dress p a r k s) = sampleCount s := rfl
@[simp] theorem samplesPerBit_dress (s : State) : samplesPerBit (dress p a r k s) = samplesPerBit s := rfl
@[simp] theorem decisionCount_dress (s : State) : decisionCount (dress p a r k s) = decisionCount s := rfl
@[simp] theorem grid_dress (s : State) : grid (dress p a r k s) = grid s := rfl
@[simp] theorem sourceBit_dress (s : State) (b : Nat) : sourceBit (dress p a r k s) b = sourceBit s b := rfl
@[simp] theorem statistic_dress (s : State) (b : Nat) : statistic (dress p a r k s) b = statistic s b := rfl
@[simp] theorem movingAverage_dress (s : State) (i : Nat) : movingAverage (dress p a r k s) i = movingAverage s i := rfl
@[simp] theorem correlation_dress (s : State) (f : F64) (b : Nat) :
    correlation (dress p a r k s) f b = correlation s f b := rfl
@[simp] theorem noiseSigma_dress (s : State) : noiseSigma (dress p a r k s) = noiseSigma s := rfl
@[simp] theorem signalPower_dress (s : State) : signalPower (dress p a r k s) = signalPower s := rfl
@[simp] theorem noisySample_dress (s : State) (v : F64) (i : Nat) :
    noisySample (dress p a r k s) v i = noisySample s v i := rfl
@[simp] theorem fskCarrier_dress (s : State) (g : Grid) (f0 f1 : F64) (i : Nat) :
    fskCarrier (dress p a r k s) g f0 f1 i = fskCarrier s g f0 f1 i := rfl

@[simp] theorem fill_dress (b : Buf) (f : Nat → Word) (n : Nat) (s : State) :
    fill b f n (dress p a r k s) = dress p a r k (fill b f n s) := by
  induction n with
  | zero => rfl
  | succ n ih => rw [fill, ih]; rfl

theorem cmdError_dress (e : ErrCode) (s : State) : cmdError e (dress p a r k s) = dress p a r k (cmdError e s) := rfl

theorem commitFallback_dress (s : State) :
    commitFallback (dress p a r k s) = dress p a r k (commitFallback s) := by
  simp only [commitFallback, dress_par, fill_dress]
  split <;> rfl

theorem commitGrid_dress (g : Grid) (c : Bool) (sch : Scheme) (s : State) :
    commitGrid g c sch (dress p a r k s) = dress p a r k (commitGrid g c sch s) := by
  simp only [commitGrid, commitFallback_dress, nanEpoch_dress, fill_dress, entry_dress]
  rfl

theorem genBpskBody_dress (s : State) : genBpskBody (dress p a r k s) = dress p a r k (genBpskBody s) := by
  simp only [genBpskBody, grid_dress]
  cases grid s with
  | none => rfl
  | some g => simp only [bpskWaveform, dress_par, nanEpoch_dress, sourceBit_dress, fill_dress, entry_dress, commitGrid_dress]

theorem genFskBody_dress (s : State) : genFskBody (dress p a r k s) = dress p a r k (genFskBody s) := by
  simp only [genFskBody, grid_dress]
  cases grid s with
  | none => rfl
  | some g =>
    simp only [fskWaveform, dress_par, nanEpoch_dress, sourceBit_dress, fskCarrier_dress, fill_dress, entry_dress,
      commitGrid_dress]

theorem addNoiseBody_dress (s : State) : addNoiseBody (dress p a r k s) = dress p a r k (addNoiseBody s) := by
  simp only [addNoiseBody, addGaussianNoise, copyWithoutNoise, dress_status, dress_par, noiseSigma_dress, signalPower_dress,
    sampleCount_dress, entry_dress, fill_dress]
  split_ifs <;> rfl

theorem reconstruct_dress (s : State) : reconstruct (dress p a r k s) = dress p a r k (reconstruct s) := by
  simp only [reconstruct, sampleCount_dress, samplesPerBit_dress, decisionCount_dress, entry_dress, fill_dress]
  rfl

theorem demodBpskBody_dress (s : State) : demodBpskBody (dress p a r k s) = dress p a r k (demodBpskBody s) := by
  have hm : ∀ u, movingAverage (dress p a r k u) = movingAverage u := fun _ => rfl
  simp only [demodBpskBody, mixDown, dress_status, dress_par, nanEpoch_dress, entry_dress, sampleCount_dress,
    decisionCount_dress, fill_dress, hm, statistic_dress, reconstruct_dress]
  split_ifs <;> rfl

theorem demodFskBody_dress (s : State) : demodFskBody (dress p a r k s) = dress p a r k (demodFskBody s) := by
  have hc : ∀ u f, correlation (dress p a r k u) f = correlation u f := fun _ _ => rfl
  simp only [demodFskBody, dress_status, dress_par, decisionCount_dress, fill_dress, hc, entry_dress, reconstruct_dress]
  split_ifs <;> rfl

theorem runBody_dress (s : State) : runBody (dress p a r k s) = dress p a r k (runBody s) := by
  simp only [runBody, grid_dress, dress_ctrl]
  cases grid s with
  | none => rfl
  | some g =>
    cases s.ctrl.scheme with
    | bpsk => simp only [genBpskBody_dress, addNoiseBody_dress, demodBpskBody_dress]
    | fsk => simp only [genFskBody_dress, addNoiseBody_dress, demodFskBody_dress]

/-- Every command's body commutes with a change of surroundings. -/
theorem commandBody_dress (m : Instr) (s : State) :
    commandBody m (dress p a r k s) = dress p a r k (commandBody m s) := by
  cases m with
  | nop => rfl
  | genBpsk => exact genBpskBody_dress p a r k s
  | genFsk => exact genFskBody_dress p a r k s
  | addNoise => exact addNoiseBody_dress p a r k s
  | demodBpsk => exact demodBpskBody_dress p a r k s
  | demodFsk => exact demodFskBody_dress p a r k s
  | run => exact runBody_dress p a r k s
  | softReset => rfl

end

end Sys2Proof.Machine
end

