-- ==== Sys2Proof/Laws/Bus.lean ====
section
/-! SUPPORT. The address map and one bus transaction: what an offset selects, and what a legal access does. -/

namespace Sys2Proof.Machine

/-- A register's offset selects it (R36). -/
@[simp] theorem targetOf_regOffset (c : Conf) (r : Reg) : targetOf c (regOffset r) = .reg r := by
  cases r <;> rfl

theorem regOffset_le (r : Reg) : regOffset r ≤ 0x0A0 := by cases r <;> decide

theorem regOffset_aligned (r : Reg) : regOffset r % 8 = 0 := by cases r <;> rfl

theorem window_bounds (b : Buf) : 0x100000 ≤ window b ∧ window b ≤ 0x780000 := by cases b <;> decide

theorem window_aligned (b : Buf) : window b % 8 = 0 := by cases b <;> rfl

/-- No register stands above the register file. -/
theorem find_reg_none {o : Nat} (h : 0x0A0 < o) : allRegs.find? (fun r => regOffset r == o) = none := by
  rw [List.find?_eq_none]
  intro r _
  have := regOffset_le r
  simp only [beq_iff_eq]
  omega

/-- An offset in a buffer's window finds that buffer (R82). -/
theorem find_buf {b : Buf} {o : Nat} (h1 : window b ≤ o) (h2 : o < window b + windowBytes) :
    allBufs.find? (fun b => decide (window b ≤ o) && decide (o < window b + windowBytes)) = some b := by
  unfold windowBytes at *
  have key : ∀ c, (decide (window c ≤ o) && decide (o < window c + 0x80000)) = decide (c = b) := by
    intro c
    rw [← Bool.decide_and, decide_eq_decide]
    revert h1 h2
    cases b <;> cases c <;> simp [window] <;> omega
  simp only [key]
  cases b <;> rfl

/-- An entry's offset selects it if it exists (R82 to R84). -/
theorem targetOf_entryAddr (c : Conf) (b : Buf) (i : Nat) (h : i < 65536) :
    targetOf c (entryAddr b i) = if i < capacity c b then .entry b i else .unmapped := by
  have hw := window_bounds b
  have h1 : window b ≤ entryAddr b i := by unfold entryAddr; omega
  have h2 : entryAddr b i < window b + windowBytes := by unfold entryAddr windowBytes; omega
  have h3 : (entryAddr b i - window b) / 8 = i := by unfold entryAddr; omega
  simp only [targetOf, find_reg_none (show 0x0A0 < entryAddr b i by omega), find_buf h1 h2, h3]

theorem entryAddr_lt {b : Buf} {i : Nat} (h : i < 65536) : entryAddr b i < 2 ^ 24 := by
  have := window_bounds b; unfold entryAddr; omega

theorem entryAddr_aligned (b : Buf) (i : Nat) : entryAddr b i % 8 = 0 := by
  have := window_aligned b; unfold entryAddr; omega

/-- A legal read (R277, R351). -/
theorem busAccess_read {o : Nat} (ho : o < 2 ^ 24) (ha : o % 8 = 0) (s : State) :
    busAccess { offset := BitVec.ofNat 24 o, width := 8, dir := .read } s =
      { countRead s (targetOf s.conf o) with response := .data (readData s (targetOf s.conf o)) } := by
  have : (BitVec.ofNat 24 o).toNat = o := by simp only [BitVec.toNat_ofNat]; omega
  simp [busAccess, Access.wellFormed, Access.widthOk, Access.aligned, this, ha]

/-- A legal write (R277). -/
theorem busAccess_write {o : Nat} (ho : o < 2 ^ 24) (ha : o % 8 = 0) (v : Word) (s : State) :
    busAccess { offset := BitVec.ofNat 24 o, width := 8, dir := .write v } s =
      { writeTarget (targetOf s.conf o) v s with response := .done } := by
  have : (BitVec.ofNat 24 o).toNat = o := by simp only [BitVec.toNat_ofNat]; omega
  simp [busAccess, Access.wellFormed, Access.widthOk, Access.aligned, this, ha]

/-- Nothing is in flight while no command runs. -/
theorem inFlightMask_idle {s : State} (h : s.phase = .idle) (t : Target) : inFlightMask s t = 0 := by
  simp [inFlightMask, h]

/-- What is not in flight reads as it is. -/
theorem readData_of_mask_zero {s : State} {t : Target} (h : inFlightMask s t = 0) : readData s t = targetValue s t := by
  simp [readData, h]

theorem readData_idle {s : State} (h : s.phase = .idle) (t : Target) : readData s t = targetValue s t :=
  readData_of_mask_zero (inFlightMask_idle h t)

theorem countRead_idle {s : State} (h : s.phase = .idle) (t : Target) : countRead s t = s := by
  simp [countRead, inFlightMask_idle h t]

/-- A read changes nothing but the count of in-flight reads. -/
theorem countRead_eq (s : State) (t : Target) :
    ∃ k, countRead s t = { s with fresh := { s.fresh with reads := k } } := by
  unfold countRead
  split
  · exact ⟨s.fresh.reads, rfl⟩
  · exact ⟨_, rfl⟩

/-- The sequencer finishes what is running. -/
theorem sequencerMove_busy {s : State} {m : Instr} (h : s.phase = .busy m) : sequencerMove s = complete m s := by
  simp [sequencerMove, h]

theorem unlessBusy_idle {s t : State} (h : s.phase = .idle) : unlessBusy s t = t := by
  simp [unlessBusy, h, Phase.isBusy]

theorem unlessBusy_busy {s t : State} {m : Instr} (h : s.phase = .busy m) : unlessBusy s t = cmdError .busy s := by
  simp [unlessBusy, h, Phase.isBusy]

/-- A command issued while none runs: its body, and the end of it (R352). -/
theorem issue_idle {s : State} (h : s.phase = .idle) (m : Instr) (body : State → State) :
    issue m body s = endCommand (body (accept m s)) := by
  simp [issue, h, Phase.isBusy]

/-- A command issued while one runs (R270). -/
theorem issue_busy {s : State} {n : Instr} (h : s.phase = .busy n) (m : Instr) (body : State → State) :
    issue m body s = cmdError .busy s := by
  simp [issue, h, Phase.isBusy]

/-- A command that the sequencer runs, given while none runs: its body on the state as it is (R352). -/
theorem exec_idle {s : State} (h : s.phase = .idle) {i : Instr} (hi : i ≠ .softReset) :
    exec i s = .next (commandBody i s) := by
  have key : ∀ m, endCommand (commandBody m (accept m s)) = commandBody m s := by
    intro m
    have h1 : accept m s = dress (.busy m) s.agenda s.response s.fresh.reads s := rfl
    have h2 : s = dress .idle s.agenda s.response s.fresh.reads s := by
      conv_lhs => rw [show s = { s with phase := .idle } by rw [← h]]
      rfl
    have h3 := commandBody_dress .idle s.agenda s.response s.fresh.reads m s
    rw [← h2] at h3
    rw [h1, commandBody_dress, h3]
    rfl
  rw [← key i]
  cases i <;> first | exact absurd rfl hi | skip
  all_goals
    simp only [exec, execNop, execGenBpsk, execGenFsk, execAddNoise, execDemodBpsk, execDemodFsk, execRun, issue_idle h,
      commandBody]

/-- A command that the sequencer runs, given while one runs (R270). -/
theorem exec_busy {s : State} {m : Instr} (h : s.phase = .busy m) {i : Instr} (hi : i ≠ .softReset) :
    exec i s = .next (cmdError .busy s) := by
  cases i <;> first | exact absurd rfl hi | skip
  all_goals
    simp only [exec, execNop, execGenBpsk, execGenFsk, execAddNoise, execDemodBpsk, execDemodFsk, execRun, issue_busy h]

/-- Decoding inverts encoding (R111, R112). -/
theorem decodeWord_encode (i : Instr) : decodeWord (encode i) = .ok i := by cases i <;> rfl

end Sys2Proof.Machine
end

