-- ==== Sys2Proof/Laws/Grid.lean ====
section
/-! SUPPORT. The sample grid: what a successful prologue returns, and the bounds on its sizes (R135 to R140). -/

namespace Sys2Proof.Machine

/-- At least one bit is in use (R140). -/
theorem bitCount_pos (s : State) : 1 ≤ bitCount s := by unfold bitCount; split <;> omega

/-- The bits in use fit `BITS` (R8, R48). -/
theorem bitCount_le {s : State} (h : s.Inv) : bitCount s ≤ s.conf.maxBits := by
  have h1 := h.conf_legal
  have h2 := h.nbits_le
  simp only [Conf.legal, Bool.and_eq_true, decide_eq_true_eq] at h1
  unfold bitCount; split <;> omega

theorem conf_bounds {s : State} (h : s.Inv) :
    1000 ≤ s.conf.maxSamples ∧ s.conf.maxSamples ≤ 65536 ∧ 4 ≤ s.conf.maxBits ∧ s.conf.maxBits ≤ 65535 := by
  have h1 := h.conf_legal
  simp only [Conf.legal, Bool.and_eq_true, decide_eq_true_eq] at h1
  omega

theorem gridSamples_pos (s : State) : 1 ≤ gridSamples s := by unfold gridSamples; omega

theorem gridSpb_pos (s : State) : 1 ≤ gridSpb s := by unfold gridSpb; omega

theorem gridSpb_le (s : State) : gridSpb s ≤ gridSamples s := by
  have := gridSamples_pos s
  have := Nat.div_le_self (gridSamples s) (bitCount s)
  unfold gridSpb; omega

/-- A grid that passes the size check fits (R136). -/
theorem gridSamples_le {s : State} (h : gridTooLarge s = false) : gridSamples s ≤ max 1 s.conf.maxSamples := by
  simp only [gridTooLarge, Bool.or_eq_false_iff, decide_eq_false_iff_not] at h
  unfold gridSamples; omega

/-- A prologue that succeeds passed the size check and returned the values of R134 and R135. -/
theorem grid_some {s : State} {g : Grid} (h : grid s = some g) :
    gridTooLarge s = false ∧ g.nb = bitCount s ∧ g.amp = (sanAmp s.par.amp).1 ∧ g.fs = (sanMin s.par.fs fsMin).1 ∧
      g.dur = (sanMin (rawDuration s) durMin).1 ∧ g.n = gridSamples s ∧ g.spb = gridSpb s ∧
      g.ndec = gridSamples s / gridSpb s := by
  unfold grid at h
  split at h
  · cases h
  · rename_i h0; cases h; exact ⟨Bool.eq_false_iff.2 h0, rfl, rfl, rfl, rfl, rfl, rfl, rfl⟩

/-- The size check fails exactly when there is no grid (R136). -/
theorem grid_none {s : State} : grid s = none ↔ gridTooLarge s = true := by
  unfold grid; split <;> simp_all

/-- The sizes of a grid in a legal state fit the buffers and windows (R8, R136, R139). -/
theorem grid_bounds {s : State} {g : Grid} (hs : s.Inv) (h : grid s = some g) :
    1 ≤ g.nb ∧ g.nb ≤ s.conf.maxBits ∧ g.nb + 1 ≤ 65536 ∧ 1 ≤ g.n ∧ g.n ≤ s.conf.maxSamples ∧ g.n ≤ 65536 ∧
      1 ≤ g.spb ∧ g.spb ≤ g.n ∧ g.ndec = g.n / g.spb ∧ 1 ≤ g.ndec ∧ g.ndec ≤ g.n := by
  obtain ⟨h0, hnb, -, -, -, hn, hspb, hnd⟩ := grid_some h
  have hc := conf_bounds hs
  have h1 := bitCount_pos s
  have h2 := bitCount_le hs
  have h3 := gridSamples_pos s
  have h4 := gridSamples_le h0
  have h5 := gridSpb_pos s
  have h6 := gridSpb_le s
  have h7 := Nat.div_le_self (gridSamples s) (gridSpb s)
  have h8 : 1 ≤ gridSamples s / gridSpb s := (Nat.one_le_div_iff (by omega)).2 h6
  rw [hnb, hn, hspb, hnd]
  omega

theorem toNat_ofNat_of_le {n : Nat} (h : n ≤ 65536) : (BitVec.ofNat 64 n).toNat = n := by
  simp only [BitVec.toNat_ofNat]; omega

/-- `N`, `SPB` and `NDEC` hold the sizes of the grid (R138). -/
theorem derived_counts {s : State} {g : Grid} (hs : s.Inv) (h : grid s = some g) :
    g.derived.n.toNat = g.n ∧ g.derived.spb.toNat = g.spb ∧ g.derived.ndec.toNat = g.ndec := by
  obtain ⟨-, -, -, -, -, h1, -, h2, -, -, h3⟩ := grid_bounds hs h
  exact ⟨toNat_ofNat_of_le h1, toNat_ofNat_of_le (by omega), toNat_ofNat_of_le (by omega)⟩

/-- A completed grid in a legal state: the counts fit, and no interval runs past the last sample (R139, R145). -/
theorem counts_bounds {s : State} (hs : s.Inv) :
    sampleCount s ≤ 65536 ∧ decisionCount s ≤ sampleCount s ∧
      decisionCount s * samplesPerBit s ≤ sampleCount s := by
  have h1 := hs.samples_le
  have h2 := conf_bounds hs
  have h3 := hs.ndec_eq
  rw [h3]
  exact ⟨by omega, Nat.div_le_self _ _, Nat.div_mul_le_self _ _⟩

/-- A sample of a decision interval lies within the grid (R223, R252). -/
theorem interval_sample_lt {s : State} (hs : s.Inv) {b j : Nat} (hb : b < decisionCount s) (hj : j < samplesPerBit s) :
    b * samplesPerBit s + j < sampleCount s := by
  have h := (counts_bounds hs).2.2
  have : (b + 1) * samplesPerBit s ≤ decisionCount s * samplesPerBit s := Nat.mul_le_mul_right _ hb
  rw [Nat.add_mul] at this
  omega

end Sys2Proof.Machine
end

