-- ==== Sys2Proof/Laws/Commands.lean ====
section
/-! SUPPORT. What a command's body can do: the parts of the state it leaves alone, the bytes it may write, and the
registers and flags it leaves behind. -/

namespace Sys2Proof.Machine

/-! Bytes: a footprint holds every byte that may change. -/

/-- `t`'s memory differs from `s`'s only at bytes that `rs` covers. -/
def WritesWithin (rs : List (Buf × Nat)) (s t : State) : Prop :=
  t.fresh.resets = s.fresh.resets ∧ (Memory.wf s.mem = true → Memory.wf t.mem = true) ∧
    (∀ c ∈ t.mem, c ∈ s.mem ∨ coveredBy rs c.1 = true) ∧
    ∀ a, coveredBy rs a = false → readByte t a = readByte s a

@[simp] theorem coveredBy_append (p q : List (Buf × Nat)) (a : Nat) :
    coveredBy (p ++ q) a = (coveredBy p a || coveredBy q a) := by simp [coveredBy]

theorem WritesWithin.same {rs : List (Buf × Nat)} {s t : State} (hm : t.mem = s.mem)
    (hr : t.fresh.resets = s.fresh.resets) : WritesWithin rs s t :=
  ⟨hr, by rw [hm]; exact id, by rw [hm]; exact fun _ h => .inl h, fun _ _ => readByte_congr hm hr _⟩

theorem WritesWithin.fill (b : Buf) (f : Nat → Word) (n : Nat) (s : State) :
    WritesWithin [(b, n)] s (fill b f n s) := by
  refine ⟨by simp, fun h => wf_fill b f n h, fun c hc => ?_, fun a ha => ?_⟩
  · rcases mem_fill hc with ⟨i, hi, h⟩ | h
    · right
      simp only [coveredBy_cons, coveredBy_nil, Bool.or_false, Bool.and_eq_true, decide_eq_true_eq]
      unfold entryAddr at *
      omega
    · exact .inl h
  · apply readByte_fill
    simp only [coveredBy_cons, coveredBy_nil, Bool.or_false, Bool.and_eq_false_iff, decide_eq_false_iff_not] at ha
    omega

theorem WritesWithin.mono {p q : List (Buf × Nat)} {s t : State} (h : WritesWithin p s t)
    (hpq : ∀ a, coveredBy p a = true → coveredBy q a = true) : WritesWithin q s t := by
  obtain ⟨h1, h2, h3, h4⟩ := h
  refine ⟨h1, h2, fun c hc => (h3 c hc).imp_right (hpq _), fun a ha => h4 a ?_⟩
  by_contra hn
  rw [Bool.not_eq_false] at hn
  simp [hpq a hn] at ha

theorem WritesWithin.trans {p : List (Buf × Nat)} {s t u : State} (h : WritesWithin p s t) (g : WritesWithin p t u) :
    WritesWithin p s u := by
  obtain ⟨h1, h2, h3, h4⟩ := h
  obtain ⟨g1, g2, g3, g4⟩ := g
  refine ⟨g1.trans h1, fun h => g2 (h2 h), fun c hc => ?_, fun a ha => (g4 a ha).trans (h4 a ha)⟩
  rcases g3 c hc with hc | hc
  · exact h3 c hc
  · exact .inr hc

/-- One more buffer filled. -/
theorem WritesWithin.andFill {p : List (Buf × Nat)} {s t : State} (h : WritesWithin p s t) (b : Buf) (f : Nat → Word)
    (n : Nat) (hp : ∀ a, coveredBy [(b, n)] a = true → coveredBy p a = true) : WritesWithin p s (Machine.fill b f n t) :=
  h.trans ((WritesWithin.fill b f n t).mono hp)

/-- A change of registers and flags after the buffers are written. -/
theorem WritesWithin.andSame {p : List (Buf × Nat)} {s t u : State} (h : WritesWithin p s t) (hm : u.mem = t.mem)
    (hr : u.fresh.resets = t.fresh.resets) : WritesWithin p s u := h.trans (.same hm hr)

/-- The fallback bits, when `NBITS = 0`. -/
def fallbackEntries (s : State) : List (Buf × Nat) := if s.par.nbits.toNat = 0 then [(.bits, 4)] else []

theorem commitFallback_writes (s : State) : WritesWithin (fallbackEntries s) s (commitFallback s) := by
  unfold commitFallback fallbackEntries
  split
  · exact (WritesWithin.fill .bits (fun b => bitWord (fallbackBit b)) 4 s).andSame (by simp) (by simp)
  · exact .same rfl rfl

/-- The buffers a generate on `g` writes from parameters `s` (R160). -/
def generateEntries (s : State) (g : Grid) : List (Buf × Nat) :=
  [(.t, g.n), (.bb, g.n), (.car, g.n), (.mod, g.n), (.rx, g.n), (.mark, g.nb + 1)] ++ fallbackEntries s

theorem bpskWaveform_writes (g : Grid) (fc : F64) (s : State) :
    WritesWithin (generateEntries s g) s (bpskWaveform g fc s) := by
  refine (((WritesWithin.same rfl rfl).andFill _ _ _ ?_).andFill _ _ _ ?_).andFill _ _ _ ?_ <;>
    (intro a; simp only [generateEntries, coveredBy_append, coveredBy_cons, coveredBy_nil, Bool.or_eq_true]; tauto)

theorem fskWaveform_writes (g : Grid) (f0 f1 : F64) (s : State) :
    WritesWithin (generateEntries s g) s (fskWaveform g f0 f1 s) := by
  refine (((WritesWithin.same rfl rfl).andFill _ _ _ ?_).andFill _ _ _ ?_).andFill _ _ _ ?_ <;>
    (intro a; simp only [generateEntries, coveredBy_append, coveredBy_cons, coveredBy_nil, Bool.or_eq_true]; tauto)

theorem commitGrid_writes (g : Grid) (c : Bool) (sch : Scheme) (s : State) :
    WritesWithin (generateEntries s g) s (commitGrid g c sch s) := by
  have h : WritesWithin (generateEntries s g) s (commitFallback s) :=
    (commitFallback_writes s).mono fun a h => by simp [generateEntries, h]
  refine WritesWithin.andSame (((h.andFill .t _ _ ?_).andFill .rx _ _ ?_).andFill .mark _ _ ?_) rfl rfl <;>
    (intro a; simp only [generateEntries, coveredBy_append, coveredBy_cons, coveredBy_nil, Bool.or_eq_true]; tauto)

/-- A generate writes the entries of its grid (R160, R140). -/
theorem genBpskBody_writes {s : State} {g : Grid} (h : grid s = some g) :
    WritesWithin (generateEntries s g) s (genBpskBody s) := by
  simp only [genBpskBody, h]
  have h1 := bpskWaveform_writes g (sanFreq s.par.fc).1 s
  refine h1.trans ?_
  have h2 := commitGrid_writes g (g.clamped || (sanFreq s.par.fc).2) .bpsk (bpskWaveform g (sanFreq s.par.fc).1 s)
  simpa [generateEntries, fallbackEntries] using h2

theorem genFskBody_writes {s : State} {g : Grid} (h : grid s = some g) :
    WritesWithin (generateEntries s g) s (genFskBody s) := by
  simp only [genFskBody, h]
  have h1 := fskWaveform_writes g (sanFreq s.par.f0).1 (sanFreq s.par.f1).1 s
  refine h1.trans ?_
  have h2 := commitGrid_writes g (g.clamped || (sanFreq s.par.f0).2 || (sanFreq s.par.f1).2) .fsk
    (fskWaveform g (sanFreq s.par.f0).1 (sanFreq s.par.f1).1 s)
  simpa [generateEntries, fallbackEntries] using h2

/-- The noise command writes `RX` (R200). -/
theorem addNoiseBody_writes (s : State) : WritesWithin [(.rx, sampleCount s)] s (addNoiseBody s) := by
  unfold addNoiseBody
  split
  · exact .same rfl rfl
  · split
    · exact (WritesWithin.fill .rx _ _ s).andSame rfl rfl
    · exact (WritesWithin.fill .rx _ _ s).andSame rfl rfl

theorem demodBpskBody_writes (s : State) :
    WritesWithin (demodWrites .bpsk (sampleCount s) (decisionCount s)) s (demodBpskBody s) := by
  unfold demodBpskBody
  split
  · exact .same rfl rfl
  · refine WritesWithin.andSame (((((((WritesWithin.same rfl rfl).andFill .mixed _ _ ?_).andFill .q _ _ ?_)).andFill
      .filt _ _ ?_).andFill .dec _ _ ?_).andFill .recon _ _ ?_) rfl rfl <;>
    (intro a; simp [demodWrites, sampleCount, decisionCount, mixDown]; tauto)

theorem demodFskBody_writes (s : State) :
    WritesWithin (demodWrites .fsk (sampleCount s) (decisionCount s)) s (demodFskBody s) := by
  unfold demodFskBody
  split
  · exact .same rfl rfl
  · refine WritesWithin.andSame (((((WritesWithin.same rfl rfl).andFill .e0 _ _ ?_).andFill .e1 _ _ ?_).andFill
      .dec _ _ ?_).andFill .recon _ _ ?_) rfl rfl <;>
    (intro a; simp [demodWrites, sampleCount, decisionCount]; tauto)

/-! Registers and flags. -/

/-- The fields no command's body touches. -/
theorem commandBody_keeps (m : Instr) (s : State) :
    (commandBody m s).conf = s.conf ∧ (commandBody m s).ctrl = s.ctrl ∧ (commandBody m s).inReset = s.inReset ∧
      (commandBody m s).agenda = s.agenda ∧ (commandBody m s).response = s.response ∧
      (commandBody m s).phase = s.phase := by
  have hb : ∀ u, (genBpskBody u).conf = u.conf ∧ (genBpskBody u).ctrl = u.ctrl ∧ (genBpskBody u).inReset = u.inReset ∧
      (genBpskBody u).agenda = u.agenda ∧ (genBpskBody u).response = u.response ∧ (genBpskBody u).phase = u.phase := by
    intro u; unfold genBpskBody; split <;> simp
  have hf : ∀ u, (genFskBody u).conf = u.conf ∧ (genFskBody u).ctrl = u.ctrl ∧ (genFskBody u).inReset = u.inReset ∧
      (genFskBody u).agenda = u.agenda ∧ (genFskBody u).response = u.response ∧ (genFskBody u).phase = u.phase := by
    intro u; unfold genFskBody; split <;> simp
  have hn : ∀ u, (addNoiseBody u).conf = u.conf ∧ (addNoiseBody u).ctrl = u.ctrl ∧
      (addNoiseBody u).inReset = u.inReset ∧ (addNoiseBody u).agenda = u.agenda ∧
      (addNoiseBody u).response = u.response ∧ (addNoiseBody u).phase = u.phase := by
    intro u; unfold addNoiseBody; split_ifs <;> simp
  have hdb : ∀ u, (demodBpskBody u).conf = u.conf ∧ (demodBpskBody u).ctrl = u.ctrl ∧
      (demodBpskBody u).inReset = u.inReset ∧ (demodBpskBody u).agenda = u.agenda ∧
      (demodBpskBody u).response = u.response ∧ (demodBpskBody u).phase = u.phase := by
    intro u; unfold demodBpskBody; split <;> simp
  have hdf : ∀ u, (demodFskBody u).conf = u.conf ∧ (demodFskBody u).ctrl = u.ctrl ∧
      (demodFskBody u).inReset = u.inReset ∧ (demodFskBody u).agenda = u.agenda ∧
      (demodFskBody u).response = u.response ∧ (demodFskBody u).phase = u.phase := by
    intro u; unfold demodFskBody; split <;> simp
  cases m <;> simp only [commandBody, nopBody, hb, hf, hn, hdb, hdf, and_self]
  unfold runBody
  split
  · simp
  · split <;> simp only [hb, hf, hn, hdb, hdf, and_self]

/-- What a generate that has a grid leaves in the registers and flags (R138, R143). -/
theorem genBpskBody_registers {s : State} {g : Grid} (h : grid s = some g) :
    (genBpskBody s).der = g.derived ∧
      (genBpskBody s).par = (if s.par.nbits.toNat = 0 then { s.par with nbits := 4 } else s.par) ∧
      (genBpskBody s).status = s.status.afterGenerate .bpsk (g.clamped || (sanFreq s.par.fc).2) ∧
      (genBpskBody s).fresh = { s.fresh with nans := s.fresh.nans + 1 } := by
  simp [genBpskBody, h, commitFallback_par]

theorem genFskBody_registers {s : State} {g : Grid} (h : grid s = some g) :
    (genFskBody s).der = g.derived ∧
      (genFskBody s).par = (if s.par.nbits.toNat = 0 then { s.par with nbits := 4 } else s.par) ∧
      (genFskBody s).status = s.status.afterGenerate .fsk (g.clamped || (sanFreq s.par.f0).2 || (sanFreq s.par.f1).2) ∧
      (genFskBody s).fresh = { s.fresh with nans := s.fresh.nans + 1 } := by
  simp [genFskBody, h, commitFallback_par]

/-- What the noise command leaves in the registers and flags of a valid grid (R200, R201). -/
theorem addNoiseBody_registers {s : State} (h : s.status.genValid = true) :
    (addNoiseBody s).par = s.par ∧ (addNoiseBody s).status = s.status.afterNoise (F64.finite s.par.snrDb) ∧
      sampleCount (addNoiseBody s) = sampleCount s ∧ samplesPerBit (addNoiseBody s) = samplesPerBit s ∧
      decisionCount (addNoiseBody s) = decisionCount s ∧
      (addNoiseBody s).fresh =
        { s.fresh with
          nans := s.fresh.nans + 1
          draws := s.fresh.draws + (if F64.finite s.par.snrDb then 2 * sampleCount s else 0) } := by
  unfold addNoiseBody
  simp only [h, Bool.not_true, Bool.false_eq_true, if_false]
  split_ifs with hf <;>
    simp [addGaussianNoise, copyWithoutNoise, hf, sampleCount, samplesPerBit, decisionCount]

/-- What a demodulation of a valid grid leaves in the registers and flags (R220, R250). -/
theorem demodBpskBody_registers {s : State} (h : s.status.genValid = true) :
    (demodBpskBody s).der = s.der ∧ (demodBpskBody s).par = s.par ∧
      (demodBpskBody s).status = s.status.afterDemod .bpsk (sanFreq s.par.fc).2 ∧
      (demodBpskBody s).fresh = { s.fresh with nans := s.fresh.nans + 1 } := by
  simp [demodBpskBody, h]

theorem demodFskBody_registers {s : State} (h : s.status.genValid = true) :
    (demodFskBody s).der = s.der ∧ (demodFskBody s).par = s.par ∧
      (demodFskBody s).status = s.status.afterDemod .fsk ((sanFreq s.par.f0).2 || (sanFreq s.par.f1).2) ∧
      (demodFskBody s).fresh = { s.fresh with nans := s.fresh.nans + 1 } := by
  simp [demodFskBody, h]

/-! Entries. -/

/-- The entries after the fallback bits are committed, if they are (R140). -/
theorem entry_commitFallback (s : State) (b : Buf) (i : Nat) (hi : i < 65536) :
    entry (commitFallback s) b i =
      if s.par.nbits.toNat = 0 ∧ b = .bits ∧ i < 4 then bitWord (fallbackBit i) else entry s b i := by
  unfold commitFallback
  by_cases h : s.par.nbits.toNat = 0
  · simp only [h, if_true, true_and]
    rw [entry_congr (s := fill .bits (fun b => bitWord (fallbackBit b)) 4 s) (by simp) (by simp),
      entry_fill _ _ _ _ _ _ (by omega) hi]
  · simp [h]

/-- The entries after a grid is committed (R137, R142, R143). -/
theorem entry_commitGrid {g : Grid} (hn : g.n ≤ 65536) (hb : g.nb + 1 ≤ 65536) (c : Bool) (sch : Scheme) (s : State)
    (b : Buf) (i : Nat) (hi : i < 65536) :
    entry (commitGrid g c sch s) b i =
      if b = .mark ∧ i < g.nb + 1 then g.marker (nanEpoch s) i
      else if b = .rx ∧ i < g.n then entry s .mod i
      else if b = .t ∧ i < g.n then g.instant (nanEpoch s) i
      else entry (commitFallback s) b i := by
  have e : entry (commitGrid g c sch s) b i =
      entry (fill .mark (g.marker (nanEpoch s)) (g.nb + 1)
        (fill .rx (fun i => entry (fill .t (g.instant (nanEpoch s)) g.n (commitFallback s)) .mod i) g.n
          (fill .t (g.instant (nanEpoch s)) g.n (commitFallback s)))) b i :=
    entry_congr rfl (by simp [commitGrid]) b i
  rw [e, entry_fill _ _ _ _ _ _ hb hi, entry_fill _ _ _ _ _ _ hn hi, entry_fill _ _ _ _ _ _ hn hi,
    entry_fill _ _ _ _ b _ hn hi, entry_commitFallback _ .mod i hi]
  simp

/-- The entries after the waveform loop of `GEN_BPSK` (R160). -/
theorem entry_bpskWaveform {g : Grid} (hn : g.n ≤ 65536) (fc : F64) (s : State) (b : Buf) (i : Nat) (hi : i < 65536) :
    entry (bpskWaveform g fc s) b i =
      if b = .mod ∧ i < g.n then
        F64.mul (nanEpoch s) (nrz g.amp (sourceBit s (g.owner i)))
          (cos (angle (nanEpoch s) fc (g.instant (nanEpoch s) i)))
      else if b = .car ∧ i < g.n then cos (angle (nanEpoch s) fc (g.instant (nanEpoch s) i))
      else if b = .bb ∧ i < g.n then nrz g.amp (sourceBit s (g.owner i))
      else entry s b i := by
  unfold bpskWaveform
  simp only
  by_cases h : b = .mod ∧ i < g.n
  · obtain ⟨rfl, h⟩ := h
    rw [entry_fill_same _ _ _ _ _ hn h, entry_fill_same _ _ _ _ _ hn h, entry_fill_other (by decide) _ _ _ _ hn hi,
      entry_fill_same _ _ _ _ _ hn h]
    simp [h]
  · rw [entry_fill _ _ _ _ _ _ hn hi, if_neg h, entry_fill _ _ _ _ _ _ hn hi, entry_fill _ _ _ _ _ _ hn hi, if_neg h]

/-- The entries after the waveform loops of `GEN_FSK` (R180, R184). -/
theorem entry_fskWaveform {g : Grid} (hn : g.n ≤ 65536) (f0 f1 : F64) (s : State) (b : Buf) (i : Nat)
    (hi : i < 65536) :
    entry (fskWaveform g f0 f1 s) b i =
      if b = .bb ∧ i < g.n then nrz g.amp (sourceBit s (g.source i / g.spb))
      else if b = .mod ∧ i < g.n then F64.mul (nanEpoch s) g.amp (fskCarrier s g f0 f1 (g.source i))
      else if b = .car ∧ i < g.n then fskCarrier s g f0 f1 (g.source i)
      else entry s b i := by
  unfold fskWaveform
  simp only
  rw [entry_fill _ _ _ _ _ _ hn hi]
  refine if_congr Iff.rfl rfl ?_
  by_cases h : b = .mod ∧ i < g.n
  · obtain ⟨rfl, h⟩ := h
    rw [entry_fill_same _ _ _ _ _ hn h, entry_fill_same _ _ _ _ _ hn h]
    simp [h]
  · rw [entry_fill _ _ _ _ _ _ hn hi, if_neg h, if_neg h, entry_fill _ _ _ _ _ _ hn hi]

/-- The entries after mixing (R221, R227). -/
theorem entry_mixDown {s : State} (hn : sampleCount s ≤ 65536) (fc : F64) (b : Buf) (i : Nat) (hi : i < 65536) :
    entry (mixDown fc s) b i =
      if b = .q ∧ i < sampleCount s then
        F64.mul (nanEpoch s) (entry s .rx i) (sin (angle (nanEpoch s) fc (entry s .t i)))
      else if b = .mixed ∧ i < sampleCount s then
        F64.mul (nanEpoch s) (entry s .rx i) (cos (angle (nanEpoch s) fc (entry s .t i)))
      else entry s b i := by
  unfold mixDown
  simp only
  rw [entry_fill _ _ _ _ _ _ hn hi, entry_fill _ _ _ _ _ _ hn hi]

/-- The entries after reconstruction (R144). -/
theorem entry_reconstruct {s : State} (hn : sampleCount s ≤ 65536) (b : Buf) (i : Nat) (hi : i < 65536) :
    entry (reconstruct s) b i =
      if b = .recon ∧ i < sampleCount s then
        (if entry s .dec (min (i / samplesPerBit s) (decisionCount s - 1)) = 1 then F64.one else F64.negOne)
      else entry s b i := by
  unfold reconstruct
  rw [entry_fill _ _ _ _ _ _ hn hi]

/-- A frequency that passes the clamp is finite (R132). -/
theorem sanFreq_finite (f : F64) : F64.finite (sanFreq f).1 = true := by
  unfold sanFreq
  cases h : F64.finite f <;> simp [h]; decide

end Sys2Proof.Machine
end

