-- ==== Sys2Proof/Laws/Float64.lean ====
section
/-! SUPPORT. binary64: fields of packed words, the three kinds of word, rounding of a quotient, the integer square root,
and which results depend on a free NaN. -/

namespace Sys2Proof.F64

/-! Fields. -/

theorem infBits_lt : infBits < 2 ^ 63 := by decide

theorem toNat_pack {b : Nat} (s : Bool) (h : b < 2 ^ 63) : (pack s b).toNat = if s then 2 ^ 63 + b else b := by
  cases s <;> simp only [pack, BitVec.toNat_ofNat] <;> simp <;> omega

@[simp] theorem sign_pack {b : Nat} (s : Bool) (h : b < 2 ^ 63) : sign (pack s b) = s := by
  cases s <;> simp [sign, toNat_pack _ h]
  omega

@[simp] theorem absBits_pack {b : Nat} (s : Bool) (h : b < 2 ^ 63) : absBits (pack s b) = b := by
  unfold absBits; rw [toNat_pack _ h]; split <;> omega

theorem expo_pack {b : Nat} (s : Bool) (h : b < 2 ^ 63) : expo (pack s b) = b / 2 ^ 52 := by
  unfold expo; rw [toNat_pack _ h]; split <;> omega

theorem frac_pack {b : Nat} (s : Bool) (h : b < 2 ^ 63) : frac (pack s b) = b % 2 ^ 52 := by
  unfold frac; rw [toNat_pack _ h]; split <;> omega

/-- A word is its sign and its bits 62:0 (R116). -/
theorem pack_sign_absBits (x : F64) : pack (sign x) (absBits x) = x := by
  have hx := x.isLt
  apply BitVec.eq_of_toNat_eq
  rw [toNat_pack _ (by unfold absBits; omega)]
  unfold sign absBits
  by_cases h : 2 ^ 63 ≤ x.toNat <;> simp only [h, decide_true, decide_false, if_true, Bool.false_eq_true, if_false] <;>
    omega

/-- Every word is finite, an infinity or a NaN (R14, R116). -/
theorem finite_eq (x : F64) : finite x = (!isNaN x && !isInf x) := by
  unfold finite isNaN isInf bne
  cases expo x == 2047 <;> cases frac x == 0 <;> rfl

/-- Negation flips the sign and keeps the magnitude (R11). -/
theorem toNat_neg (x : F64) : (neg x).toNat = if sign x then x.toNat - 2 ^ 63 else x.toNat + 2 ^ 63 := by
  have hx := x.isLt
  have h0 : (neg x).toNat = x.toNat ^^^ 2 ^ 63 := by simp [neg]
  have h1 : (x.toNat ^^^ 2 ^ 63) % 2 ^ 63 = x.toNat % 2 ^ 63 := by rw [Nat.xor_mod_two_pow]; simp
  have h2 : (x.toNat ^^^ 2 ^ 63) / 2 ^ 63 = x.toNat / 2 ^ 63 ^^^ 1 := by
    rw [Nat.xor_div_two_pow, Nat.div_self (by decide)]
  rw [h0]
  unfold sign
  have h3 : x.toNat / 2 ^ 63 = 0 ∨ x.toNat / 2 ^ 63 = 1 := by omega
  rcases h3 with h | h
  · rw [h] at h2
    rw [if_neg (by simp; omega)]
    simp only [Nat.zero_xor] at h2
    omega
  · rw [h] at h2
    rw [if_pos (by simp; omega)]
    simp only [Nat.xor_self] at h2
    omega

@[simp] theorem sign_neg (x : F64) : sign (neg x) = !sign x := by
  have hx := x.isLt
  unfold sign at *
  rw [toNat_neg]
  unfold sign
  by_cases h : 2 ^ 63 ≤ x.toNat <;> simp only [h, decide_true, decide_false, if_true, Bool.false_eq_true, if_false] <;>
    first | (simp; done) | (simp; omega)

@[simp] theorem absBits_neg (x : F64) : absBits (neg x) = absBits x := by
  have hx := x.isLt
  unfold absBits
  rw [toNat_neg]
  unfold sign
  by_cases h : 2 ^ 63 ≤ x.toNat <;> simp only [h, decide_true, decide_false, if_true, Bool.false_eq_true, if_false] <;>
    omega

/-- Whether a word is a NaN, an infinity or finite is read from its bits 62:0 (R116). -/
theorem isNaN_iff (x : F64) : isNaN x = true ↔ infBits < absBits x := by
  have hx := x.isLt
  simp only [isNaN, expo, frac, infBits, absBits, Bool.and_eq_true, beq_iff_eq, bne_iff_ne]
  omega

theorem isInf_iff (x : F64) : isInf x = true ↔ absBits x = infBits := by
  have hx := x.isLt
  simp only [isInf, expo, frac, infBits, absBits, Bool.and_eq_true, beq_iff_eq]
  omega

theorem finite_iff (x : F64) : finite x = true ↔ absBits x < infBits := by
  have hx := x.isLt
  simp only [finite, expo, infBits, absBits, bne_iff_ne]
  omega

/-! The kinds of word exclude each other. -/

theorem isNaN_of_isInf {x : F64} (h : isInf x = true) : isNaN x = false := by
  rw [isInf_iff] at h
  rw [Bool.eq_false_iff, Ne, isNaN_iff]; omega

theorem isNaN_of_finite {x : F64} (h : finite x = true) : isNaN x = false := by
  rw [finite_iff] at h
  rw [Bool.eq_false_iff, Ne, isNaN_iff]; omega

theorem isInf_of_finite {x : F64} (h : finite x = true) : isInf x = false := by
  rw [finite_iff] at h
  rw [Bool.eq_false_iff, Ne, isInf_iff]; omega

theorem finite_of_isZero {x : F64} (h : isZero x = true) : finite x = true := by
  simp only [isZero, beq_iff_eq] at h
  rw [finite_iff, h]; decide

theorem isZero_of_isInf {x : F64} (h : isInf x = true) : isZero x = false := by
  rw [isInf_iff] at h
  simp only [isZero, h]; decide

/-- The infinity and the zero of a sign. -/
@[simp] theorem isInf_pack (s : Bool) : isInf (pack s infBits) = true := by
  rw [isInf_iff, absBits_pack _ infBits_lt]

@[simp] theorem isZero_pack (s : Bool) : isZero (pack s 0) = true := by
  simp only [isZero, absBits_pack s (b := 0) (by decide)]; decide

/-- A NaN pattern, whatever the free word (R148). -/
theorem isNaN_someNaN (w : Word) : isNaN (someNaN w) = true := by
  have e : ∀ v : Word, expo (v ||| 0x7FF0000000000000) = 2047 := by
    intro v
    simp only [expo, BitVec.toNat_or, Nat.or_div_two_pow, Nat.or_mod_two_pow]
    have : v.toNat / 2 ^ 52 % 2 ^ 11 < 2 ^ 11 := Nat.mod_lt _ (by decide)
    generalize v.toNat / 2 ^ 52 % 2 ^ 11 = k at *
    rw [show (0x7FF0000000000000 : Word).toNat / 2 ^ 52 % 2 ^ 11 = 2 ^ 11 - 1 by decide]
    apply Nat.eq_of_testBit_eq
    intro i
    rw [Nat.testBit_or, show (2047 : Nat) = 2 ^ 11 - 1 by decide, Nat.testBit_two_pow_sub_one]
    by_cases h : i < 11
    · simp [h]
    · rw [Nat.testBit_lt_two_pow (lt_of_lt_of_le this (Nat.pow_le_pow_right (by decide) (by omega)))]; simp
  unfold someNaN
  simp only
  split
  · rename_i h
    have hc : w ||| 0x7FF0000000000000 ||| 0x0008000000000000 = (w ||| 0x0008000000000000) ||| 0x7FF0000000000000 := by
      rw [BitVec.or_assoc, BitVec.or_assoc]
      exact congrArg _ (BitVec.or_comm _ _)
    have hf : frac (w ||| 0x7FF0000000000000 ||| 0x0008000000000000) ≠ 0 := by
      unfold frac at *
      rw [BitVec.toNat_or, Nat.or_mod_two_pow, h]
      decide
    have he := e (w ||| 0x0008000000000000)
    rw [← hc] at he
    simp only [isNaN, he, beq_self_eq_true, Bool.true_and, bne_iff_ne, ne_eq]
    exact hf
  · rename_i h
    simp only [isNaN, e, beq_self_eq_true, Bool.true_and, bne_iff_ne, ne_eq]
    exact h

/-! Rounding. -/

/-- Rounding a quotient to an integer: within half a unit, a tie to the even neighbour (R11). -/
theorem roundHalfEven_spec (num : Nat) {den : Nat} (h : 0 < den) :
    2 * num ≤ 2 * (roundHalfEven num den * den) + den ∧ 2 * (roundHalfEven num den * den) ≤ 2 * num + den ∧
      (2 * num = 2 * (roundHalfEven num den * den) + den ∨ 2 * (roundHalfEven num den * den) = 2 * num + den →
        roundHalfEven num den % 2 = 0) := by
  have h1 := Nat.div_add_mod num den
  have h2 := Nat.mod_lt num h
  rw [Nat.mul_comm] at h1
  unfold roundHalfEven
  simp only
  split_ifs with h3 h4
  · rw [Nat.add_mul]; refine ⟨by omega, by omega, fun h => by omega⟩
  · rw [Nat.add_mul]; refine ⟨by omega, by omega, fun _ => by omega⟩
  · refine ⟨by omega, by omega, fun h => ?_⟩
    by_contra hn
    exact h4 ⟨by omega, by omega⟩

/-- A result is a finite word or an infinity, never a NaN (R148). -/
theorem roundBits_le (num den : Nat) : roundBits num den ≤ infBits := by unfold roundBits; exact Nat.min_le_right _ _

@[simp] theorem sign_round (s : Bool) (num den : Nat) : sign (round s num den) = s :=
  sign_pack s (lt_of_le_of_lt (roundBits_le num den) infBits_lt)

@[simp] theorem absBits_round (s : Bool) (num den : Nat) : absBits (round s num den) = roundBits num den :=
  absBits_pack s (lt_of_le_of_lt (roundBits_le num den) infBits_lt)

@[simp] theorem isNaN_round (s : Bool) (num den : Nat) : isNaN (round s num den) = false := by
  rw [Bool.eq_false_iff, ne_eq, isNaN_iff, absBits_round]
  have := roundBits_le num den
  omega

@[simp] theorem roundBits_zero (den : Nat) : roundBits 0 den = 0 := by
  simp [roundBits, lastPlace, roundHalfEven]

theorem isqrtFrom_spec (n : Nat) : ∀ b r, r * r ≤ n → n < (r + 2 ^ b) * (r + 2 ^ b) →
    isqrtFrom n b r * isqrtFrom n b r ≤ n ∧ n < (isqrtFrom n b r + 1) * (isqrtFrom n b r + 1) := by
  intro b
  induction b with
  | zero => intro r h1 h2; exact ⟨h1, h2⟩
  | succ b ih =>
    intro r h1 h2
    rw [isqrtFrom]
    split
    · rename_i h
      apply ih _ h
      rwa [Nat.add_assoc, ← Nat.two_mul, ← Nat.pow_succ']
    · exact ih _ h1 (by omega)

/-- The integer square root (R11). -/
theorem isqrt_spec (n : Nat) : isqrt n * isqrt n ≤ n ∧ n < (isqrt n + 1) * (isqrt n + 1) := by
  apply isqrtFrom_spec
  · omega
  · rw [Nat.zero_add, ← Nat.pow_add]
    refine Nat.lt_of_lt_of_le (Nat.lt_log2_self) (Nat.pow_le_pow_right (by decide) (by omega))

/-! Results that no free NaN enters. -/

/-- The product of two finite words does not depend on the NaNs of the command (log entry 7). -/
theorem mul_finite {x y : F64} (hx : finite x = true) (hy : finite y = true) (ν : Nat) :
    mul ν x y = round (sign x != sign y) (mag x * mag y) unit := by
  rw [finite_eq, Bool.and_eq_true, Bool.not_eq_true', Bool.not_eq_true'] at hx hy
  simp [mul, hx.1, hx.2, hy.1, hy.2]

/-- So does a quotient by a finite word other than zero. -/
theorem div_finite {x y : F64} (hx : finite x = true) (hy : finite y = true) (h0 : isZero y = false) (ν : Nat) :
    div ν x y = round (sign x != sign y) (mag x * unit) (mag y) := by
  rw [finite_eq, Bool.and_eq_true, Bool.not_eq_true', Bool.not_eq_true'] at hx hy
  simp [div, hx.1, hx.2, hy.1, hy.2, h0]

/-- The ordered comparison is by rank, where neither operand is a NaN (R14). -/
theorem gt_iff {x y : F64} (hx : isNaN x = false) (hy : isNaN y = false) : gt x y = true ↔ rank y < rank x := by
  simp only [gt, hx, hy, Bool.not_false, Bool.true_and, decide_eq_true_eq]

/-- The ordered comparison of a word with itself (R14). -/
@[simp] theorem gt_self (x : F64) : gt x x = false := by simp [gt]

end Sys2Proof.F64
end

