-- ==== Sys2Proof/Laws/PerInstr.lean ====
section
/-! SUPPORT. Statements made command by command: each is well formed, its bytes decode to it and to nothing left over, its
word is well formed, and its code fits the `OPC` field (R87, R110 to R112, R115). -/

namespace Sys2Proof.Laws.Encoding

/-- What holds of every command's encoding. -/
def Statement (i : Instr) : Prop :=
  i.wellFormed = true ∧ decodeBytes (encodeBytes i) = .ok (i, []) ∧ commandWordWellFormed (encode i) = true ∧
    decodeTableWord 64 (encode i).toNat = some i ∧ encode i = BitVec.ofNat 64 (opcode i).toNat

theorem nop : Statement .nop := ⟨rfl, rfl, rfl, rfl, rfl⟩
theorem genBpsk : Statement .genBpsk := ⟨rfl, rfl, rfl, rfl, rfl⟩
theorem genFsk : Statement .genFsk := ⟨rfl, rfl, rfl, rfl, rfl⟩
theorem addNoise : Statement .addNoise := ⟨rfl, rfl, rfl, rfl, rfl⟩
theorem demodBpsk : Statement .demodBpsk := ⟨rfl, rfl, rfl, rfl, rfl⟩
theorem demodFsk : Statement .demodFsk := ⟨rfl, rfl, rfl, rfl, rfl⟩
theorem run : Statement .run := ⟨rfl, rfl, rfl, rfl, rfl⟩
theorem softReset : Statement .softReset := ⟨rfl, rfl, rfl, rfl, rfl⟩

end Sys2Proof.Laws.Encoding
end

