-- ==== Sys2Proof/Laws/Step.lean ====
section
/-! SUPPORT. What a step can do, said once: which agent moved, and what it left behind. -/

namespace Sys2Proof.Machine

@[simp] theorem resetOf_conf (c : Conf) : (State.resetOf c).conf = c := rfl
@[simp] theorem resetOf_ctrl (c : Conf) : (State.resetOf c).ctrl = Ctrl.reset := rfl
@[simp] theorem resetOf_status (c : Conf) : (State.resetOf c).status = Status.reset := rfl
@[simp] theorem resetOf_par (c : Conf) : (State.resetOf c).par = Params.reset := rfl
@[simp] theorem resetOf_der (c : Conf) : (State.resetOf c).der = Derived.reset := rfl
@[simp] theorem resetOf_mem (c : Conf) : (State.resetOf c).mem = [] := rfl
@[simp] theorem resetOf_phase (c : Conf) : (State.resetOf c).phase = .idle := rfl
@[simp] theorem resetOf_inReset (c : Conf) : (State.resetOf c).inReset = false := rfl
@[simp] theorem resetOf_agenda (c : Conf) : (State.resetOf c).agenda = [] := rfl

/-- A physical access in the window is the transaction at its offset from `BASE` (R80). -/
theorem onBlock_in {c : Conf} {p : PhysAccess} (h : c.base ≤ p.addr ∧ p.addr < c.base + 2 ^ 24) :
    PhysAccess.onBlock c p = some { offset := BitVec.ofNat 24 (p.addr - c.base), width := p.width, dir := p.dir } := by
  simp only [PhysAccess.onBlock, offsetOf, if_pos h, Option.map_some]

/-- One outside it is none (R80). -/
theorem onBlock_out {c : Conf} {p : PhysAccess} (h : ¬(c.base ≤ p.addr ∧ p.addr < c.base + 2 ^ 24)) :
    PhysAccess.onBlock c p = none := by
  simp only [PhysAccess.onBlock, offsetOf, if_neg h, Option.map_none]

theorem hostTurn_cases {a : Access} {s t : State} (h : hostTurn a s = .next t) :
    s.inReset = false ∧ t = busAccess a s := by
  unfold hostTurn at h
  split at h
  · cases h
  · rename_i hr; cases h; exact ⟨by simpa using hr, rfl⟩

/-- What a turn can do when it answers a next state. -/
theorem turn_cases {x : Turn} {s t : State} (h : turn x s = .next t) :
    (∃ a, (x = .host a ∨ ∃ p, x = .bus p ∧ PhysAccess.onBlock s.conf p = some a) ∧ s.inReset = false ∧
        t = busAccess a s) ∨
      (∃ p, x = .bus p ∧ PhysAccess.onBlock s.conf p = none ∧ t = { s with response := .noAccess }) ∨
      (∃ w i, x = .command w ∧ s.inReset = false ∧ decodeWord w = .ok i ∧
        exec i { s with response := .done } = .next t) ∨
      (∃ w e, x = .command w ∧ s.inReset = false ∧ decodeWord w = .error e ∧
        t = rejectWord { s with response := .done }) ∨
      (x = .sequencer ∧ t = sequencerMove s) ∨ (x = .assertReset ∧ t = assertReset s) ∨
      (x = .releaseReset ∧ t = releaseReset s) := by
  cases x with
  | host a => exact .inl ⟨a, .inl rfl, hostTurn_cases h⟩
  | bus p =>
    simp only [turn, busTurn] at h
    split at h
    · rename_i a ha; exact .inl ⟨a, .inr ⟨p, rfl, ha⟩, hostTurn_cases h⟩
    · rename_i hn; cases h; exact .inr (.inl ⟨p, rfl, hn, rfl⟩)
  | command w =>
    simp only [turn] at h
    split at h
    · cases h
    · rename_i hr
      split at h
      · rename_i i hi; exact .inr (.inr (.inl ⟨w, i, rfl, by simpa using hr, hi, h⟩))
      · rename_i e he; cases h; exact .inr (.inr (.inr (.inl ⟨w, e, rfl, by simpa using hr, he, rfl⟩)))
  | sequencer => cases h; simp
  | assertReset => cases h; simp
  | releaseReset => cases h; simp

/-- What a step can do when it answers a next state: the sequencer's move on an empty agenda, or the next turn. -/
theorem step_cases {s t : State} (h : step s = .next t) :
    (s.agenda = [] ∧ t = sequencerMove s) ∨
      ∃ x rest, s.agenda = x :: rest ∧ turn x { s with agenda := rest } = .next t := by
  unfold step at h
  split at h
  · rename_i ha; cases h; exact .inl ⟨ha, rfl⟩
  · rename_i x rest ha; exact .inr ⟨x, rest, ha, h⟩

/-- A step on a non-empty agenda takes its first turn. -/
theorem step_cons {s : State} {x : Turn} {rest : List Turn} (h : s.agenda = x :: rest) :
    step s = turn x { s with agenda := rest } := by
  unfold step; simp only [h]

/-- Every command answers a next state. -/
theorem exec_next (i : Instr) (s : State) : ∃ t, exec i s = .next t := by cases i <;> exact ⟨_, rfl⟩

/-- An abort leaves the sequencer idle, and changes nothing but buffers and counters beside (R341). -/
theorem abort_keeps (s : State) :
    (abort s).phase = .idle ∧ (abort s).conf = s.conf ∧ (abort s).ctrl = s.ctrl ∧ (abort s).status = s.status ∧
      (abort s).par = s.par ∧ (abort s).der = s.der ∧ (abort s).inReset = s.inReset ∧ (abort s).agenda = s.agenda ∧
      (abort s).response = s.response := by
  unfold abort
  split
  · rename_i h; simp [h]
  · rename_i m h
    have hf : maybeFallback m s = { s with mem := (maybeFallback m s).mem } := by
      unfold maybeFallback; split
      · exact fill_eq _ _ _ _
      · rfl
    simp only
    rw [scramble_eq, hf]
    simp

/-- An abort keeps the canonical form of memory. -/
theorem wf_abort {s : State} (h : Memory.wf s.mem = true) : Memory.wf (abort s).mem = true := by
  unfold abort
  split
  · exact h
  · apply wf_scramble
    unfold maybeFallback
    split
    · exact wf_fill _ _ _ h
    · exact h

end Sys2Proof.Machine
end

