-- ==== Sys2Proof/Tests/Slice0.lean ====
section
/-! SUPPORT. The model's own tests. Expected values are those of spec/95_test_vectors.md that hold for every instance of
the configuration functions (its "exact" ones), of the spec's encodings, or hand calculations from the rules named. Then one
witness for the hypotheses of each obligation. -/

namespace Sys2Proof.Tests

open Sys2Proof.Machine

-- one test at a time: in parallel the kernel's evaluations fill the memory
set_option Elab.async false

/-! Smoke: what the well-formedness checks refuse. -/

/-- R115: no command is ill formed. -/
theorem test_wf_every_command : ([.nop, .genBpsk, .genFsk, .addNoise, .demodBpsk, .demodFsk, .run, .softReset].all
    Instr.wellFormed) = true := by decide

/-- R110, R111: `MBZ` not zero; a code above 7. -/
theorem test_wf_word_mbz : commandWordWellFormed 0x0000000000000107 = false := by decide
theorem test_wf_word_code : commandWordWellFormed 0x0000000000000008 = false := by decide

/-- R85, R86, vector M12: a 4-byte access; an offset that is no multiple of 8. -/
theorem test_wf_access_width : Access.wellFormed { offset := 0x018, width := 4, dir := .read } = false := by decide
theorem test_wf_access_misaligned : Access.wellFormed { offset := 0x01C, width := 8, dir := .read } = false := by decide

/-- R118: a literal with no denominator; an entry outside its window; a misaligned offset; too many bits. -/
theorem test_wf_literal : Literal.wellFormed (.f64 false 1 0) = false := by decide
theorem test_wf_place_entry : Place.wellFormed (.entry .rx 65536) = false := by decide
theorem test_wf_place_offset : Place.wellFormed (.off 0x01C) = false := by decide
theorem test_wf_line_write : HostLine.wellFormed (.w (.reg .amp) (.f64 false 1 0)) = false := by decide
theorem test_wf_line_read : HostLine.wellFormed (.r (.off 0x001)) = false := by decide
theorem test_wf_line_bits : HostLine.wellFormed (.loadBits (List.replicate 65537 true)) = false := by
  simp only [HostLine.wellFormed, List.length_replicate]; decide
theorem test_wf_line_ok : (HostLine.wellFormed (.cmd .run) && HostLine.wellFormed (.wait 3) && HostLine.wellFormed .clr
    && HostLine.wellFormed (.w (.entry .bits 4095) (.int 1))) = true := by decide

/-! Decoding: the words of R111, written out, as bytes from the lowest offset (R87). -/

theorem test_decode_nop : decodeBytes [0x00, 0, 0, 0, 0, 0, 0, 0] = .ok (.nop, []) := by decide
theorem test_decode_genBpsk : decodeBytes [0x01, 0, 0, 0, 0, 0, 0, 0] = .ok (.genBpsk, []) := by decide
theorem test_decode_genFsk : decodeBytes [0x02, 0, 0, 0, 0, 0, 0, 0] = .ok (.genFsk, []) := by decide
theorem test_decode_addNoise : decodeBytes [0x03, 0, 0, 0, 0, 0, 0, 0] = .ok (.addNoise, []) := by decide
theorem test_decode_demodBpsk : decodeBytes [0x04, 0, 0, 0, 0, 0, 0, 0] = .ok (.demodBpsk, []) := by decide
theorem test_decode_demodFsk : decodeBytes [0x05, 0, 0, 0, 0, 0, 0, 0] = .ok (.demodFsk, []) := by decide
theorem test_decode_run : decodeBytes [0x06, 0, 0, 0, 0, 0, 0, 0] = .ok (.run, []) := by decide
theorem test_decode_softReset : decodeBytes [0x07, 0, 0, 0, 0, 0, 0, 0] = .ok (.softReset, []) := by decide

/-- Vectors M1, M2, M3: a code above 7; `MBZ` not zero, in its lowest and in its highest byte. -/
theorem test_decode_illegal_code : decodeBytes [0x08, 0, 0, 0, 0, 0, 0, 0] = .error .illegalCode := by decide
theorem test_decode_illegal_mbz : decodeBytes [0x07, 0x01, 0, 0, 0, 0, 0, 0] = .error .mbzNonzero := by decide
theorem test_decode_illegal_top : decodeBytes [0x01, 0, 0, 0, 0, 0, 0, 0x80] = .error .mbzNonzero := by decide
theorem test_decode_truncated : decodeBytes [0x01, 0, 0, 0, 0, 0, 0] = .error .truncated := by decide
theorem test_encode_run : encode .run = 0x0000000000000006 := by decide
theorem test_table_word : decodeTableWord 64 5 = some .demodFsk ∧ decodeTableWord 64 8 = none := by decide

/-! binary64: IEEE 754 results calculated by hand. -/

/-- 0.1 + 0.2 = 0.30000000000000004; 1 + 2^-53 is a tie and goes to even. -/
theorem test_f64_add : F64.add 0 0x3FB999999999999A 0x3FC999999999999A = 0x3FD3333333333334 ∧
    F64.add 0 F64.one 0x3CA0000000000000 = F64.one := by decide +kernel

/-- The largest number doubled is +Infinity; the smallest subnormal halved is a tie and goes to zero. -/
theorem test_f64_mul : F64.mul 0 0x7FEFFFFFFFFFFFFF 0x4000000000000000 = F64.posInf ∧
    F64.mul 0 0x0000000000000001 0x3FE0000000000000 = F64.zero := by decide +kernel

/-- 1 / 3, -1 / 0 = -Infinity, and -1 / +Infinity = -0.0. -/
theorem test_f64_div : F64.div 0 F64.one 0x4008000000000000 = 0x3FD5555555555555 ∧
    F64.div 0 F64.negOne F64.zero = 0xFFF0000000000000 ∧
    F64.div 0 F64.negOne F64.posInf = 0x8000000000000000 := by decide +kernel

/-- sqrt 2, and sqrt of -0.0 is -0.0. -/
theorem test_f64_sqrt : F64.sqrt 0 0x4000000000000000 = 0x3FF6A09E667F3BCD ∧
    F64.sqrt 0 0x8000000000000000 = 0x8000000000000000 := by decide +kernel

/-- The floors of 1.5, -1.5 and -0.0 are 1, -2 and 0. -/
theorem test_f64_floor : F64.floor 0x3FF8000000000000 = 1 ∧ F64.floor 0xBFF8000000000000 = -2 ∧
    F64.floor 0x8000000000000000 = 0 := by decide +kernel

/-- `DUR_MIN` and `FS_MIN` are the binary64 nearest to 0.001 and 100 (R7), `TWO_PI` to 6.283185307179586 (R12). -/
theorem test_f64_constants : F64.ofDecimal false 1 1000 = durMin ∧ F64.ofDecimal false 100 1 = fsMin ∧
    F64.ofDecimal false 6283185307179586 (10 ^ 15) = twoPi := by decide +kernel

/-! Commands on small states. -/

/-- Bits in `BITS` and their count in `NBITS`. -/
def loaded (bits : List Bool) (s : State) : State :=
  let s1 := fill .bits (fun b => bitWord (bits.getD b false)) bits.length s
  { s1 with par := { s1.par with nbits := BitVec.ofNat 64 bits.length } }

/-- Parameters over the reset state: amplitude, sample rate, duration, each a quotient. -/
def params (amp fs dur : Nat × Nat) (s : State) : State :=
  { s with
    par :=
      { s.par with
        amp := F64.ofDecimal false amp.1 amp.2
        fs := F64.ofDecimal false fs.1 fs.2
        duration := F64.ofDecimal false dur.1 dur.2 } }

/-- The state after a command, or the state itself if it stops. -/
def after (i : Instr) (s : State) : State :=
  match exec i s with
  | .next t => t
  | .fault _ => s
  | .refused _ => s

/-- The first `n` entries of a buffer. -/
def entries (s : State) (b : Buf) (n : Nat) : List Word := (List.range n).map (entry s b)

/-- The start state of vectors A1 to A5: `[1,0]` on two samples, `FC = 0`; the amplitude is 2. -/
def a1 : State := loaded [true, false] (params (2, 1) (100, 1) (2, 100) State.reset)

/-- A valid grid with `SPB` = 2 on the received signal given, its carriers all at 0 Hz, its instants 0. -/
def received (rx : List Word) : State :=
  let s := fill .t (fun _ => 0) rx.length (fill .rx (fun i => rx.getD i 0) rx.length State.reset)
  { s with
    der := { s.der with n := BitVec.ofNat 64 rx.length, spb := 2, ndec := BitVec.ofNat 64 (rx.length / 2) }
    status := { s.status with genValid := true } }

/-- 2.0, -2.0, 3.0 and 4.0. -/
def two : Word := 0x4000000000000000
def negTwo : Word := 0xC000000000000000
def three : Word := 0x4008000000000000
def four : Word := 0x4010000000000000

/-- Vector A1 with `AMP` = 2 (exact): `MOD = [2,-2]`, `CAR = [1,1]`, `STATUS` = 0x02 (R160 to R163). -/
theorem test_genBpsk_a1 :
    (let t := after .genBpsk a1
     decide (entries t .mod 2 = [two, negTwo]) && decide (entries t .car 2 = [F64.one, F64.one])
      && decide (regValue t .status = 0x02) && decide (regValue t .ampEff = two)) = true := by
  decide +kernel

/-- Vector G8 and B2 (exact): `N < NB`, so bits 3 and 4 own no sample. -/
theorem test_genBpsk_b2 :
    (let t := after .genBpsk (loaded [true, false, true, true, false] (params (3, 1) (100, 1) (3, 100) State.reset))
     decide (entries t .mod 3 = [three, 0xC008000000000000, three])
      && decide ((regValue t .n, regValue t .spb, regValue t .ndec) = ((3, 1, 3) : Word × Word × Word))) = true := by
  decide +kernel

/-- Vector K3 (exact): every sample starts its bit, so each carrier sample is 1, whatever the tones; `STATUS` = 0x06. -/
theorem test_genFsk_k3 :
    (let s := loaded [true, false, true, true, false] (params (3, 1) (100, 1) (3, 100) State.reset)
     let t := after .genFsk { s with par := { s.par with f0 := 0x4024000000000000, f1 := 0x4034000000000000 } }
     decide (entries t .car 3 = [F64.one, F64.one, F64.one]) && decide (entries t .mod 3 = [three, three, three])
      && decide (entries t .bb 3 = [three, 0xC008000000000000, three]) && decide (regValue t .status = 0x06)) = true := by
  decide +kernel

/-- Trailing samples copy the last computed one (R184): `[0,1]` on 5 samples, both tones 0; sample 4 is sample 3's. -/
theorem test_genFsk_trailing :
    (let t := after .genFsk (loaded [false, true] (params (2, 1) (100, 1) (5, 100) State.reset))
     decide (entries t .bb 5 = [negTwo, negTwo, two, two, two]) && decide (regValue t .ndec = 2)) = true := by
  decide +kernel

/-- Vector N1 (exact): no noise; `RX = MOD`, `NOISY` 0. -/
theorem test_addNoise_n1 :
    (let t := after .addNoise (fill .mod (fun _ => two) 3 (received [0, 0, 0]))
     decide (entries t .rx 3 = [two, two, two]) && decide (regValue t .status = 0x02) && decide (t.fresh.draws = 0)) =
      true := by
  decide +kernel

/-- Vector N2 (exact part): power 4 and `SNR_DB = 0` give `PSIG` = 4 and `SIGMA` = 2, and 2 * N draws, whatever they
are. -/
theorem test_addNoise_n2 :
    (let g := fill .mod (fun _ => two) 2 (received [0, 0])
     let t := after .addNoise { g with par := { g.par with snrDb := 0 } }
     decide (regValue t .psig = four) && decide (regValue t .sigma = two) && decide (t.fresh.draws = 4)
      && t.status.noisy) = true := by
  decide +kernel

/-- Vector D1 cut to five samples (exact): `FILT`, `DEC` and `RECON`, its trailing sample included; `STATUS` = 0x12. -/
theorem test_demodBpsk_d1 :
    (let t := after .demodBpsk (received [two, two, negTwo, negTwo, two])
     decide (entries t .filt 5 = [two, two, 0, negTwo, 0]) && decide (entries t .dec 2 = [1, 0])
      && decide (entries t .recon 5 = [F64.one, F64.one, F64.negOne, F64.negOne, F64.negOne])
      && decide (regValue t .status = 0x12)) = true := by
  decide +kernel

/-- Vector D4 cut to four samples (exact): statistics 1.75 and -0.25 under `INTERVAL_AVERAGE`; D3's rule decides 1, 1. -/
theorem test_demodBpsk_d4 :
    (let s := received [three, negTwo, 0xBFF8000000000000, four]
     decide (entries (after .demodBpsk { s with ctrl := { s.ctrl with policy := .intervalAverage } }) .dec 2 = [1, 0]))
      = true := by
  decide +kernel

/-- Vector F7: equal tones (both 0 here) tie, and a tie decides 0; `STATUS` = 0x32. -/
theorem test_demodFsk_f7 :
    (let t := after .demodFsk (received [two, two, negTwo, negTwo])
     decide (entries t .e0 2 = [four, 0xC010000000000000]) && decide (entries t .e1 2 = [four, 0xC010000000000000])
      && decide (entries t .dec 2 = [0, 0]) && decide (regValue t .status = 0x32)) = true := by
  decide +kernel

/-- Program P5: `RUN` straight from reset uses the fallback and clamps: `NBITS` = 4, `N` = 1, `STATUS` = 0x52. -/
theorem test_run_p5 :
    (let t := after .run State.reset
     decide (entries t .bits 4 = [1, 0, 1, 0]) && decide (regValue t .nbits = 4) && decide (regValue t .n = 1)
      && decide (entries t .dec 1 = [1]) && decide (regValue t .status = 0x52)) = true := by
  decide +kernel

/-- Vectors G10 and G11: `ERR_SIZE` and no other effect. -/
theorem test_run_g11 :
    (let s := { a1 with par := { a1.par with fs := F64.posInf } }
     let r := { a1 with par := { a1.par with fs := F64.ofNat 65537, duration := F64.one } }
     decide (after .run s = { s with status := { s.status with err := .size } })
      && decide (after .genFsk r = { r with status := { r.status with err := .size } })) = true := by
  decide +kernel

/-- Vectors M18 and N6. -/
theorem test_nop_m18 : exec .nop State.reset = .next State.reset := rfl
theorem test_addNoise_n6 : regValue (after .addNoise State.reset) .status = 0x0300 := by decide +kernel

/-- Vector M10: `SOFT_RESET` while busy aborts the command and resets every register. -/
theorem test_softReset_m10 :
    (let t := after .softReset { a1 with phase := .busy .demodFsk }
     decide (regValue t .status = 0) && decide (regValue t .nbits = 0) && decide (t.phase = .idle)
      && decide (t.mem = a1.mem)) = true := by
  decide +kernel

/-- Vectors G1 and G7 (exact): `p` = 7.000000000000001 gives `N` = 7, `p` = 1.5 gives `N` = 1. -/
theorem test_grid_g1_g7 :
    (let s := params (2, 1) (100, 1) (7, 100) State.reset
     let t := params (2, 1) (150, 1) (1, 100) State.reset
     decide (gridProduct s = 0x401C000000000001) && decide (gridSamples s = 7) && decide (gridSamples t = 1)) = true := by
  decide +kernel

/-! Bus. -/

/-- One access to the reset state, and the `STATUS` it leaves. -/
def statusAfter (a : Access) (s : State) : Word := regValue (busAccess a s) .status

/-- Vectors M1, M5, M15 and M16 (idle). -/
theorem test_bus_m1 : statusAfter (writeAt 0x010 0x08) State.reset = 0x0100 := by decide +kernel
theorem test_bus_m5 : statusAfter (writeAt 0x060 4097) State.reset = 0x0500 := by decide +kernel
theorem test_bus_m15 : regValue (busAccess (writeAt 0x008 0xF) State.reset) .ctrl = 0x3 := by decide +kernel
theorem test_bus_m16 : regValue (busAccess (writeAt 0x008 0xFFFFFFFFFFFFFFF5) State.reset) .ctrl = 0x5 := by
  decide +kernel

/-- Vectors M7 and M9 (busy). -/
theorem test_bus_m7 : statusAfter (writeAt 0x010 0x08) { State.reset with phase := .busy .nop } = 0x0201 := by
  decide +kernel
theorem test_bus_m9 : statusAfter (writeAt 0x018 0)
    { State.reset with phase := .busy .nop, status := { Status.reset with err := .busy, clamp := true } } = 0x0001 := by
  decide +kernel

/-- Vectors M12, M13, M14 and M17. -/
theorem test_bus_m12 : (busAccess { offset := 0x01C, width := 8, dir := .read } State.reset).response = .busError 0x01C := by
  decide +kernel
theorem test_bus_m13 : (busAccess (readAt (0x100000 + 8 * 4096)) State.reset).response = .data 0 := by decide +kernel
theorem test_bus_m14 : (busAccess (readAt 0x000) State.reset).response = .data 0x314B53464B535042 := by decide +kernel
theorem test_bus_m17 : (busAccess (readAt 0x100000) (busAccess (writeAt 0x100000 0xFFFF) State.reset)).response = .data 1 := by
  decide +kernel

/-- R276, R305: the `SOFT_RESET` word on the bus, while a command runs. -/
theorem test_bus_softReset :
    (let t := busAccess (writeAt 0x010 7) { a1 with phase := .busy .demodFsk }
     decide (t.phase = .idle) && decide (t.status = Status.reset) && decide (t.par = Params.reset)) = true := by
  decide +kernel

/-- R38, R39: `BITRATE` alone in `CTRL`, and `INTERVAL_AVERAGE` alone. -/
theorem test_bus_ctrlFields :
    (busAccess (writeAt 0x008 0x2) State.reset).ctrl = { Ctrl.reset with timebase := .bitrate } ∧
      (busAccess (writeAt 0x008 0x8) State.reset).ctrl = { Ctrl.reset with policy := .intervalAverage } := by
  decide +kernel

/-- A read of `STATUS` while a command runs shows `BUSY` (R351). -/
theorem test_bus_poll : (busAccess (readAt 0x018) { State.reset with phase := .busy .nop }).response = .data 1 := by
  decide +kernel

/-- R351, R302: a noise command or a demodulation that has no grid writes `ERR`, so `ERR` (bits 15:8) is in flight; with a
grid it is not. -/
theorem test_bus_errInFlight :
    (let s : State := { State.reset with phase := .busy .addNoise }
     decide (statusInFlight .addNoise s = 0xFF18) && decide (statusInFlight .demodFsk s = 0xFF70)
      && decide (statusInFlight .addNoise (received [0, 0]) = 0x0018)) = true := by decide +kernel

/-- R351, R232, R259: on `a1` (two bits, two samples) `RUN` under BPSK writes `DEC[0..1]` and no entry of `DEC` beyond, and
no `E0`. -/
theorem test_bus_runInFlight :
    (entryInFlight .run a1 .dec 1 && !entryInFlight .run a1 .dec 2 && entryInFlight .run a1 .filt 1
      && !entryInFlight .run a1 .filt 2 && !entryInFlight .run a1 .e0 0) = true := by decide +kernel

/-! Steps and host programs. -/

/-- A machine whose window stands at 0x4000_0000, with one physical read next. -/
def atBase (addr : Nat) (s : State) : State :=
  { s with conf := { s.conf with base := 0x40000000 }, agenda := [.bus { addr := addr, width := 8, dir := .read }] }

/-- The answer of a step. -/
def answer (s : State) : Option Response :=
  match step s with
  | .next t => some t.response
  | .fault _ => none
  | .refused _ => none

/-- R80: the first offset of the window is `ID`, the last aligned one is unmapped, and beyond both ends nothing answers. -/
theorem test_step_base :
    answer (atBase 0x40000000 State.reset) = some (.data 0x314B53464B535042) ∧
      answer (atBase 0x40FFFFF8 State.reset) = some (.data 0) ∧
      answer (atBase 0x3FFFFFF8 State.reset) = some .noAccess ∧
      answer (atBase 0x41000000 State.reset) = some .noAccess := by decide +kernel

/-- The word placed by `withFetchWord` is what the next step runs: `DEMOD_BPSK` from reset, vector M4. -/
theorem test_step_withFetchWord :
    (match step (State.reset.withFetchWord 64 4) with
     | .next t => decide (regValue t .status = 0x0300) && decide (t.agenda = [])
     | .fault _ => false
     | .refused _ => false) = true := by decide +kernel

/-- Vector M19: the second of two commands is rejected, the first completes. -/
theorem test_step_m19 :
    (match Sys2Proof.core.run 3
        { State.reset with agenda := expand [.cmd .nop, .cmd .genBpsk] ++ [.sequencer] } with
     | .next t => decide (regValue t .status = 0x0200) && decide (t.phase = .idle)
     | .fault _ => false
     | .refused _ => false) = true := by decide +kernel

/-- R340: a host access while the reset input is asserted is refused. -/
theorem test_step_accessInReset :
    step { State.reset with inReset := true, agenda := [.host (readAt 0)] } = .refused .accessInReset := rfl

/-- R118: `f:0.1` is the nearest binary64; `LOAD_BITS` writes `NBITS` and then the entries. -/
theorem test_expand_literal : literalWord (.f64 false 1 10) = 0x3FB999999999999A := by decide +kernel
theorem test_expand_loadBits :
    expand [.loadBits [true, false]] =
      [.host (memWrite 0x060 2), .host (memWrite 0x100000 1), .host (memWrite 0x100008 0)] := by decide +kernel

/-! Witnesses: for each obligation with hypotheses, a concrete state and operands that meet all of them together; where it has
several clauses, one for each, at the ends of its range. -/

theorem inv_a1 : a1.Inv := by constructor <;> decide +kernel

theorem mapped_a1 : a1.MemoryMapped := by
  have h : ∀ c ∈ a1.mem, 0x100000 ≤ c.1 ∧ c.1 < 0x100010 := by decide +kernel
  intro c hc
  have := h c hc
  refine ⟨.bits, (c.1 - 0x100000) / 8, ?_, ?_, ?_⟩
  · show (c.1 - 0x100000) / 8 < 4096; omega
  · show 0x100000 + 8 * ((c.1 - 0x100000) / 8) ≤ c.1; omega
  · show c.1 < 0x100000 + 8 * ((c.1 - 0x100000) / 8) + 8; omega

/-- A valid grid of five samples, two per bit. -/
def grid5 : State := received [two, two, negTwo, negTwo, two]

theorem inv_grid5 : grid5.Inv := by constructor <;> decide +kernel

/-- A command running on that grid. -/
def busy5 (m : Instr) : State := { grid5 with phase := .busy m }

theorem inv_busy5 : (busy5 .addNoise).Inv := by constructor <;> decide +kernel

/-- What the grid prologue answers on `a1`, on the reset state (fallback, `N < NB`) and from a bit rate. -/
theorem grid_a1 : (grid a1).isSome = true ∧ a1.ctrl.timebase = .duration := by decide +kernel

theorem test_witness_CommandWordsOfTheOpcodeMap : decodeWord 0x0000000000000006 = .ok .run := by decide

theorem test_witness_WordDecodesOnlyToItsCommand :
    decodeWord 0x0000000000000007 = .ok .softReset ∧ encode .softReset = 0x0000000000000007 := by decide

theorem test_witness_BytesDecodeExactlyAsEncoded :
    decodeBytes [0x06, 0, 0, 0, 0, 0, 0, 0, 0xFF] = .ok (.run, [0xFF]) := by decide

theorem test_witness_IllegalWordsRaiseIllegalCmd :
    Ready State.reset ∧ (0x0000000000000108 : Word).toNat / 256 ≠ 0 ∧ 7 < (0x0000000000000008 : Word).toNat % 256 ∧
      (0x0000000000000007 : Word).toNat / 256 = 0 ∧ (0x0000000000000007 : Word).toNat % 256 ≤ 7 :=
  ⟨⟨rfl, rfl⟩, by decide, by decide, by decide, by decide⟩

theorem test_witness_StepRunsTheDecodedCommand :
    (let s : State := { State.reset with agenda := [.command 6, .sequencer] }
     s.agenda = .command 6 :: [.sequencer] ∧ s.inReset = false ∧ decodeWord 6 = .ok .run) ∧
      decodeTableWord 64 7 = some .softReset ∧
      (let s : State := { State.reset with agenda := [.command 0x108] }
       s.agenda = .command 0x108 :: [] ∧ s.inReset = false ∧ (0x108 : Word).toNat / 256 ≠ 0 ∧ s.phase = .idle) ∧
      (let s : State := { busy5 .run with agenda := [.command 8] }
       s.agenda = .command 8 :: [] ∧ s.inReset = false ∧ 7 < (8 : Word).toNat % 256 ∧ s.phase = .busy .run) :=
  ⟨⟨rfl, rfl, by decide⟩, by decide, ⟨rfl, rfl, by decide, rfl⟩, rfl, rfl, by decide, rfl⟩

/-- Both sides of the equivalence occur: see also `test_step_accessInReset`. At the ends of the window, and beyond them. -/
theorem test_witness_StepStopsOnlyForAccessInReset :
    step { State.reset with inReset := true, agenda := [.command 0] } = .refused .accessInReset ∧
      step State.reset = .next State.reset ∧
      step { atBase 0x40000000 State.reset with inReset := true } = .refused .accessInReset ∧
      step { atBase 0x40FFFFFF State.reset with inReset := true } = .refused .accessInReset ∧
      ∀ a ∈ [0x3FFFFFFF, 0x41000000],
        answer { atBase a State.reset with inReset := true } = some .noAccess :=
  ⟨rfl, rfl, rfl, rfl, by decide +kernel⟩

theorem test_witness_OneTransitionEqualsAcceptThenComplete :
    Ready a1 ∧ decodeWord 6 = .ok .run ∧ Runs .run := ⟨⟨rfl, rfl⟩, by decide, by simp [Runs]⟩

theorem test_witness_CommandThenWaitEqualsTheCommand : Ready a1 ∧ Runs .demodBpsk := ⟨⟨rfl, rfl⟩, by simp [Runs]⟩

theorem test_witness_RunningCommandEnds :
    (busy5 .addNoise).phase = .busy .addNoise ∧ (busy5 .addNoise).inReset = false := ⟨rfl, rfl⟩

/-- The ends of the ranges of R8, at another `BASE`. -/
theorem test_witness_ResetStateIsLegal :
    Conf.legal { base := 0x40000000, maxSamples := 1000, maxBits := 4 } = true ∧
      Conf.legal { base := 0, maxSamples := 65536, maxBits := 65535 } = true := by decide

theorem test_witness_StepKeepsTheInvariant : a1.Inv ∧ step a1 = .next a1 := ⟨inv_a1, rfl⟩

theorem test_witness_StepKeepsMemoryInsideBuffers : a1.Inv ∧ a1.MemoryMapped ∧ step a1 = .next a1 :=
  ⟨inv_a1, mapped_a1, rfl⟩

theorem test_witness_SoftResetKeepsBuffersWhenIdle : a1.phase = .idle ∧ a1.mem ≠ [] := ⟨rfl, by decide +kernel⟩

theorem test_witness_AbortTouchesOnlyTheCommandsEntries :
    (busy5 .addNoise).Inv ∧ (busy5 .addNoise).phase = .busy .addNoise ∧
      bufferWrites .addNoise (busy5 .addNoise) = [(.rx, 5)] := ⟨inv_busy5, rfl, by decide +kernel⟩

theorem test_witness_HardwareResetSequence :
    ({ a1 with agenda := [.assertReset, .releaseReset] } : State).agenda = .assertReset :: .releaseReset :: [] := rfl

theorem test_witness_ParameterWriteReadsBackVerbatim : Ready a1 ∧ IsParameter .amp ∧ IsParameter .snrDb ∧ Reg.fs ≠ .amp :=
  ⟨⟨rfl, rfl⟩, .inl rfl, by simp [IsParameter], by decide⟩

theorem test_witness_CtrlIsWriteAnyReadLegal : Ready a1 := ⟨rfl, rfl⟩

theorem test_witness_NbitsWriteIsRangeChecked :
    Ready a1 ∧ (4096 : Word).toNat ≤ a1.conf.maxBits ∧ a1.conf.maxBits < (4097 : Word).toNat :=
  ⟨⟨rfl, rfl⟩, by decide, by decide⟩

theorem test_witness_StatusWriteClearsErrAndClamp :
    (let s : State := { busy5 .demodBpsk with par := { grid5.par with fc := F64.posInf } }
     s.phase = .busy .demodBpsk ∧ substitutes .demodBpsk s = true) := ⟨rfl, by decide +kernel⟩

theorem test_witness_BufferEntryWriteReadsBack :
    a1.Inv ∧ Ready a1 ∧ IsRwBuffer .bits ∧ IsRwBuffer .rx ∧ 4095 < capacity a1.conf .bits ∧
      65535 < capacity a1.conf .rx := ⟨inv_a1, ⟨rfl, rfl⟩, .inl rfl, .inr rfl, by decide, by decide⟩

theorem test_witness_EntryBytesAreLittleEndian : Ready a1 ∧ 65535 < capacity a1.conf .rx := ⟨⟨rfl, rfl⟩, by decide⟩

/-- Both ends of each range of R84, and the first and last entry beyond the capacity of `BITS` and of `MARK`; both ends of
the window at `BASE`, and the addresses beside them. -/
theorem test_witness_UnmappedOffsetsReadZero :
    (∀ o ∈ [0x0A8, 0x0F8, 0x100, 0x0FFFF8, 0x800000, 0xFFFFF8], o % 8 = 0 ∧ UnmappedOffset a1.conf o) ∧
      (∀ o ∈ [entryAddr .bits 4096, entryAddr .bits 65535, entryAddr .mark 4097], o % 8 = 0 ∧ UnmappedOffset a1.conf o) ∧
      (atBase 0x40FFFFFF a1).agenda = [.bus { addr := 0x40FFFFFF, width := 8, dir := .read }] ∧
      0x40FFFFFF = (atBase 0x40FFFFFF a1).conf.base + 0xFFFFFF ∧ 0x40000000 = (atBase 0x40000000 a1).conf.base + 0 ∧
      0x3FFFFFFF < (atBase 0x3FFFFFFF a1).conf.base ∧ (atBase 0x41000000 a1).conf.base + 2 ^ 24 ≤ 0x41000000 := by
  refine ⟨?_, ?_, rfl, rfl, rfl, by decide, by decide⟩
  · intro o ho
    simp only [List.mem_cons, List.not_mem_nil, or_false] at ho
    rcases ho with rfl | rfl | rfl | rfl | rfl | rfl <;> simp [UnmappedOffset]
  · intro o ho
    simp only [List.mem_cons, List.not_mem_nil, or_false] at ho
    rcases ho with rfl | rfl | rfl
    · exact ⟨by decide, .inr (.inr (.inr ⟨.bits, 4096, by decide, by decide, rfl⟩))⟩
    · exact ⟨by decide, .inr (.inr (.inr ⟨.bits, 65535, by decide, by decide, rfl⟩))⟩
    · exact ⟨by decide, .inr (.inr (.inr ⟨.mark, 4097, by decide, by decide, rfl⟩))⟩

theorem test_witness_ReadOnlyWritesAreIgnored : IsRoRegister .id ∧ IsRoRegister .sigma ∧ ¬IsRwBuffer .mark :=
  ⟨.inl rfl, by simp [IsRoRegister], by simp [IsRwBuffer]⟩

theorem test_witness_MalformedAccessIsBusError :
    (4 : Nat) ≠ 8 ∧ (0x01C : Offset).toNat % 8 ≠ 0 ∧ (0xFFFFFF : Offset).toNat % 8 ≠ 0 := by decide

theorem test_witness_WritesWhileBusyAreRejected :
    (busy5 .addNoise).phase = .busy .addNoise ∧ IsRwRegister .ctrl ∧ IsRwRegister .nbits ∧ IsRwRegister .snrDb ∧
      IsRwBuffer .bits ∧ 4095 < capacity (busy5 .addNoise).conf .bits ∧ (0x0000000000000008 : Word) ≠ 7 ∧
      IsRoRegister .n ∧ ¬IsRwBuffer .dec :=
  ⟨rfl, by simp [IsRwRegister], by simp [IsRwRegister], by simp [IsRwRegister, IsParameter], .inl rfl, by decide, by decide,
    by simp [IsRoRegister], by simp [IsRwBuffer]⟩

/-- While idle: the first and last register, and the entries at the ends of a window and of a buffer's capacity. While
`ADD_NOISE` runs: a register it does not write, `STATUS`, an unmapped offset, and the entries of `RX` about `N`. -/
theorem test_witness_ReadsInEveryPhase :
    (a1.phase = .idle ∧ (0x000, Reg.id) ∈ registerTable ∧ (0x0A0, Reg.sigma) ∈ registerTable ∧
      (0x100000, Buf.bits) ∈ windowTable ∧ (0x780000, Buf.mark) ∈ windowTable ∧ capacity a1.conf .bits = 4096 ∧
      capacity a1.conf .mark = 4097) ∧
    (let s := busy5 .addNoise
     s.phase = .busy .addNoise ∧ (readAt 0x068).wellFormed = true ∧ targetOf s.conf 0x068 = .reg .n ∧
       regInFlight .addNoise s .n = false ∧ targetOf s.conf 0x018 = .reg .status ∧ targetOf s.conf 0x800000 = .unmapped ∧
       targetOf s.conf (0x380000 + 8 * 5) = .entry .rx 5 ∧ entryInFlight .addNoise s .rx 5 = false ∧
       entryInFlight .addNoise s .rx 4 = true) := by decide +kernel

/-- Its clause on the completion step: a legal state in which a command runs. -/
theorem test_witness_ReadsInEveryPhase_completion :
    (busy5 .addNoise).Inv ∧ (busy5 .addNoise).phase = .busy .addNoise := ⟨inv_busy5, rfl⟩

theorem test_witness_RunningCommandsInputsAreFrozen :
    (busy5 .run).phase = .busy .run ∧ (writeAt 0x020 0).dir ≠ .write 0x0000000000000007 := ⟨rfl, by decide⟩

theorem test_witness_AcceptanceRule : Runs .nop ∧ Ready a1 ∧ (busy5 .run).phase = .busy .run :=
  ⟨by simp [Runs], ⟨rfl, rfl⟩, rfl⟩

/-- Substitution and none, for each clamping function: vectors G4, A2, and a NaN frequency. -/
theorem test_witness_ClampedValuesAreLegal :
    (sanMin 0x7FF8000000000000 fsMin).2 = true ∧ (sanMin F64.posInf fsMin).2 = false ∧ (sanAmp F64.zero).2 = true ∧
      (sanAmp F64.one).2 = false ∧ (sanFreq 0x7FF8000000000000).2 = true ∧ (sanFreq F64.negOne).2 = false := by
  decide +kernel

theorem test_witness_GridFollowsTheParameters :
    (samplesAsked a1 ≠ F64.posInf ∧ F64.floor (samplesAsked a1) ≤ (a1.conf.maxSamples : Int) ∧
      samplesAsked { a1 with par := { a1.par with fs := F64.posInf } } = F64.posInf ∧
      (a1.conf.maxSamples : Int) <
        F64.floor (samplesAsked { a1 with par := { a1.par with fs := F64.ofNat 65537, duration := F64.one } })) ∧
      ((grid a1).isSome = true ∧ a1.ctrl.timebase = .duration) ∧
      (let s : State := { a1 with ctrl := { a1.ctrl with timebase := .bitrate }, par := { a1.par with bitrate := 0x4059000000000000 } }
       (grid s).isSome = true ∧ s.ctrl.timebase = .bitrate) := by decide +kernel

/-- `NB <= N` on `a1`, and `N < NB` on the reset state (vector G19). -/
theorem test_witness_GridSizesInRange :
    (match grid a1 with | some g => decide (g.nb ≤ g.n) | none => false) = true ∧
      (match grid State.reset with | some g => decide (g.n < g.nb) | none => false) = true := by decide +kernel

theorem test_witness_OversizeGridChangesOnlyErr :
    (let s := { a1 with par := { a1.par with fs := F64.posInf } }
     let r := { a1 with par := { a1.par with fs := F64.ofNat 65537, duration := F64.one } }
     s.phase = .idle ∧ gridProduct s = F64.posInf ∧ r.phase = .idle ∧
       (r.conf.maxSamples : Int) < F64.floor (gridProduct r)) := by decide +kernel

theorem test_witness_ClampIsSticky : State.reset.phase = .idle ∧ Runs .run ∧ substitutes .run State.reset = true :=
  ⟨rfl, by simp [Runs], by decide +kernel⟩

/-- The parameters of `a1` and no bits. -/
def a0 : State := params (2, 1) (100, 1) (4, 100) State.reset

theorem inv_a0 : a0.Inv := by constructor <;> decide +kernel

theorem test_witness_FallbackBitsAreCommitted :
    (1 ≤ a1.par.nbits.toNat ∧ (entry a1 .bits 0).getLsbD 0 = true ∧ (entry a1 .bits 1).getLsbD 0 = false) ∧ a0.Inv ∧ a0.phase = .idle ∧ a0.par.nbits = 0 ∧ (grid a0).isSome = true := ⟨by decide +kernel, inv_a0, rfl, rfl, by decide +kernel⟩

theorem test_witness_NopChangesNothing : a1.phase = .idle := rfl

theorem test_witness_GenBpskWritesTheWaveform : a1.Inv ∧ a1.phase = .idle ∧ (grid a1).isSome = true :=
  ⟨inv_a1, rfl, grid_a1.1⟩

/-- Two bits on five samples: sample 4 trails. -/
def a5 : State := loaded [true, false] (params (2, 1) (100, 1) (5, 100) State.reset)

theorem inv_a5 : a5.Inv := by constructor <;> decide +kernel

theorem test_witness_GenFskWritesTheWaveform :
    a5.Inv ∧ a5.phase = .idle ∧
      (match grid a5 with | some g => decide (min g.n (g.nb * g.spb) = 4) && decide (g.n = 5) | none => false) = true :=
  ⟨inv_a5, rfl, by decide +kernel⟩

theorem test_witness_GenerateFrame :
    a1.phase = .idle ∧ (grid a1).isSome = true ∧ (∃ t, exec .genBpsk a1 = .next t) ∧ ∃ t, exec .genFsk a1 = .next t :=
  ⟨rfl, grid_a1.1, ⟨_, rfl⟩, ⟨_, rfl⟩⟩

/-- Bit 1 of two bits, at 0 Hz. -/
theorem test_witness_FskBitStartsAtCarrierOne :
    a5.Inv ∧ a5.phase = .idle ∧ (∃ t, exec .genFsk a5 = .next t) ∧
      (match grid a5 with | some g => decide (1 * g.spb < min g.n (g.nb * g.spb)) | none => false) = true ∧
      F64.finite (F64.mul a5.fresh.nans twoPi (if sourceBit a5 1 then oneFreq a5 else zeroFreq a5)) = true :=
  ⟨inv_a5, rfl, ⟨_, rfl⟩, by decide +kernel, by decide +kernel⟩

theorem test_witness_NoGridRaisesNoData : State.reset.phase = .idle ∧ State.reset.status.genValid = false := ⟨rfl, rfl⟩

theorem test_witness_NonFiniteSnrCopiesTheSignal :
    grid5.Inv ∧ grid5.phase = .idle ∧ grid5.status.genValid = true ∧ F64.finite grid5.par.snrDb = false :=
  ⟨inv_grid5, rfl, rfl, by decide +kernel⟩

/-- `SNR_DB` = 0 on the same grid. -/
def grid5Snr0 : State := { grid5 with par := { grid5.par with snrDb := 0 } }

theorem inv_grid5Snr0 : grid5Snr0.Inv := by constructor <;> decide +kernel

theorem test_witness_FiniteSnrAddsGaussianNoise :
    grid5Snr0.Inv ∧ grid5Snr0.phase = .idle ∧ grid5Snr0.status.genValid = true ∧
      F64.finite grid5Snr0.par.snrDb = true := ⟨inv_grid5Snr0, rfl, rfl, by decide +kernel⟩

theorem test_witness_NoiseFrame :
    grid5.phase = .idle ∧ grid5.status.genValid = true ∧ ∃ t, exec .addNoise grid5 = .next t := ⟨rfl, rfl, ⟨_, rfl⟩⟩

theorem test_witness_DemodBpskDecides :
    grid5.Inv ∧ grid5.phase = .idle ∧ grid5.status.genValid = true ∧ grid5.der.n.toNat = 5 ∧ grid5.der.ndec.toNat = 2 :=
  ⟨inv_grid5, rfl, rfl, by decide +kernel, by decide +kernel⟩

theorem test_witness_DemodFskDecides : grid5.Inv ∧ grid5.phase = .idle ∧ grid5.status.genValid = true :=
  ⟨inv_grid5, rfl, rfl⟩

theorem test_witness_DemodulateFrame :
    grid5.phase = .idle ∧ grid5.status.genValid = true ∧ (∃ t, exec .demodBpsk grid5 = .next t) ∧
      ∃ t, exec .demodFsk grid5 = .next t := ⟨rfl, rfl, ⟨_, rfl⟩, ⟨_, rfl⟩⟩

theorem test_witness_EqualTonesDecideZero :
    grid5.Inv ∧ grid5.phase = .idle ∧ grid5.status.genValid = true ∧ zeroFreq grid5 = oneFreq grid5 ∧
      ∃ t, exec .demodFsk grid5 = .next t := ⟨inv_grid5, rfl, rfl, by decide +kernel, ⟨_, rfl⟩⟩

/-- `a1` at 0 Hz: the carrier is 1.0, and bit 1 is a 0. -/
theorem test_witness_ZeroBitsSurviveTheRoundTrip :
    a1.Inv ∧ a1.phase = .idle ∧ a1.ctrl.policy = .atEnd ∧
      (match grid a1 with | some g => decide (g.nb ≤ g.n) && decide (g.n = 2) && decide (1 < g.nb) | none => false) = true ∧
      exec .genBpsk a1 = .next (after .genBpsk a1) ∧ (∃ u, exec .demodBpsk (after .genBpsk a1) = .next u) ∧
      F64.finite (F64.mul a1.fresh.nans twoPi (carrierFreq a1)) = true ∧
      (∀ k, k < 2 → F64.isNaN (entry (after .genBpsk a1) .car k) = false) ∧ sourceBit a1 1 = false :=
  ⟨inv_a1, rfl, rfl, by decide +kernel, rfl, ⟨_, rfl⟩, by decide +kernel, by decide +kernel, by decide +kernel⟩

/-- Either scheme. -/
theorem test_witness_RunEqualsItsThreePhases :
    (a1.phase = .idle ∧ (grid a1).isSome = true ∧ a1.ctrl.scheme = .bpsk) ∧
      (let s : State := { a1 with ctrl := { a1.ctrl with scheme := .fsk } }
       s.phase = .idle ∧ (grid s).isSome = true ∧ s.ctrl.scheme = .fsk) :=
  ⟨⟨rfl, grid_a1.1, rfl⟩, rfl, by decide +kernel, rfl⟩

theorem test_witness_RunFrame : a1.Inv ∧ a1.phase = .idle ∧ (grid a1).isSome = true ∧ ∃ t, exec .run a1 = .next t :=
  ⟨inv_a1, rfl, grid_a1.1, ⟨_, rfl⟩⟩

/-- Commands that do not write the grid; and steps of each kind: none of the three, each end of a command, each reset. -/
theorem test_witness_OnlyGeneratesWriteTheGrid :
    ((∃ t, exec .addNoise grid5 = .next t ∧ ¬WritesGrid .addNoise) ∧
      ∃ t, exec .demodFsk (busy5 .run) = .next t ∧ ¬WritesGrid .demodFsk) ∧
    (∃ t, step { a1 with agenda := [.host (readAt 0)] } = .next t) ∧
    CommandEndsNext WritesGrid { a1 with agenda := [.command 6] } ∧ CommandEndsNext WritesGrid (busy5 .run) ∧
    ResetNext { busy5 .run with agenda := [.host (writeAt 0x010 7)] } ∧
    ResetNext { a1 with agenda := [.releaseReset], inReset := true } :=
  ⟨⟨⟨_, rfl, by simp [WritesGrid]⟩, ⟨_, rfl, by simp [WritesGrid]⟩⟩, ⟨_, rfl⟩,
    .inl ⟨6, .run, [], rfl, rfl, by simp [WritesGrid]⟩, .inr ⟨.run, rfl, by simp [WritesGrid], .inl rfl⟩, .inl ⟨[], rfl⟩,
    .inr (.inr ⟨[], rfl, rfl⟩)⟩

/-- The smallest positive number and 1 for `LN`. -/
theorem test_witness_ConfigurationFunctionLaws :
    F64.gt 0x0000000000000001 F64.zero = true ∧ F64.le 0x0000000000000001 F64.one = true ∧
      F64.gt F64.one F64.zero = true ∧ F64.le F64.one F64.one = true := by decide +kernel

theorem test_witness_IntegersConvertExactly :
    F64.ofNat 0 = F64.zero ∧ F64.ofNat (2 ^ 53 - 1) = 0x433FFFFFFFFFFFFF ∧ F64.finite 0xBFF8000000000000 = true ∧
      F64.finite 0x7FEFFFFFFFFFFFFF = true := by decide +kernel

theorem test_witness_ComparisonIsOrdered :
    F64.isNaN 0x7FF8000000000000 = true ∧ F64.finite F64.negOne = true ∧ F64.finite F64.zero = true ∧
      F64.gt F64.zero F64.negOne = true ∧ F64.isInf F64.posInf = true ∧ F64.isInf (F64.neg F64.posInf) = true ∧
      F64.isNaN F64.posInf = false ∧ F64.gt F64.posInf F64.one = true ∧ F64.gt F64.one (F64.neg F64.posInf) = true := by
  decide +kernel

/-- Finite operands: the largest number, whose sum with itself overflows, and the smallest. -/
theorem test_witness_AdditionIsCorrectlyRounded :
    F64.isInf F64.posInf = true ∧ F64.finite 0x7FEFFFFFFFFFFFFF = true ∧ F64.finite 0x0000000000000001 = true ∧
      F64value F64.one + F64value F64.negOne = 0 := by
  refine ⟨by decide, by decide, by decide, ?_⟩
  have h1 : F64.smag F64.one = (F64.unit : Int) := by decide +kernel
  have h2 : F64.smag F64.negOne = -(F64.unit : Int) := by decide +kernel
  simp only [F64value, h1, h2]
  push_cast
  ring

theorem test_witness_MultiplicationIsCorrectlyRounded :
    F64.isInf F64.posInf = true ∧ F64.isNaN 0x8000000000000001 = false ∧ F64.isZero 0x8000000000000001 = false ∧
      F64.finite 0x7FEFFFFFFFFFFFFF = true ∧ F64.finite 0x8000000000000001 = true := by decide

theorem test_witness_DivisionIsCorrectlyRounded :
    F64.finite F64.one = true ∧ F64.finite 0x8000000000000001 = true ∧ F64.isZero 0x8000000000000001 = false ∧
      F64.isNaN F64.one = false ∧ F64.isZero F64.one = false ∧ F64.isZero (F64.neg F64.zero) = true ∧
      F64.isInf F64.posInf = true := by decide

theorem test_witness_SquareRootIsNearest :
    F64.finite 0x0000000000000001 = true ∧ F64.gt 0x0000000000000001 F64.zero = true := by decide +kernel

theorem test_witness_InvalidOperationsGiveNaN :
    F64.isNaN 0x7FF8000000000000 = true ∧ F64.isInf F64.posInf = true ∧ F64.isInf 0xFFF0000000000000 = true ∧
      F64.sign F64.posInf ≠ F64.sign 0xFFF0000000000000 ∧ F64.isZero 0x8000000000000000 = true ∧
      F64.sign F64.negOne = true ∧ F64.isZero F64.negOne = false := by decide

end Sys2Proof.Tests
end

section
/-! PROOFS. R13: the laws of `COS`, `SIN`, `LN` and `POW10`. The powers of ten to 10^22 are exact because
`10^k = 5^k * 2^k` and `5^22 < 2^53`: a number of at most 53 significant bits is converted without rounding. -/

namespace Sys2Proof.F64

/-! A magnitude of at most 53 significant bits survives rounding. -/

theorem unit_pos : 0 < unit := by
  unfold unit
  positivity

theorem lastPlace_one (num : Nat) : lastPlace num 1 = Nat.log2 num - 52 := by rw [lastPlace, Nat.div_one]

/-- At most `53 + a` bits: no more than the `a` lowest are rounded off. -/
theorem lastPlace_le {num a : Nat} (h : num < 2 ^ (53 + a)) : lastPlace num 1 ≤ a := by
  rw [lastPlace_one]
  rcases Nat.eq_zero_or_pos num with rfl | h0
  · simp
  · have := (Nat.log2_lt h0.ne').2 h
    omega

/-- What is kept of a magnitude has at most 53 bits. -/
theorem kept_lt (num : Nat) : num / 2 ^ lastPlace num 1 < 2 ^ 53 := by
  rw [Nat.div_lt_iff_lt_mul (Nat.two_pow_pos _), ← Nat.pow_add]
  refine Nat.lt_of_lt_of_le Nat.lt_log2_self (Nat.pow_le_pow_right (by decide) ?_)
  rw [lastPlace_one]
  omega

/-- When anything is rounded off, what is kept has its leading bit set. -/
theorem le_kept {num : Nat} (h : 0 < lastPlace num 1) : 2 ^ 52 ≤ num / 2 ^ lastPlace num 1 := by
  have hk : 52 + lastPlace num 1 = Nat.log2 num := by
    rw [lastPlace_one] at h ⊢
    omega
  have h0 : num ≠ 0 := by
    rintro rfl
    rw [Nat.log2_zero] at hk
    omega
  rw [Nat.le_div_iff_mul_le (Nat.two_pow_pos _), ← Nat.pow_add, hk]
  exact Nat.log2_self_le h0

/-- An exact quotient is its own rounding. -/
theorem roundHalfEven_of_dvd {num den : Nat} (h0 : 0 < den) (h : den ∣ num) : roundHalfEven num den = num / den := by
  have hr := Nat.mod_eq_zero_of_dvd h
  simp only [roundHalfEven, hr]
  rw [if_neg (by omega), if_neg (by omega)]

/-- The magnitude of a word from the exponent `k` of its last place and its 53 kept bits `q` (R116); with `k = 0` the word
may be subnormal. -/
theorem mag_pack {k q : Nat} (s : Bool) (hb : k * 2 ^ 52 + q < infBits) (hq : q < 2 ^ 53)
    (hn : 0 < k → 2 ^ 52 ≤ q) : mag (pack s (k * 2 ^ 52 + q)) = q * 2 ^ k := by
  have h63 := lt_trans hb infBits_lt
  rw [mag, expo_pack _ h63, frac_pack _ h63]
  by_cases hs : q < 2 ^ 52
  · obtain rfl : k = 0 := by omega
    rw [if_pos (by omega)]
    omega
  · have he : (k * 2 ^ 52 + q) / 2 ^ 52 = k + 1 := by omega
    have hf : (k * 2 ^ 52 + q) % 2 ^ 52 + 2 ^ 52 = q := by omega
    rw [he, hf, if_neg (by omega), Nat.add_sub_cancel]

/-- Rounding keeps a magnitude below the overflow threshold that is a multiple of its last place. -/
theorem mag_round_of_dvd {num : Nat} (s : Bool) (hd : 2 ^ lastPlace num 1 ∣ num) (hl : lastPlace num 1 ≤ 2045) :
    mag (round s num 1) = num := by
  have hq := kept_lt num
  have hb : lastPlace num 1 * 2 ^ 52 + num / 2 ^ lastPlace num 1 < infBits := by
    unfold infBits
    omega
  have hr : roundBits num 1 = lastPlace num 1 * 2 ^ 52 + num / 2 ^ lastPlace num 1 := by
    rw [roundBits, Nat.one_mul, roundHalfEven_of_dvd (Nat.two_pow_pos _) hd]
    exact Nat.min_eq_left hb.le
  rw [round, hr, mag_pack s hb hq le_kept, Nat.div_mul_cancel hd]

/-- Rounding keeps a magnitude of at most 53 significant bits. -/
theorem mag_round_mul_two_pow {m a : Nat} (s : Bool) (hm : m < 2 ^ 53) (ha : a ≤ 2045) :
    mag (round s (m * 2 ^ a) 1) = m * 2 ^ a := by
  have hl : lastPlace (m * 2 ^ a) 1 ≤ a := by
    refine lastPlace_le ?_
    rw [Nat.pow_add]
    exact Nat.mul_lt_mul_of_pos_right hm (Nat.two_pow_pos _)
  exact mag_round_of_dvd s (Dvd.dvd.mul_left (Nat.pow_dvd_pow 2 hl) m) (hl.trans ha)

/-- `f64(n)` is exact when `n` is below 2^1024 and has at most 53 significant bits (R11). -/
theorem smag_ofNat {m e : Nat} (hm : m < 2 ^ 53) (he : e ≤ 971) :
    smag (ofNat (m * 2 ^ e)) = ((m * 2 ^ e * unit : Nat) : Int) := by
  have hu : m * 2 ^ e * unit = m * 2 ^ (e + 1074) := by
    rw [unit, Nat.mul_assoc, pow_add]
  rw [ofNat, hu, smag, sign_round, mag_round_mul_two_pow false hm (by omega)]
  exact if_neg Bool.false_ne_true

/-- Different integers below 2^53 convert to different words (R11). -/
theorem ofNat_inj {i j : Nat} (hi : i < 2 ^ 53) (hj : j < 2 ^ 53) : ofNat i = ofNat j ↔ i = j := by
  refine ⟨fun h => ?_, congrArg ofNat⟩
  have hs := smag_ofNat (e := 0) hi (by decide)
  rw [Nat.pow_zero, Nat.mul_one, h] at hs
  have hs' := smag_ofNat (e := 0) hj (by decide)
  rw [Nat.pow_zero, Nat.mul_one, hs, Nat.cast_inj] at hs'
  exact Nat.eq_of_mul_eq_mul_right unit_pos hs'

theorem ofNat_zero : ofNat 0 = zero := by
  rw [ofNat, Nat.zero_mul, round, roundBits_zero]
  rfl

/-! The order and negation. -/

@[simp] theorem isNaN_neg (x : F64) : isNaN (neg x) = isNaN x := by
  rw [Bool.eq_iff_iff, isNaN_iff, isNaN_iff, absBits_neg]

@[simp] theorem rank_neg (x : F64) : rank (neg x) = -rank x := by
  rw [rank, rank, sign_neg, absBits_neg]
  cases sign x <;> simp

/-- `≤` is by rank, where neither operand is a NaN (R14). -/
theorem le_iff {x y : F64} (hx : isNaN x = false) (hy : isNaN y = false) : le x y = true ↔ rank x ≤ rank y := by
  simp only [le, hx, hy, Bool.not_false, Bool.true_and, decide_eq_true_eq]

end Sys2Proof.F64

namespace Sys2Proof.Machine

/-- `COS` of either zero (R13). -/
theorem cos_of_isZero {x : F64} (h : F64.isZero x = true) : cos x = F64.one := if_pos h

/-- `SIN` of either zero (R13). -/
theorem sin_of_isZero {x : F64} (h : F64.isZero x = true) : sin x = x := if_pos h

/-- `LN` on (0, 1] is at most 0 whatever the free function answers, a NaN or a positive word included (R13). -/
theorem atMostZero_le (r : F64) : F64.le (atMostZero r) F64.zero = true := by
  have hz : F64.isNaN F64.zero = false := by decide
  unfold atMostZero
  split_ifs with hle hnan
  · exact hle
  · decide
  · have hr : F64.isNaN r = false := by simpa using hnan
    have hr' : F64.isNaN (F64.neg r) = false := by rw [F64.isNaN_neg, hr]
    rw [F64.le_iff hr hz, show F64.rank F64.zero = 0 by decide] at hle
    rw [F64.le_iff hr' hz, F64.rank_neg, show F64.rank F64.zero = 0 by decide]
    omega

/-- R13, third law. -/
theorem ln_le_zero {u : F64} (h0 : F64.gt u F64.zero = true) (h1 : F64.le u F64.one = true) :
    F64.le (ln u) F64.zero = true := by
  unfold ln
  rw [h0, h1, Bool.and_self, if_pos rfl]
  split_ifs
  · decide
  · exact atMostZero_le _

/-- The table of `POW10` finds each of its integers, whatever its length `n`. -/
theorem pow10From_ofNat {k : Nat} (hk : 1 ≤ k) :
    ∀ n, k ≤ n → n < 2 ^ 53 → pow10From (F64.ofNat k) n = F64.ofNat (10 ^ k)
  | 0, hkn, _ => by omega
  | n + 1, hkn, hn => by
    rw [pow10From]
    split_ifs with h
    · rw [← (F64.ofNat_inj (by omega) hn).1 h]
    · have hne : k ≠ n + 1 := fun e => h (congrArg F64.ofNat e)
      exact pow10From_ofNat hk n (by omega) (by omega)

/-- `POW10` at the integers 1 to 22 (R13). -/
theorem pow10_ofNat {k : Nat} (hk : 1 ≤ k) (hk22 : k ≤ 22) : pow10 (F64.ofNat k) = F64.ofNat (10 ^ k) := by
  have h0 : F64.ofNat k ≠ F64.zero := by
    rw [← F64.ofNat_zero, Ne, F64.ofNat_inj (by omega) (by decide)]
    omega
  rw [pow10, if_neg h0, pow10From_ofNat hk 22 hk22 (by decide)]

/-- `f64(10^k)` is exact up to `k = 22`, the last power of five below 2^53. -/
theorem F64value_ofNat_ten_pow {k : Nat} (hk : k ≤ 22) : F64value (F64.ofNat (10 ^ k)) = 10 ^ k := by
  have h5 : 5 ^ k < 2 ^ 53 := lt_of_le_of_lt (Nat.pow_le_pow_right (by decide) hk) (by decide)
  have hu : (F64.unit : ℚ) ≠ 0 := Nat.cast_ne_zero.2 F64.unit_pos.ne'
  have hs := F64.smag_ofNat (e := k) h5 (by omega)
  rw [← Nat.mul_pow] at hs
  rw [F64value, hs, Int.cast_natCast, Nat.cast_mul, mul_div_cancel_right₀ _ hu, Nat.cast_pow]
  rfl

/-- Settles O53: the zeros, 1.0 and (0, 1] by the branches of the functions, the powers of ten by exact conversion. -/
theorem configurationFunctionLaws : Obligations.ConfigurationFunctionLaws := by
  refine ⟨cos_of_isZero (by decide), cos_of_isZero (by decide), sin_of_isZero (by decide), sin_of_isZero (by decide),
    if_pos rfl, fun _ h0 h1 => ln_le_zero h0 h1, if_pos rfl, fun k hk hk22 => ?_⟩
  rw [pow10_ofNat hk hk22]
  exact ⟨rfl, F64value_ofNat_ten_pow hk22⟩

end Sys2Proof.Machine
end

section
/-! PROOFS. R45, R47, R131: what a command leaves in `CLAMP`, and a host write to `STATUS`. -/

namespace Sys2Proof.Machine

/-! `CLAMP` after each command's body: set if the command substituted a value, else as it was. -/

/-- A grid's flag records whether the amplitude, the sample rate or the duration was substituted (R131, R143). -/
theorem grid_some_clamped {s : State} {g : Grid} (h : grid s = some g) :
    g.clamped = ((sanAmp s.par.amp).2 || (sanMin s.par.fs fsMin).2 || (sanMin (rawDuration s) durMin).2) := by
  unfold grid at h
  split at h
  · cases h
  · cases h
    rfl

theorem genBpskBody_clamp (s : State) :
    (genBpskBody s).status.clamp = (s.status.clamp || substitutes .genBpsk s) := by
  cases h : grid s with
  | none => simp [genBpskBody, h, substitutes, grid_none.1 h]
  | some g =>
    obtain ⟨-, -, hst, -⟩ := genBpskBody_registers h
    rw [hst, grid_some_clamped h]
    simp [Status.afterGenerate, substitutes, generateSubstitutes, (grid_some h).1]

theorem genFskBody_clamp (s : State) :
    (genFskBody s).status.clamp = (s.status.clamp || substitutes .genFsk s) := by
  cases h : grid s with
  | none => simp [genFskBody, h, substitutes, grid_none.1 h]
  | some g =>
    obtain ⟨-, -, hst, -⟩ := genFskBody_registers h
    rw [hst, grid_some_clamped h]
    simp [Status.afterGenerate, substitutes, generateSubstitutes, (grid_some h).1, Bool.or_assoc]

/-- The noise command leaves the parameters, the grid's validity and `CLAMP` (R200). -/
theorem addNoiseBody_keeps (s : State) :
    (addNoiseBody s).par = s.par ∧ (addNoiseBody s).status.genValid = s.status.genValid ∧
      (addNoiseBody s).status.clamp = s.status.clamp := by
  cases h : s.status.genValid with
  | false => simp [addNoiseBody, h]
  | true =>
    obtain ⟨hpar, hst, -⟩ := addNoiseBody_registers h
    rw [hst]
    exact ⟨hpar, h, rfl⟩

theorem demodBpskBody_clamp (s : State) :
    (demodBpskBody s).status.clamp = (s.status.clamp || substitutes .demodBpsk s) := by
  cases h : s.status.genValid with
  | false => simp [demodBpskBody, substitutes, h]
  | true =>
    obtain ⟨-, -, hst, -⟩ := demodBpskBody_registers h
    simp [hst, Status.afterDemod, substitutes, h]

theorem demodFskBody_clamp (s : State) :
    (demodFskBody s).status.clamp = (s.status.clamp || substitutes .demodFsk s) := by
  cases h : s.status.genValid with
  | false => simp [demodFskBody, substitutes, h]
  | true =>
    obtain ⟨-, -, hst, -⟩ := demodFskBody_registers h
    simp [hst, Status.afterDemod, substitutes, h]

/-- The demodulation phase of `RUN` has a valid grid and the frequency of its generate (R272). -/
theorem substitutes_demodBpsk_in_run {s : State} {g : Grid} (h : grid s = some g) :
    substitutes .demodBpsk (addNoiseBody (genBpskBody s)) = (sanFreq s.par.fc).2 := by
  obtain ⟨-, hpar, hst, -⟩ := genBpskBody_registers h
  obtain ⟨hnpar, hnv, -⟩ := addNoiseBody_keeps (genBpskBody s)
  rw [substitutes, hnv, hst, hnpar, hpar]
  split <;> rfl

theorem substitutes_demodFsk_in_run {s : State} {g : Grid} (h : grid s = some g) :
    substitutes .demodFsk (addNoiseBody (genFskBody s)) = ((sanFreq s.par.f0).2 || (sanFreq s.par.f1).2) := by
  obtain ⟨-, hpar, hst, -⟩ := genFskBody_registers h
  obtain ⟨hnpar, hnv, -⟩ := addNoiseBody_keeps (genFskBody s)
  rw [substitutes, hnv, hst, hnpar, hpar]
  split <;> rfl

/-- `RUN` substitutes what its generate does: its demodulation clamps frequencies that the generate clamped before
(R272). -/
theorem runBody_clamp (s : State) : (runBody s).status.clamp = (s.status.clamp || substitutes .run s) := by
  cases h : grid s with
  | none => simp [runBody, h, substitutes, grid_none.1 h]
  | some g =>
    have hg := (grid_some h).1
    cases hs : s.ctrl.scheme with
    | bpsk =>
      have hn := (addNoiseBody_keeps (genBpskBody s)).2.2
      simp only [runBody, h, hs]
      rw [demodBpskBody_clamp, substitutes_demodBpsk_in_run h, hn, genBpskBody_clamp]
      simp only [substitutes, generateSubstitutes, hg, hs, Bool.not_false, Bool.true_and, Bool.or_assoc, Bool.or_self]
    | fsk =>
      have hn := (addNoiseBody_keeps (genFskBody s)).2.2
      simp only [runBody, h, hs]
      rw [demodFskBody_clamp, substitutes_demodFsk_in_run h, hn, genFskBody_clamp]
      simp only [substitutes, generateSubstitutes, hg, hs, Bool.not_false, Bool.true_and, Bool.or_assoc, Bool.or_self]

/-- Every command's body sets `CLAMP` if it substitutes a value and otherwise leaves it (R45, R131). -/
theorem commandBody_clamp (m : Instr) (s : State) :
    (commandBody m s).status.clamp = (s.status.clamp || substitutes m s) := by
  cases m with
  | nop => exact (Bool.or_false _).symm
  | genBpsk => exact genBpskBody_clamp s
  | genFsk => exact genFskBody_clamp s
  | addNoise => exact (addNoiseBody_keeps s).2.2.trans (Bool.or_false _).symm
  | demodBpsk => exact demodBpskBody_clamp s
  | demodFsk => exact demodFskBody_clamp s
  | run => exact runBody_clamp s
  | softReset => exact (Bool.or_false _).symm

/-! The host write. -/

/-- A write to `STATUS` clears `ERR` and `CLAMP`, whatever the word and the phase (R47). -/
theorem busAccess_write_status (v : Word) (s : State) :
    busAccess (writeAt 0x018 v) s = { clearStatus s with response := .done } := by
  have h := busAccess_write (o := regOffset .status) (by decide) (by decide) v s
  rw [targetOf_regOffset] at h
  exact h

/-- What a command substitutes depends on neither `ERR`, `CLAMP` nor the bus answer. -/
theorem substitutes_clearStatus (m : Instr) (s : State) (r : Response) :
    substitutes m { clearStatus s with response := r } = substitutes m s := by
  cases m <;> rfl

/-- Settles O20: the write is a write to the register, and `CLAMP` at the completion is the running command's own
substitution. -/
theorem statusWriteClearsErrAndClamp : Obligations.StatusWriteClearsErrAndClamp := by
  intro s v
  have hw := busAccess_write_status v s
  refine ⟨hw, fun m _ hsub => ?_⟩
  rw [hw, complete, endCommand_status, commandBody_clamp, substitutes_clearStatus, hsub, Bool.or_true]

end Sys2Proof.Machine
end

section
/-! PROOFS. R85, R86: the accesses the bus does not perform. -/

namespace Sys2Proof.Machine

/-- An access is well-formed exactly when it is 8 bytes wide at a multiple of 8 (R85, R86). -/
theorem wellFormed_iff (a : Access) : a.wellFormed = true ↔ a.width = 8 ∧ a.offset.toNat % 8 = 0 := by
  simp [Access.wellFormed, Access.widthOk, Access.aligned]

/-- The bus answers an access that is not well-formed with an error at its offset, and does nothing else (R85, R86, R300). -/
theorem busAccess_malformed {a : Access} (h : ¬a.wellFormed = true) (s : State) :
    busAccess a s = { s with response := .busError a.offset } := by
  simp [busAccess, h]

/-- Settles O25: an access of another width or alignment is not well-formed, so the bus refuses it before it looks at the
target or the direction. -/
theorem malformedAccessIsBusError : Obligations.MalformedAccessIsBusError := by
  intro s a hbad
  refine busAccess_malformed (fun hwf => ?_) s
  obtain ⟨hwidth, haligned⟩ := (wellFormed_iff a).1 hwf
  cases hbad with
  | inl hw => exact hw hwidth
  | inr ha => exact ha haligned

end Sys2Proof.Machine
end

section
/-! PROOFS. R110, R111, R112: which words are commands, and what an illegal word written to `CMD` does. -/

namespace Sys2Proof.Machine

/-! Legal words: `MBZ` zero and a code of the map make the word `encode` gives. -/

/-- Every code up to 7 is a command's (R111). -/
theorem exists_opcode_toNat_eq {k : Nat} (h : k ≤ 7) : ∃ i, (opcode i).toNat = k := by
  match k, h with
  | 0, _ => exact ⟨.nop, rfl⟩
  | 1, _ => exact ⟨.genBpsk, rfl⟩
  | 2, _ => exact ⟨.genFsk, rfl⟩
  | 3, _ => exact ⟨.addNoise, rfl⟩
  | 4, _ => exact ⟨.demodBpsk, rfl⟩
  | 5, _ => exact ⟨.demodFsk, rfl⟩
  | 6, _ => exact ⟨.run, rfl⟩
  | 7, _ => exact ⟨.softReset, rfl⟩

theorem toNat_encode (i : Instr) : (encode i).toNat = (opcode i).toNat := by cases i <;> rfl

/-- A word with `MBZ` zero and a code up to 7 decodes to the command of that code: it is that command's word (R112). -/
theorem decodeWord_of_legal {w : Word} (hmbz : w.toNat / 256 = 0) (hcode : w.toNat % 256 ≤ 7) :
    ∃ i, decodeWord w = .ok i ∧ (opcode i).toNat = w.toNat % 256 := by
  obtain ⟨i, hi⟩ := exists_opcode_toNat_eq hcode
  have hw : w = encode i := BitVec.eq_of_toNat_eq (by rw [toNat_encode]; omega)
  exact ⟨i, hw ▸ decodeWord_encode i, hi⟩

/-! Illegal words. -/

/-- The `MBZ` field of R110 as a number. -/
theorem toNat_mbz (w : Word) : (w.extractLsb' 8 56).toNat = w.toNat / 256 := by
  rw [BitVec.extractLsb'_toNat, Nat.shiftRight_eq_div_pow]
  omega

/-- The `OPC` field of R110 as a number. -/
theorem toNat_opc (w : Word) : (w.extractLsb' 0 8).toNat = w.toNat % 256 := by
  rw [BitVec.extractLsb'_toNat, Nat.shiftRight_zero]

theorem decodeWord_of_mbz_ne_zero {w : Word} (h : w.toNat / 256 ≠ 0) : decodeWord w = .error .mbzNonzero := by
  have hfield : w.extractLsb' 8 56 ≠ 0 := fun h0 => h (by rw [← toNat_mbz, h0]; rfl)
  rw [decodeWord, if_pos hfield]

theorem decodeWord_of_code_gt {w : Word} (hmbz : w.toNat / 256 = 0) (hcode : 7 < w.toNat % 256) :
    decodeWord w = .error .illegalCode := by
  have hfield : w.extractLsb' 8 56 = 0 := BitVec.eq_of_toNat_eq ((toNat_mbz w).trans hmbz)
  obtain ⟨k, hk⟩ : ∃ k, w.toNat % 256 = k + 8 := Nat.exists_eq_add_of_le' hcode
  rw [decodeWord, if_neg (not_not.2 hfield), toNat_opc, hk]
  rfl

/-- The decoder calls a word `ILLEGAL` exactly when `MBZ` is nonzero or the code is above 7 (R112). -/
theorem decodeWord_error_iff {w : Word} :
    (∃ e, decodeWord w = .error e) ↔ (w.toNat / 256 ≠ 0 ∨ 7 < w.toNat % 256) := by
  constructor
  · rintro ⟨e, he⟩
    by_contra hlegal
    obtain ⟨hmbz, hcode⟩ : w.toNat / 256 = 0 ∧ w.toNat % 256 ≤ 7 := by omega
    obtain ⟨i, hi, -⟩ := decodeWord_of_legal hmbz hcode
    cases he.symm.trans hi
  · intro hbad
    by_cases hmbz : w.toNat / 256 = 0
    · exact ⟨_, decodeWord_of_code_gt hmbz (hbad.resolve_left (not_not.2 hmbz))⟩
    · exact ⟨_, decodeWord_of_mbz_ne_zero hmbz⟩

/-- A word that decodes to a command has `MBZ` zero (R111). -/
theorem mbz_eq_zero_of_decodeWord_ok {w : Word} {i : Instr} (h : decodeWord w = .ok i) : w.toNat / 256 = 0 := by
  by_contra hmbz
  cases h.symm.trans (decodeWord_of_mbz_ne_zero hmbz)

/-! The write to `CMD`. -/

/-- A host write at a register's offset is a write to that register, answered (R35, R300). -/
theorem busAccess_write_regOffset (r : Reg) (v : Word) (s : State) :
    busAccess (writeAt (regOffset r) v) s = { writeReg r v s with response := .done } := by
  have h := busAccess_write ((regOffset_le r).trans_lt (by decide)) (regOffset_aligned r) v s
  rw [targetOf_regOffset] at h
  exact h

/-- An illegal word is rejected (R112). -/
theorem writeCmd_of_error {w : Word} {e : DecodeError} (h : decodeWord w = .error e) (s : State) :
    writeCmd w s = rejectWord s := by
  rw [writeCmd, h]

/-- A rejection while no command runs is `ERR_ILLEGAL_CMD` (R112, R305). -/
theorem rejectWord_idle {s : State} (h : s.phase = .idle) : rejectWord s = cmdError .illegalCmd s := by
  simp [rejectWord, h, Phase.isBusy]

/-- Settles O4: a legal word is its command's own word, the two tests of the decoder catch every other, and while no command
runs `CMD` answers these with `ERR_ILLEGAL_CMD` alone. -/
theorem illegalWordsRaiseIllegalCmd : Obligations.IllegalWordsRaiseIllegalCmd := by
  intro w
  refine ⟨decodeWord_of_legal, decodeWord_error_iff, fun s hready hbad => ?_⟩
  obtain ⟨hidle, -⟩ := hready
  obtain ⟨e, he⟩ := decodeWord_error_iff.2 hbad
  calc busAccess (writeAt 0x010 w) s
      = { writeCmd w s with response := .done } := busAccess_write_regOffset .cmd w s
    _ = { cmdError .illegalCmd s with response := .done } := by rw [writeCmd_of_error he, rejectWord_idle hidle]

/-- Settles O1: the eight words are the encodings of the eight commands, and the decoder's first test rejects a nonzero
`MBZ`. -/
theorem commandWordsOfTheOpcodeMap : Obligations.CommandWordsOfTheOpcodeMap :=
  ⟨decodeWord_encode .nop, decodeWord_encode .genBpsk, decodeWord_encode .genFsk, decodeWord_encode .addNoise,
    decodeWord_encode .demodBpsk, decodeWord_encode .demodFsk, decodeWord_encode .run, decodeWord_encode .softReset,
    fun _ _ => mbz_eq_zero_of_decodeWord_ok⟩

end Sys2Proof.Machine
end

section
/-! PROOFS. R131, R132: the clamping functions. Each passes a legal operand unchanged and substitutes for any other. The
functions test for illegal operands; off the NaNs that is the opposite test, since the ordered comparison is total there. -/

namespace Sys2Proof.F64

theorem le_refl {x : F64} (h : isNaN x = false) : le x x = true := (le_iff h h).2 (Int.le_refl _)

/-- No NaN is above anything (R14). -/
theorem isNaN_of_le {x y : F64} (h : le x y = true) : isNaN y = false := by
  cases hy : isNaN y with
  | false => rfl
  | true => simp [le, hy] at h

/-- Off the NaNs one of `x > y` and `x <= y` holds and not both (R14). -/
theorem le_eq_not_gt {x y : F64} (hx : isNaN x = false) (hy : isNaN y = false) : le x y = !gt x y := by
  rw [Bool.eq_iff_iff, Bool.not_eq_true', Bool.eq_false_iff, Ne, le_iff hx hy, gt_iff hx hy, Int.not_lt]

end Sys2Proof.F64

namespace Sys2Proof.Machine

/-- `sanMin` passes the operands at or above the minimum, +Infinity included, and gives the minimum for the others, NaN
included (R132). -/
theorem sanMin_eq {m : F64} (hm : F64.isNaN m = false) (x : F64) :
    sanMin x m = if F64.le m x then (x, false) else (m, true) := by
  cases hx : F64.isNaN x with
  | true => simp [sanMin, F64.le, hx]
  | false => cases hg : F64.gt m x <;> simp [sanMin, F64.lt, F64.le_eq_not_gt hm hx, hx, hg]

/-- A clamped rate or duration is at least its minimum (R132). -/
theorem le_sanMin {m : F64} (hm : F64.isNaN m = false) (x : F64) : F64.le m (sanMin x m).1 = true := by
  rw [sanMin_eq hm]
  split_ifs with h
  · exact h
  · exact F64.le_refl hm

/-- `sanAmp` passes the finite positive amplitudes and gives `AMP_DEFAULT` = 1.0 for the others (R132). -/
theorem sanAmp_eq (x : F64) :
    sanAmp x = if F64.finite x && F64.gt x F64.zero then (x, false) else (F64.one, true) := by
  cases hx : F64.finite x with
  | false => simp [sanAmp, hx, ampDefault, F64.one]
  | true =>
    have hle : F64.le x F64.zero = !F64.gt x F64.zero := F64.le_eq_not_gt (F64.isNaN_of_finite hx) (by decide)
    cases hg : F64.gt x F64.zero <;> simp [sanAmp, hle, hx, hg, ampDefault, F64.one]

/-- `sanFreq` passes the finite frequencies and gives +0.0 for the others (R132). -/
theorem sanFreq_eq (x : F64) : sanFreq x = if F64.finite x then (x, false) else (F64.zero, true) := by
  cases hx : F64.finite x <;> simp [sanFreq, hx]

/-- The two minima of the block are numbers (R7). -/
theorem isNaN_minimum {m : F64} (h : m = fsMin ∨ m = durMin) : F64.isNaN m = false := by
  rcases h with rfl | rfl <;> decide

/-- Settles O30: each clamping function is one choice on the legality of its operand. -/
theorem clampedValuesAreLegal : Obligations.ClampedValuesAreLegal := by
  refine ⟨fun x m hm => ⟨le_sanMin (isNaN_minimum hm) x, ?_⟩, fun x => ?_, fun x => ⟨sanFreq_finite x, ?_⟩⟩
  · rw [sanMin_eq (isNaN_minimum hm)]
    cases F64.le m x <;> exact ⟨rfl, rfl⟩
  · rw [sanAmp_eq]
    cases h : F64.finite x && F64.gt x F64.zero with
    | false =>
      have hfin : F64.finite F64.one = true := by decide
      have hpos : F64.gt F64.one F64.zero = true := by decide
      exact ⟨hfin, hpos, nofun, fun _ => rfl, rfl⟩
    | true =>
      obtain ⟨hfin, hpos⟩ := Bool.and_eq_true_iff.1 h
      exact ⟨hfin, hpos, fun _ => rfl, nofun, rfl⟩
  · rw [sanFreq_eq]
    cases F64.finite x <;> exact ⟨rfl, rfl⟩

end Sys2Proof.Machine
end

section
/-! PROOFS. R136: a grid that does not fit. The product `p` is of two words at or above positive minima, so of numbers other
than zero; and a command that finds no grid raises `ERR_SIZE` in place of its body. -/

namespace Sys2Proof.F64

/-- A number at or above a positive one is not zero. -/
theorem isZero_of_le {x y : F64} (hx : 0 < rank x) (h : le x y = true) : isZero y = false := by
  cases hy : isZero y with
  | false => rfl
  | true =>
    have habs : absBits y = 0 := by simpa [isZero] using hy
    have hzero : rank y = 0 := by simp [rank, habs]
    obtain ⟨-, hrank⟩ : (isNaN x = false ∧ isNaN y = false) ∧ rank x ≤ rank y := by simpa [le] using h
    omega

/-- A product of numbers is a NaN for no operands but a zero and an infinity (R148). -/
theorem isNaN_mul_of_nonzero {x y : F64} (hx : isNaN x = false) (hy : isNaN y = false) (hx0 : isZero x = false)
    (hy0 : isZero y = false) (ν : Nat) : isNaN (mul ν x y) = false := by
  simp only [mul, hx, hy, hx0, hy0, Bool.or_self, Bool.false_eq_true, if_false]
  split_ifs
  · exact isNaN_of_isInf (isInf_pack _)
  · exact isNaN_round _ _ _

end Sys2Proof.F64

namespace Sys2Proof.Machine

/-- A clamped rate or duration is not zero, its minimum being positive (R7, R132). -/
theorem isZero_sanMin {m : F64} (hm : m = fsMin ∨ m = durMin) (x : F64) : F64.isZero (sanMin x m).1 = false := by
  have hpos : 0 < F64.rank m := by rcases hm with rfl | rfl <;> decide
  exact F64.isZero_of_le hpos (le_sanMin (isNaN_minimum hm) x)

/-- A clamped rate or duration is no NaN (R132). -/
theorem isNaN_sanMin {m : F64} (hm : m = fsMin ∨ m = durMin) (x : F64) : F64.isNaN (sanMin x m).1 = false :=
  F64.isNaN_of_le (le_sanMin (isNaN_minimum hm) x)

/-- `p` is never NaN (R136). -/
theorem isNaN_gridProduct (s : State) : F64.isNaN (gridProduct s) = false :=
  F64.isNaN_mul_of_nonzero (isNaN_sanMin (.inl rfl) _) (isNaN_sanMin (.inr rfl) _) (isZero_sanMin (.inl rfl) _)
    (isZero_sanMin (.inr rfl) _) _

/-- The size check of R136 as a condition on `p`. -/
theorem gridTooLarge_iff (s : State) :
    gridTooLarge s = true ↔ gridProduct s = F64.posInf ∨ (s.conf.maxSamples : Int) < F64.floor (gridProduct s) := by
  rw [gridTooLarge, Bool.or_eq_true, beq_iff_eq, decide_eq_true_eq]

/-- Both generates and `RUN` end with `ERR_SIZE` and do nothing else when there is no grid (R136, R143, R272). -/
theorem commandBody_of_grid_none {s : State} (h : grid s = none) {i : Instr}
    (hi : i = .genBpsk ∨ i = .genFsk ∨ i = .run) :
    commandBody i s = cmdError .size s := by
  rcases hi with rfl | rfl | rfl
  · simp only [commandBody, genBpskBody, h]
  · simp only [commandBody, genFskBody, h]
  · simp only [commandBody, runBody, h]

/-- Settles O33: `p` is a product of numbers other than zero, and from an idle state a command is its body, which finds no
grid. -/
theorem oversizeGridChangesOnlyErr : Obligations.OversizeGridChangesOnlyErr := by
  intro s
  refine ⟨isNaN_gridProduct s, fun hidle hlarge i hi => ?_⟩
  have hgrid : grid s = none := grid_none.2 ((gridTooLarge_iff s).2 hlarge)
  have hruns : i ≠ .softReset := by
    rintro rfl
    simp at hi
  calc exec i s = .next (commandBody i s) := exec_idle hidle hruns
    _ = .next (cmdError .size s) := by rw [commandBody_of_grid_none hgrid hi]

end Sys2Proof.Machine
end

section
/-! PROOFS. R201: noise disabled. From a valid grid a `SNR_DB` that is not finite selects the copy of `MOD` to `RX`. -/

namespace Sys2Proof.Machine

/-- The copy sets the power and the deviation to +0.0 and no other RO register (R201). -/
@[simp] theorem copyWithoutNoise_der (s : State) :
    (copyWithoutNoise s).der = { s.der with psig := F64.zero, sigma := F64.zero } := by simp [copyWithoutNoise]

@[simp] theorem copyWithoutNoise_status (s : State) : (copyWithoutNoise s).status = s.status.afterNoise false := by
  simp [copyWithoutNoise]

/-- The copy draws nothing (R201). -/
@[simp] theorem copyWithoutNoise_fresh (s : State) :
    (copyWithoutNoise s).fresh = { s.fresh with nans := s.fresh.nans + 1 } := by simp [copyWithoutNoise]

/-- On the grid `RX` is what `MOD` was (R201). -/
theorem entry_copyWithoutNoise {s : State} (hn : sampleCount s ≤ 65536) {i : Nat} (hi : i < sampleCount s) :
    entry (copyWithoutNoise s) .rx i = entry s .mod i :=
  calc entry (copyWithoutNoise s) .rx i
      = entry (fill .rx (fun i => entry s .mod i) (sampleCount s) s) .rx i := entry_congr rfl rfl _ _
    _ = entry s .mod i := entry_fill_same _ _ _ _ _ hn hi

/-- The noise command on a valid grid, `SNR_DB` not finite (R200, R201). -/
theorem addNoiseBody_of_not_finite {s : State} (hvalid : s.status.genValid = true)
    (hsnr : F64.finite s.par.snrDb = false) : addNoiseBody s = copyWithoutNoise s := by
  simp [addNoiseBody, hvalid, hsnr]

/-- Settles O42: from an idle state `ADD_NOISE` is its body, which here is the copy; `N` fits the window of `RX`. -/
theorem nonFiniteSnrCopiesTheSignal : Obligations.NonFiniteSnrCopiesTheSignal := by
  refine ⟨by decide, fun s hinv hidle hvalid hsnr => ?_⟩
  have hexec : exec .addNoise s = .next (copyWithoutNoise s) :=
    calc exec .addNoise s = .next (addNoiseBody s) := exec_idle hidle (by decide)
      _ = .next (copyWithoutNoise s) := by rw [addNoiseBody_of_not_finite hvalid hsnr]
  obtain ⟨hcount, -, -⟩ := counts_bounds hinv
  refine ⟨copyWithoutNoise s, hexec, ?_, fun i hi => entry_copyWithoutNoise hcount hi, ?_, ?_, ?_, ?_, ?_⟩
  · rw [copyWithoutNoise_phase, hidle]
  · rw [copyWithoutNoise_fresh]
  · rw [copyWithoutNoise_der]
  · rw [copyWithoutNoise_der]
  · rw [copyWithoutNoise_status, Status.afterNoise]
  · rw [copyWithoutNoise_status, Status.afterNoise]

end Sys2Proof.Machine
end

section
/-! PROOFS. R350: a host write while a command runs. A write to a RW target or to `CMD` is turned into `ERR_BUSY`, `SOFT_RESET`
apart; a write to a RO target is nothing in any phase. -/

namespace Sys2Proof.Machine

/-! Writes to read-only targets, in every phase. -/

/-- A write to a RO register stores nothing (R36). -/
theorem writeReg_of_ro {r : Reg} (hr : IsRoRegister r) (v : Word) (s : State) : writeReg r v s = s := by
  rcases hr with rfl | rfl | rfl | rfl | rfl | rfl | rfl | rfl | rfl <;> rfl

/-- A write to an entry of a RO buffer stores nothing (R52, R53). -/
theorem writeEntry_of_ro {b : Buf} (hb : ¬IsRwBuffer b) (i : Nat) (v : Word) (s : State) : writeEntry b i v s = s := by
  cases b with
  | bits => exact absurd (.inl rfl) hb
  | rx => exact absurd (.inr rfl) hb
  | _ => rfl

/-- A host write at the offset of an entry of a window is a write to that entry if it exists, and to nothing otherwise (R82 to
R84). -/
theorem busAccess_write_entryAddr (b : Buf) {i : Nat} (hi : i < 65536) (v : Word) (s : State) :
    busAccess (writeAt (entryAddr b i) v) s =
      { writeTarget (if i < capacity s.conf b then .entry b i else .unmapped) v s with response := .done } := by
  rw [← targetOf_entryAddr s.conf b i hi]
  exact busAccess_write (entryAddr_lt hi) (entryAddr_aligned b i) v s

/-- A host write to a RO register is answered and ignored (R35). -/
theorem busAccess_write_of_ro_register {r : Reg} (hr : IsRoRegister r) (v : Word) (s : State) :
    busAccess (writeAt (regOffset r) v) s = { s with response := .done } := by
  rw [busAccess_write_regOffset, writeReg_of_ro hr]

/-- A host write in the window of a RO buffer is answered and ignored, whether or not its entry exists (R52, R53, R84). -/
theorem busAccess_write_of_ro_buffer {b : Buf} (hb : ¬IsRwBuffer b) {i : Nat} (hi : i < 65536) (v : Word) (s : State) :
    busAccess (writeAt (entryAddr b i) v) s = { s with response := .done } := by
  rw [busAccess_write_entryAddr b hi]
  split
  case isTrue => rw [writeTarget, writeEntry_of_ro hb]
  case isFalse => rw [writeTarget]

/-! Writes to `CMD`, to the RW registers and to the RW buffers while a command runs. -/

/-- A word that decodes to a command is that command's word (R112). -/
theorem eq_encode_of_decodeWord_ok {w : Word} {i : Instr} (h : decodeWord w = .ok i) : w = encode i := by
  have hmbz : w.toNat / 256 = 0 := mbz_eq_zero_of_decodeWord_ok h
  have hcode : w.toNat % 256 ≤ 7 := by
    by_contra hgt
    cases h.symm.trans (decodeWord_of_code_gt hmbz (not_le.1 hgt))
  obtain ⟨j, hj, hopcode⟩ := decodeWord_of_legal hmbz hcode
  cases h.symm.trans hj
  exact BitVec.eq_of_toNat_eq (by rw [toNat_encode]; omega)

section
variable {s : State} {m : Instr} (hbusy : s.phase = .busy m)
include hbusy

/-- A rejection while a command runs is `ERR_BUSY` (R270, R305). -/
theorem rejectWord_busy : rejectWord s = cmdError .busy s := by
  simp [rejectWord, hbusy, Phase.isBusy]

/-- While a command runs, `CMD` answers every word but the `SOFT_RESET` word with `ERR_BUSY`, legal or not (R270, R350). -/
theorem writeCmd_busy {w : Word} (hw : w ≠ encode .softReset) : writeCmd w s = cmdError .busy s := by
  rw [writeCmd]
  split
  next => exact rejectWord_busy hbusy
  next hreset => exact absurd (eq_encode_of_decodeWord_ok hreset) hw
  next => exact if_pos (by rw [hbusy]; rfl)

/-- While a command runs, a write to a RW register is `ERR_BUSY`; `NBITS` is not checked for its range first (R350). -/
theorem writeReg_busy {r : Reg} (hr : IsRwRegister r) (v : Word) : writeReg r v s = cmdError .busy s := by
  rcases hr with (rfl | rfl | rfl | rfl | rfl | rfl | rfl | rfl) | rfl | rfl <;> exact unlessBusy_busy hbusy

/-- While a command runs, a write to an entry of a RW buffer is `ERR_BUSY` (R350). -/
theorem writeEntry_busy {b : Buf} (hb : IsRwBuffer b) (i : Nat) (v : Word) : writeEntry b i v s = cmdError .busy s := by
  rcases hb with rfl | rfl <;> exact unlessBusy_busy hbusy

end

/-- Settles O26: by the class of the target. What is rejected is `cmdError .busy`, which changes `ERR` alone; `STATUS` and the
RO targets answer as they do in every phase. -/
theorem writesWhileBusyAreRejected : Obligations.WritesWhileBusyAreRejected := by
  intro s m v hbusy
  refine ⟨fun r hr => ?_, fun b i hb hcap hi => ?_, fun hv => ?_, busAccess_write_status v s,
    fun r hr => busAccess_write_of_ro_register hr v s, fun b i hb hi => busAccess_write_of_ro_buffer hb hi v s⟩
  · rw [busAccess_write_regOffset, writeReg_busy hbusy hr, cmdError]
  · rw [busAccess_write_entryAddr b hi, if_pos hcap, writeTarget, writeEntry_busy hbusy hb, cmdError]
  · calc busAccess (writeAt 0x010 v) s
        = { writeCmd v s with response := .done } := busAccess_write_regOffset .cmd v s
      _ = { cmdError .busy s with response := .done } := by rw [writeCmd_busy hbusy hv]

end Sys2Proof.Machine
end

section
/-! PROOFS. R87, R110 to R112: words and bytes decode to a command exactly when they encode it. -/

namespace Sys2Proof.Machine

/-- Settles O2: the decoder's two tests leave each command its own word. -/
theorem wordDecodesOnlyToItsCommand : Obligations.WordDecodesOnlyToItsCommand := by
  intro w i
  refine ⟨eq_encode_of_decodeWord_ok, ?_⟩
  rintro rfl
  exact decodeWord_encode i

/-- The bytes of a word made of eight bytes are these bytes, in their order (R87). -/
theorem wordBytes_wordOfBytes (b0 b1 b2 b3 b4 b5 b6 b7 : Byte) :
    wordBytes (wordOfBytes b0 b1 b2 b3 b4 b5 b6 b7) = [b0, b1, b2, b3, b4, b5, b6, b7] := by
  have h0 := b0.isLt; have h1 := b1.isLt; have h2 := b2.isLt; have h3 := b3.isLt
  have h4 := b4.isLt; have h5 := b5.isLt; have h6 := b6.isLt; have h7 := b7.isLt
  have hbytes : ∀ w : Word, wordBytes w =
      [BitVec.ofNat 8 (w.toNat / 256 ^ 0), BitVec.ofNat 8 (w.toNat / 256 ^ 1), BitVec.ofNat 8 (w.toNat / 256 ^ 2),
        BitVec.ofNat 8 (w.toNat / 256 ^ 3), BitVec.ofNat 8 (w.toNat / 256 ^ 4), BitVec.ofNat 8 (w.toNat / 256 ^ 5),
        BitVec.ofNat 8 (w.toNat / 256 ^ 6), BitVec.ofNat 8 (w.toNat / 256 ^ 7)] := fun _ => rfl
  rw [hbytes]
  simp only [wordOfBytes, List.cons.injEq, and_true]
  refine ⟨?_, ?_, ?_, ?_, ?_, ?_, ?_, ?_⟩ <;>
    (apply BitVec.eq_of_toNat_eq; simp only [BitVec.toNat_ofNat]; omega)

/-- The eight bytes of a word make it again (R87). -/
theorem wordOfBytes_of_wordBytes {w : Word} {b0 b1 b2 b3 b4 b5 b6 b7 : Byte}
    (h : wordBytes w = [b0, b1, b2, b3, b4, b5, b6, b7]) : wordOfBytes b0 b1 b2 b3 b4 b5 b6 b7 = w := by
  have hw := w.isLt
  cases h
  apply BitVec.eq_of_toNat_eq
  simp only [wordOfBytes, BitVec.toNat_ofNat]
  omega

/-- Bytes decode only if they are at least eight, the first eight making a command's word (R110). -/
theorem decodeBytes_ok {bytes rest : List Byte} {i : Instr} (h : decodeBytes bytes = .ok (i, rest)) :
    ∃ b0 b1 b2 b3 b4 b5 b6 b7, bytes = [b0, b1, b2, b3, b4, b5, b6, b7] ++ rest ∧
      decodeWord (wordOfBytes b0 b1 b2 b3 b4 b5 b6 b7) = .ok i := by
  unfold decodeBytes at h
  split at h
  next b0 b1 b2 b3 b4 b5 b6 b7 tail =>
    split at h
    next j hj =>
      cases h
      exact ⟨b0, b1, b2, b3, b4, b5, b6, b7, rfl, hj⟩
    next => cases h
  next => cases h

/-- Eight bytes and a rest decode as the word of the eight (R110). -/
theorem decodeBytes_append {w : Word} {i : Instr} (h : decodeWord w = .ok i) (rest : List Byte) :
    decodeBytes (wordBytes w ++ rest) = .ok (i, rest) := by
  obtain ⟨b0, b1, b2, b3, b4, b5, b6, b7, hb⟩ :
      ∃ b0 b1 b2 b3 b4 b5 b6 b7, wordBytes w = [b0, b1, b2, b3, b4, b5, b6, b7] := ⟨_, _, _, _, _, _, _, _, rfl⟩
  rw [hb]
  simp only [List.cons_append, List.nil_append, decodeBytes, wordOfBytes_of_wordBytes hb, h]

/-- Settles O3: what decodes is the eight bytes of a command's word, and a word is its bytes in both directions. -/
theorem bytesDecodeExactlyAsEncoded : Obligations.BytesDecodeExactlyAsEncoded := by
  intro bytes i rest
  constructor
  · intro h
    obtain ⟨b0, b1, b2, b3, b4, b5, b6, b7, rfl, hw⟩ := decodeBytes_ok h
    rw [encodeBytes, ← eq_encode_of_decodeWord_ok hw, wordBytes_wordOfBytes]
  · rintro rfl
    exact decodeBytes_append (decodeWord_encode i) rest

end Sys2Proof.Machine
end

section
/-! PROOFS. R139, R280: the invariant and the mapped memory. Every step is made of a few kinds of change of the state, and a
property that each kind keeps is kept by every step. -/

namespace Sys2Proof.Machine

/-! What a host write can do. -/

/-- The ways in which a write of `v` to a target changes a state `s` (R277, R350). -/
inductive WriteEffect (tgt : Target) (v : Word) (s : State) : State → Prop
  | nothing : WriteEffect tgt v s s
  | error (e : ErrCode) : WriteEffect tgt v s (cmdError e s)
  | clear : WriteEffect tgt v s (clearStatus s)
  | reset : tgt = .reg .cmd → v = encode .softReset → WriteEffect tgt v s (softReset s)
  | accept (m : Instr) : s.phase = .idle → m ≠ .softReset → WriteEffect tgt v s (accept m s)
  | ctrl (c : Ctrl) : s.phase = .idle → WriteEffect tgt v s { s with ctrl := c }
  | par (p : Params) : s.phase = .idle → p.nbits = s.par.nbits ∨ p.nbits.toNat ≤ s.conf.maxBits →
      WriteEffect tgt v s { s with par := p }
  | entry (b : Buf) (i : Nat) (w : Word) : s.phase = .idle → tgt = .entry b i →
      WriteEffect tgt v s (putEntry b i w s)

/-- A write that is rejected while a command runs has the effect it has while none does, or raises `ERR_BUSY`. -/
theorem WriteEffect.unlessBusy {tgt : Target} {v : Word} {s t : State}
    (h : s.phase = .idle → WriteEffect tgt v s t) : WriteEffect tgt v s (unlessBusy s t) := by
  cases hp : s.phase with
  | idle => rw [unlessBusy_idle hp]; exact h hp
  | busy m => rw [unlessBusy_busy hp]; exact .error .busy

theorem writeCmd_effect (w : Word) (s : State) : WriteEffect (.reg .cmd) w s (writeCmd w s) := by
  unfold writeCmd
  split
  next =>
    unfold rejectWord
    split <;> exact .error _
  next hw => exact .reset rfl (eq_encode_of_decodeWord_ok hw)
  next m hm hw =>
    cases hp : s.phase with
    | idle => exact .accept m hp hm
    | busy n => exact .error .busy

theorem writeNbits_effect {tgt : Target} {u : Word} (v : Word) {s : State} (h : s.phase = .idle) :
    WriteEffect tgt u s (writeNbits v s) := by
  unfold writeNbits
  split
  next hle => exact .par _ h (.inr hle)
  next => exact .error .range

theorem writeReg_effect (r : Reg) (v : Word) (s : State) : WriteEffect (.reg r) v s (writeReg r v s) := by
  cases r with
  | cmd => exact writeCmd_effect v s
  | status => exact .clear
  | ctrl => exact .unlessBusy fun h => .ctrl _ h
  | nbits => exact .unlessBusy fun h => writeNbits_effect v h
  | amp | fs | duration | bitrate | fc | f0 | f1 | snrDb => exact .unlessBusy fun h => .par _ h (.inl rfl)
  | id | n | spb | ndec | fsEff | durEff | ampEff | psig | sigma => exact .nothing

theorem writeTarget_effect (tgt : Target) (v : Word) (s : State) : WriteEffect tgt v s (writeTarget tgt v s) := by
  cases tgt with
  | reg r => exact writeReg_effect r v s
  | unmapped => exact .nothing
  | entry b i =>
    by_cases hb : IsRwBuffer b
    · rcases hb with rfl | rfl <;> exact .unlessBusy fun h => .entry _ i _ h rfl
    · rw [writeTarget, writeEntry_of_ro hb]; exact .nothing

/-- An offset selects no entry beyond a capacity (R84). -/
theorem lt_capacity_of_targetOf {c : Conf} {o : Nat} {b : Buf} {i : Nat} (h : targetOf c o = .entry b i) :
    i < capacity c b := by
  unfold targetOf at h
  split at h
  · cases h
  · split at h
    · split at h
      next hlt => cases h; exact hlt
      next => cases h
    · cases h

/-- What a bus transaction can do (R85, R86, R277, R300). -/
theorem busAccess_cases (a : Access) (s : State) :
    (a.wellFormed = false ∧ busAccess a s = { s with response := .busError a.offset }) ∨
      (a.wellFormed = true ∧ a.dir = .read ∧ ∃ k, busAccess a s =
        { s with
          response := .data (readData s (targetOf s.conf a.offset.toNat))
          fresh := { s.fresh with reads := k } }) ∨
      ∃ v, a.wellFormed = true ∧ a.dir = .write v ∧
        busAccess a s = { writeTarget (targetOf s.conf a.offset.toNat) v s with response := .done } := by
  cases hwf : a.wellFormed with
  | false => exact .inl ⟨rfl, busAccess_malformed (Bool.eq_false_iff.1 hwf) s⟩
  | true =>
    refine .inr ?_
    unfold busAccess
    cases a.dir with
    | read =>
      obtain ⟨k, hk⟩ := countRead_eq s (targetOf s.conf a.offset.toNat)
      exact .inl ⟨rfl, rfl, k, by simp only [hwf, hk, Bool.not_true, Bool.false_eq_true, if_false]⟩
    | write v => exact .inr ⟨v, rfl, rfl, by simp only [hwf, Bool.not_true, Bool.false_eq_true, if_false]⟩

/-! What a whole step can do. -/

/-- A state property that every kind of change of the state keeps, the advance of the agenda apart. -/
structure KeptByMoves (P : State → Prop) : Prop where
  answer : ∀ s r k, P s → P { s with response := r, fresh := { s.fresh with reads := k } }
  error : ∀ e s, P s → P (cmdError e s)
  clear : ∀ s, P s → P (clearStatus s)
  accept : ∀ m s, m ≠ .softReset → s.inReset = false → P s → P (accept m s)
  ctrl : ∀ c s, P s → P { s with ctrl := c }
  par : ∀ p s, p.nbits = s.par.nbits ∨ p.nbits.toNat ≤ s.conf.maxBits → P s → P { s with par := p }
  entry : ∀ b i w s, i < capacity s.conf b → P s → P (putEntry b i w s)
  body : ∀ m s, P s → P (commandBody m s)
  finish : ∀ s, P s → P (endCommand s)
  abort : ∀ s, P s → P (abort s)
  registers : ∀ s, P s → P (resetRegisters s)
  assert : ∀ s, s.phase = .idle → P s → P { s with inReset := true }
  release : ∀ s, P s → P (hardReset s)

namespace KeptByMoves
variable {P : State → Prop} (hP : KeptByMoves P)
include hP

theorem softReset {s : State} (h : P s) : P (softReset s) := hP.registers _ (hP.abort s h)

theorem response (r : Response) {s : State} (h : P s) : P { s with response := r } :=
  hP.answer s r s.fresh.reads h

theorem write {o : Nat} (v : Word) {s : State} (hr : s.inReset = false) (h : P s) :
    P (writeTarget (targetOf s.conf o) v s) := by
  have heff := writeTarget_effect (targetOf s.conf o) v s
  generalize writeTarget (targetOf s.conf o) v s = t at heff
  cases heff with
  | nothing => exact h
  | error e => exact hP.error e s h
  | clear => exact hP.clear s h
  | reset => exact hP.softReset h
  | accept m _ hm => exact hP.accept m s hm hr h
  | ctrl c => exact hP.ctrl c s h
  | par p _ hp => exact hP.par p s hp h
  | entry b i w _ hb => exact hP.entry b i w s (lt_capacity_of_targetOf hb) h

theorem busAccess (a : Access) {s : State} (hr : s.inReset = false) (h : P s) : P (busAccess a s) := by
  rcases busAccess_cases a s with ⟨-, he⟩ | ⟨-, -, k, he⟩ | ⟨v, -, -, he⟩ <;> rw [he]
  · exact hP.response _ h
  · exact hP.answer s _ k h
  · exact hP.response _ (hP.write v hr h)

theorem exec {i : Instr} {s t : State} (h : P s) (ht : exec i s = .next t) : P t := by
  by_cases hi : i = .softReset
  · subst hi
    cases ht
    exact hP.softReset h
  · cases hp : s.phase with
    | idle =>
      cases (exec_idle hp hi).symm.trans ht
      exact hP.body i s h
    | busy m =>
      cases (exec_busy hp hi).symm.trans ht
      exact hP.error .busy s h

theorem sequencerMove {s : State} (h : P s) : P (sequencerMove s) := by
  unfold Machine.sequencerMove
  split
  · exact h
  · exact hP.finish _ (hP.body _ _ h)

theorem rejectWord {s : State} (h : P s) : P (rejectWord s) := by
  unfold Machine.rejectWord
  split <;> exact hP.error _ s h

theorem turn {x : Turn} {s t : State} (h : P s) (ht : turn x s = .next t) : P t := by
  rcases turn_cases ht with ⟨a, -, hr, rfl⟩ | ⟨p, -, -, rfl⟩ | ⟨w, i, -, -, -, he⟩ | ⟨w, e, -, -, -, rfl⟩ | ⟨-, rfl⟩ |
    ⟨-, rfl⟩ | ⟨-, rfl⟩
  · exact hP.busAccess a hr h
  · exact hP.response _ h
  · exact hP.exec (hP.response .done h) he
  · exact hP.rejectWord (hP.response .done h)
  · exact hP.sequencerMove h
  · exact hP.assert _ (abort_keeps s).1 (hP.abort s h)
  · unfold releaseReset
    split
    · exact hP.release s h
    · exact h

/-- Every step keeps what every kind of change and the advance of the agenda keep. -/
theorem step (hagenda : ∀ s a, P s → P { s with agenda := a }) {s t : State} (h : P s) (ht : step s = .next t) :
    P t := by
  rcases step_cases ht with ⟨-, rfl⟩ | ⟨x, rest, -, hx⟩
  · exact hP.sequencerMove h
  · exact hP.turn (hagenda s rest h) hx

end KeptByMoves

/-! The invariant. -/

/-- The invariant speaks of the capacities, the memory, `NBITS`, the three counts, the validity flags, the phase and the
reset input alone. -/
theorem State.Inv.of_same_counts {s t : State} (h : s.Inv) (hconf : t.conf = s.conf)
    (hmem : Memory.wf t.mem = true) (hnbits : t.par.nbits = s.par.nbits)
    (hcounts : sampleCount t = sampleCount s ∧ samplesPerBit t = samplesPerBit s ∧ decisionCount t = decisionCount s)
    (hvalid : t.status.genValid = s.status.genValid) (hnoisy : t.status.noisy = true → t.status.genValid = true)
    (hdemod : t.status.demodValid = true → t.status.genValid = true) (hphase : t.phase = s.phase)
    (hreset : t.inReset = s.inReset) : t.Inv := by
  obtain ⟨hn, hspb, hndec⟩ := hcounts
  constructor
  case conf_legal => rw [hconf]; exact h.conf_legal
  case mem_wf => exact hmem
  case nbits_le => rw [hconf, hnbits]; exact h.nbits_le
  case samples_le => rw [hconf, hn]; exact h.samples_le
  case spb_le => rw [hspb, hn]; exact h.spb_le
  case ndec_eq => rw [hndec, hn, hspb]; exact h.ndec_eq
  case grid_pos => rw [hvalid, hspb]; exact h.grid_pos
  case noisy_valid => exact hnoisy
  case demod_valid => exact hdemod
  case phase_legal => rw [hphase]; exact h.phase_legal
  case reset_idle => rw [hreset, hphase]; exact h.reset_idle

theorem Inv_cmdError (e : ErrCode) {s : State} (h : s.Inv) : (cmdError e s).Inv :=
  h.of_same_counts rfl h.mem_wf rfl ⟨rfl, rfl, rfl⟩ rfl h.noisy_valid h.demod_valid rfl rfl

/-- A generate's commit keeps the invariant: its counts are those of a grid that fits (R138, R139). -/
theorem Inv_of_generated {s t : State} {g : Grid} {sch : Scheme} {c : Bool} (h : s.Inv) (hg : grid s = some g)
    (hconf : t.conf = s.conf) (hmem : Memory.wf t.mem = true)
    (hpar : t.par = if s.par.nbits.toNat = 0 then { s.par with nbits := 4 } else s.par) (hder : t.der = g.derived)
    (hstatus : t.status = s.status.afterGenerate sch c) (hphase : t.phase = s.phase)
    (hreset : t.inReset = s.inReset) : t.Inv := by
  obtain ⟨-, -, -, -, hn, -, hspb, hspbn, hndec, -, -⟩ := grid_bounds h hg
  obtain ⟨en, espb, endec⟩ := derived_counts h hg
  have en' : sampleCount t = g.n := by rw [sampleCount, hder, en]
  have espb' : samplesPerBit t = g.spb := by rw [samplesPerBit, hder, espb]
  have endec' : decisionCount t = g.ndec := by rw [decisionCount, hder, endec]
  have hvalid : t.status.genValid = true := by rw [hstatus]; rfl
  constructor
  case conf_legal => rw [hconf]; exact h.conf_legal
  case mem_wf => exact hmem
  case nbits_le =>
    have hc := conf_bounds h
    rw [hconf, hpar]
    split
    · exact hc.2.2.1
    · exact h.nbits_le
  case samples_le => rw [hconf, en']; exact hn
  case spb_le => rw [espb', en']; exact hspbn
  case ndec_eq => rw [endec', en', espb']; exact hndec
  case grid_pos => rw [espb']; exact fun _ => hspb
  case noisy_valid => exact fun _ => hvalid
  case demod_valid => exact fun _ => hvalid
  case phase_legal => rw [hphase]; exact h.phase_legal
  case reset_idle => rw [hreset, hphase]; exact h.reset_idle

theorem Inv_genBpskBody {s : State} (h : s.Inv) : (genBpskBody s).Inv := by
  cases hg : grid s with
  | none => simp only [genBpskBody, hg]; exact Inv_cmdError .size h
  | some g =>
    obtain ⟨hconf, -, hreset, -, -, hphase⟩ := commandBody_keeps .genBpsk s
    obtain ⟨hder, hpar, hstatus, -⟩ := genBpskBody_registers hg
    exact Inv_of_generated h hg hconf ((genBpskBody_writes hg).2.1 h.mem_wf) hpar hder hstatus hphase hreset

theorem Inv_genFskBody {s : State} (h : s.Inv) : (genFskBody s).Inv := by
  cases hg : grid s with
  | none => simp only [genFskBody, hg]; exact Inv_cmdError .size h
  | some g =>
    obtain ⟨hconf, -, hreset, -, -, hphase⟩ := commandBody_keeps .genFsk s
    obtain ⟨hder, hpar, hstatus, -⟩ := genFskBody_registers hg
    exact Inv_of_generated h hg hconf ((genFskBody_writes hg).2.1 h.mem_wf) hpar hder hstatus hphase hreset

/-- The commands that need a grid raise `ERR_NO_DATA` and do nothing else without one (R145). -/
theorem commandBody_of_no_grid {s : State} (h : s.status.genValid = false) {i : Instr}
    (hi : i = .addNoise ∨ i = .demodBpsk ∨ i = .demodFsk) : commandBody i s = cmdError .noData s := by
  rcases hi with rfl | rfl | rfl
  · simp only [commandBody, addNoiseBody, h, Bool.not_false, if_true]
  · simp only [commandBody, demodBpskBody, h, Bool.not_false, if_true]
  · simp only [commandBody, demodFskBody, h, Bool.not_false, if_true]

theorem Inv_addNoiseBody {s : State} (h : s.Inv) : (addNoiseBody s).Inv := by
  cases hv : s.status.genValid with
  | false =>
    have hbody : addNoiseBody s = cmdError .noData s := commandBody_of_no_grid hv (.inl rfl)
    rw [hbody]
    exact Inv_cmdError .noData h
  | true =>
    obtain ⟨hconf, -, hreset, -, -, hphase⟩ := commandBody_keeps .addNoise s
    obtain ⟨hpar, hstatus, hn, hspb, hndec, -⟩ := addNoiseBody_registers hv
    have hvalid : (addNoiseBody s).status.genValid = true := by rw [hstatus]; exact hv
    exact h.of_same_counts hconf ((addNoiseBody_writes s).2.1 h.mem_wf) (by rw [hpar]) ⟨hn, hspb, hndec⟩
      (hvalid.trans hv.symm) (fun _ => hvalid) (fun _ => hvalid) hphase hreset

/-- A demodulation's end keeps the invariant (R49, R130). -/
theorem Inv_of_demodulated {s t : State} {sch : Scheme} {c : Bool} (h : s.Inv) (hv : s.status.genValid = true)
    (hmem : Memory.wf t.mem = true)
    (hkeep : t.der = s.der ∧ t.par = s.par ∧ t.status = s.status.afterDemod sch c ∧
      t.fresh = { s.fresh with nans := s.fresh.nans + 1 })
    (hconf : t.conf = s.conf) (hphase : t.phase = s.phase) (hreset : t.inReset = s.inReset) : t.Inv := by
  obtain ⟨hder, hpar, hstatus, -⟩ := hkeep
  have hvalid : t.status.genValid = true := by rw [hstatus]; exact hv
  refine h.of_same_counts hconf hmem (by rw [hpar]) ?_ (hvalid.trans hv.symm) (fun _ => hvalid) (fun _ => hvalid)
    hphase hreset
  simp only [sampleCount, samplesPerBit, decisionCount, hder, and_self]

theorem Inv_demodBpskBody {s : State} (h : s.Inv) : (demodBpskBody s).Inv := by
  cases hv : s.status.genValid with
  | false =>
    have hbody : demodBpskBody s = cmdError .noData s := commandBody_of_no_grid hv (.inr (.inl rfl))
    rw [hbody]
    exact Inv_cmdError .noData h
  | true =>
    obtain ⟨hconf, -, hreset, -, -, hphase⟩ := commandBody_keeps .demodBpsk s
    exact Inv_of_demodulated h hv ((demodBpskBody_writes s).2.1 h.mem_wf) (demodBpskBody_registers hv) hconf hphase
      hreset

theorem Inv_demodFskBody {s : State} (h : s.Inv) : (demodFskBody s).Inv := by
  cases hv : s.status.genValid with
  | false =>
    have hbody : demodFskBody s = cmdError .noData s := commandBody_of_no_grid hv (.inr (.inr rfl))
    rw [hbody]
    exact Inv_cmdError .noData h
  | true =>
    obtain ⟨hconf, -, hreset, -, -, hphase⟩ := commandBody_keeps .demodFsk s
    exact Inv_of_demodulated h hv ((demodFskBody_writes s).2.1 h.mem_wf) (demodFskBody_registers hv) hconf hphase
      hreset

/-- `RUN` on a grid is its three phases (R272). -/
theorem runBody_bpsk {s : State} {g : Grid} (h : grid s = some g) (hs : s.ctrl.scheme = .bpsk) :
    runBody s = demodBpskBody (addNoiseBody (genBpskBody s)) := by
  simp only [runBody, h, hs]

theorem runBody_fsk {s : State} {g : Grid} (h : grid s = some g) (hs : s.ctrl.scheme = .fsk) :
    runBody s = demodFskBody (addNoiseBody (genFskBody s)) := by
  simp only [runBody, h, hs]

theorem Inv_runBody {s : State} (h : s.Inv) : (runBody s).Inv := by
  cases hg : grid s with
  | none => simp only [runBody, hg]; exact Inv_cmdError .size h
  | some g =>
    cases hs : s.ctrl.scheme with
    | bpsk => rw [runBody_bpsk hg hs]; exact Inv_demodBpskBody (Inv_addNoiseBody (Inv_genBpskBody h))
    | fsk => rw [runBody_fsk hg hs]; exact Inv_demodFskBody (Inv_addNoiseBody (Inv_genFskBody h))

/-- Every command's body keeps the invariant. -/
theorem Inv_commandBody (m : Instr) {s : State} (h : s.Inv) : (commandBody m s).Inv := by
  cases m with
  | nop => exact h
  | genBpsk => exact Inv_genBpskBody h
  | genFsk => exact Inv_genFskBody h
  | addNoise => exact Inv_addNoiseBody h
  | demodBpsk => exact Inv_demodBpskBody h
  | demodFsk => exact Inv_demodFskBody h
  | run => exact Inv_runBody h
  | softReset => exact h

/-- The registers of R60 meet the invariant on any legal machine whose memory is canonical. -/
theorem Inv_of_reset_registers {t : State} (hconf : t.conf.legal = true) (hmem : Memory.wf t.mem = true)
    (hstatus : t.status = Status.reset) (hpar : t.par = Params.reset) (hder : t.der = Derived.reset)
    (hphase : t.phase = .idle) : t.Inv := by
  have hcounts : sampleCount t = 0 ∧ samplesPerBit t = 0 ∧ decisionCount t = 0 := by
    simp only [sampleCount, samplesPerBit, decisionCount, hder]
    decide
  obtain ⟨hn, hspb, hndec⟩ := hcounts
  constructor
  case conf_legal => exact hconf
  case mem_wf => exact hmem
  case nbits_le => rw [hpar]; exact Nat.zero_le _
  case samples_le => rw [hn]; exact Nat.zero_le _
  case spb_le => rw [hspb]; exact Nat.zero_le _
  case ndec_eq => rw [hndec, hn]; exact (Nat.zero_div _).symm
  case grid_pos => rw [hstatus]; exact nofun
  case noisy_valid => rw [hstatus]; exact nofun
  case demod_valid => rw [hstatus]; exact nofun
  case phase_legal => rw [hphase]; exact nofun
  case reset_idle => exact fun _ => hphase

theorem Inv_abort {s : State} (h : s.Inv) : (abort s).Inv := by
  obtain ⟨hphase, hconf, -, hstatus, hpar, hder, hreset, -, -⟩ := abort_keeps s
  have hidle : ({ s with phase := .idle } : State).Inv := { h with phase_legal := nofun, reset_idle := fun _ => rfl }
  refine hidle.of_same_counts hconf (wf_abort h.mem_wf) (by rw [hpar]) ?_ (by rw [hstatus]) ?_ ?_ hphase hreset
  · simp only [sampleCount, samplesPerBit, decisionCount, hder, and_self]
  · rw [hstatus]; exact h.noisy_valid
  · rw [hstatus]; exact h.demod_valid

/-- Each kind of change keeps the invariant. -/
theorem Inv_kept : KeptByMoves State.Inv where
  answer _ _ _ h := { h with }
  error e _ h := Inv_cmdError e h
  clear _ h := { h with }
  accept m _ hm hr h :=
    { h with
      phase_legal := fun hp => hm (by cases hp; rfl)
      reset_idle := fun hr' => absurd (hr.symm.trans hr') Bool.false_ne_true }
  ctrl _ _ h := { h with }
  par p s hp h := { h with nbits_le := hp.elim (fun he => he ▸ h.nbits_le) id }
  entry b i w _ _ h := { h with mem_wf := Memory.wf_putWord _ w h.mem_wf }
  body m _ h := Inv_commandBody m h
  finish _ h := { h with phase_legal := nofun, reset_idle := fun _ => rfl }
  abort _ h := Inv_abort h
  registers _ h := Inv_of_reset_registers h.conf_legal h.mem_wf rfl rfl rfl rfl
  assert _ hidle h := { h with reset_idle := fun _ => hidle }
  release _ h := Inv_of_reset_registers h.conf_legal rfl rfl rfl rfl rfl

/-- No kind of change touches the parameters of R7. -/
theorem conf_kept (c : Conf) : KeptByMoves fun s => s.conf = c where
  answer _ _ _ h := h
  error _ _ h := h
  clear _ h := h
  accept _ _ _ _ h := h
  ctrl _ _ h := h
  par _ _ _ h := h
  entry _ _ _ _ _ h := h
  body m s h := (commandBody_keeps m s).1.trans h
  finish _ h := h
  abort s h := (abort_keeps s).2.1.trans h
  registers _ h := h
  assert _ _ h := h
  release _ h := h

/-- Settles O11: each kind of change keeps the invariant and the parameters. -/
theorem stepKeepsTheInvariant : Obligations.StepKeepsTheInvariant := fun s _ hinv hstep =>
  ⟨Inv_kept.step (fun _ _ h => { h with }) hinv hstep, (conf_kept s.conf).step (fun _ _ h => h) rfl hstep⟩

end Sys2Proof.Machine
end

section
/-! PROOFS. R55, R84, R280: what a command, an abort or the host writes lies in entries that exist. -/

namespace Sys2Proof.Machine

/-! Footprints within the capacities. -/

/-- The listed entries all exist on a machine with parameters `c` (R55). -/
def Fits (c : Conf) (rs : List (Buf × Nat)) : Prop := ∀ r ∈ rs, r.2 ≤ capacity c r.1

theorem Fits.append {c : Conf} {p q : List (Buf × Nat)} (hp : Fits c p) (hq : Fits c q) : Fits c (p ++ q) :=
  fun r hr => (List.mem_append.1 hr).elim (hp r) (hq r)

/-- A covered byte belongs to one of the listed entries. -/
theorem exists_entry_of_coveredBy {rs : List (Buf × Nat)} {a : Nat} (h : coveredBy rs a = true) :
    ∃ r ∈ rs, ∃ i, i < r.2 ∧ entryAddr r.1 i ≤ a ∧ a < entryAddr r.1 i + 8 := by
  obtain ⟨⟨b, n⟩, hr, ha⟩ := List.any_eq_true.1 h
  rw [Bool.and_eq_true, decide_eq_true_eq, decide_eq_true_eq] at ha
  refine ⟨(b, n), hr, (a - window b) / 8, ?_⟩
  dsimp only [entryAddr] at *
  omega

/-- What writes only entries that exist keeps the memory inside the entries that exist. -/
theorem MemoryMapped_of_writesWithin {rs : List (Buf × Nat)} {s t : State} (h : s.MemoryMapped)
    (hw : WritesWithin rs s t) (hfit : Fits s.conf rs) (hconf : t.conf = s.conf) : t.MemoryMapped := by
  obtain ⟨-, -, hcells, -⟩ := hw
  intro c hc
  rw [hconf]
  rcases hcells c hc with hold | hnew
  · exact h c hold
  · obtain ⟨r, hr, i, hi, hin⟩ := exists_entry_of_coveredBy hnew
    exact ⟨r.1, i, hi.trans_le (hfit r hr), hin⟩

theorem fits_generateWrites {s : State} (h : s.Inv) : Fits s.conf (generateWrites s) := by
  intro r hr
  unfold generateWrites at hr
  split at hr
  next => cases hr
  next g hg =>
    obtain ⟨-, hnb, -, -, hn, -⟩ := grid_bounds h hg
    simp only [List.mem_cons, List.not_mem_nil, or_false] at hr
    rcases hr with rfl | rfl | rfl | rfl | rfl | rfl
    exacts [hn, hn, hn, hn, hn, Nat.succ_le_succ hnb]

theorem fits_fallback {s : State} (h : s.Inv) : Fits s.conf [(.bits, 4)] := by
  intro r hr
  obtain rfl := List.mem_singleton.1 hr
  exact (conf_bounds h).2.2.1

theorem fits_nil (c : Conf) : Fits c [] := fun _ hr => nomatch hr

theorem fits_demodWrites {c : Conf} (sch : Scheme) {n ndec : Nat} (hn : n ≤ c.maxSamples) (hndec : ndec ≤ n) :
    Fits c (demodWrites sch n ndec) := by
  intro r hr
  cases sch with
  | bpsk =>
    simp only [demodWrites, List.mem_cons, List.not_mem_nil, or_false] at hr
    rcases hr with rfl | rfl | rfl | rfl | rfl <;> simp only [capacity] <;> omega
  | fsk =>
    simp only [demodWrites, List.mem_cons, List.not_mem_nil, or_false] at hr
    rcases hr with rfl | rfl | rfl | rfl <;> simp only [capacity] <;> omega

theorem fits_generateEntries {s : State} {g : Grid} (h : s.Inv) (hg : grid s = some g) :
    Fits s.conf (generateEntries s g) := by
  have hgen := fits_generateWrites h
  rw [generateWrites, hg] at hgen
  refine hgen.append ?_
  unfold fallbackEntries
  split
  · exact fits_fallback h
  · exact fits_nil _

theorem fits_bufferWrites (m : Instr) {s : State} (h : s.Inv) : Fits s.conf (bufferWrites m s) := by
  have hndec := (counts_bounds h).2.1
  cases m with
  | nop | softReset => exact fits_nil _
  | genBpsk | genFsk => exact fits_generateWrites h
  | addNoise =>
    simp only [bufferWrites]
    split
    · intro r hr
      obtain rfl := List.mem_singleton.1 hr
      exact h.samples_le
    · exact fits_nil _
  | demodBpsk | demodFsk =>
    simp only [bufferWrites]
    split
    · exact fits_demodWrites _ h.samples_le hndec
    · exact fits_nil _
  | run =>
    simp only [bufferWrites]
    split
    next => exact fits_nil _
    next g hg =>
      obtain ⟨-, -, -, -, hn, -, -, -, -, -, hnd⟩ := grid_bounds h hg
      exact (fits_generateWrites h).append (fits_demodWrites _ hn hnd)

/-! Commands. -/

theorem MemoryMapped_genBpskBody {s : State} (h : s.Inv) (hm : s.MemoryMapped) : (genBpskBody s).MemoryMapped := by
  cases hg : grid s with
  | none => simp only [genBpskBody, hg]; exact hm
  | some g =>
    exact MemoryMapped_of_writesWithin hm (genBpskBody_writes hg) (fits_generateEntries h hg)
      (commandBody_keeps .genBpsk s).1

theorem MemoryMapped_genFskBody {s : State} (h : s.Inv) (hm : s.MemoryMapped) : (genFskBody s).MemoryMapped := by
  cases hg : grid s with
  | none => simp only [genFskBody, hg]; exact hm
  | some g =>
    exact MemoryMapped_of_writesWithin hm (genFskBody_writes hg) (fits_generateEntries h hg)
      (commandBody_keeps .genFsk s).1

theorem MemoryMapped_addNoiseBody {s : State} (h : s.Inv) (hm : s.MemoryMapped) : (addNoiseBody s).MemoryMapped := by
  refine MemoryMapped_of_writesWithin hm (addNoiseBody_writes s) (fun r hr => ?_) (commandBody_keeps .addNoise s).1
  obtain rfl := List.mem_singleton.1 hr
  exact h.samples_le

theorem MemoryMapped_demodBpskBody {s : State} (h : s.Inv) (hm : s.MemoryMapped) :
    (demodBpskBody s).MemoryMapped :=
  MemoryMapped_of_writesWithin hm (demodBpskBody_writes s) (fits_demodWrites .bpsk h.samples_le (counts_bounds h).2.1)
    (commandBody_keeps .demodBpsk s).1

theorem MemoryMapped_demodFskBody {s : State} (h : s.Inv) (hm : s.MemoryMapped) : (demodFskBody s).MemoryMapped :=
  MemoryMapped_of_writesWithin hm (demodFskBody_writes s) (fits_demodWrites .fsk h.samples_le (counts_bounds h).2.1)
    (commandBody_keeps .demodFsk s).1

theorem MemoryMapped_runBody {s : State} (h : s.Inv) (hm : s.MemoryMapped) : (runBody s).MemoryMapped := by
  cases hg : grid s with
  | none => simp only [runBody, hg]; exact hm
  | some g =>
    cases hs : s.ctrl.scheme with
    | bpsk =>
      have hgen := Inv_genBpskBody h
      rw [runBody_bpsk hg hs]
      exact MemoryMapped_demodBpskBody (Inv_addNoiseBody hgen)
        (MemoryMapped_addNoiseBody hgen (MemoryMapped_genBpskBody h hm))
    | fsk =>
      have hgen := Inv_genFskBody h
      rw [runBody_fsk hg hs]
      exact MemoryMapped_demodFskBody (Inv_addNoiseBody hgen)
        (MemoryMapped_addNoiseBody hgen (MemoryMapped_genFskBody h hm))

theorem MemoryMapped_commandBody (m : Instr) {s : State} (h : s.Inv) (hm : s.MemoryMapped) :
    (commandBody m s).MemoryMapped := by
  cases m with
  | nop => exact hm
  | genBpsk => exact MemoryMapped_genBpskBody h hm
  | genFsk => exact MemoryMapped_genFskBody h hm
  | addNoise => exact MemoryMapped_addNoiseBody h hm
  | demodBpsk => exact MemoryMapped_demodBpskBody h hm
  | demodFsk => exact MemoryMapped_demodFskBody h hm
  | run => exact MemoryMapped_runBody h hm
  | softReset => exact hm

/-! Abort. -/

theorem scramble_writes (s : State) (rs : List (Buf × Nat)) : WritesWithin rs s (scramble s rs) := by
  induction rs with
  | nil => exact .same rfl rfl
  | cons r rs ih =>
    obtain ⟨b, n⟩ := r
    refine (ih.mono fun a ha => ?_).andFill b _ n fun a ha => ?_
    · rw [coveredBy_cons, ha, Bool.or_true]
    · rw [coveredBy_cons, coveredBy_nil, Bool.or_false] at ha
      rw [coveredBy_cons, ha, Bool.true_or]

theorem maybeFallback_writes (m : Instr) (s : State) : WritesWithin (fallbackWrites m s) s (maybeFallback m s) := by
  unfold maybeFallback fallbackWrites
  cases writesFallback m s with
  | false => exact .same rfl rfl
  | true =>
    cases Config.abortCommitsFallback s.fresh.aborts with
    | false => exact .same rfl rfl
    | true => exact .fill _ _ _ s

/-- An abort's bytes are its scrambled buffers, after the fallback (R276, R341). -/
theorem readByte_abort {s : State} {m : Instr} (h : s.phase = .busy m) (a : Nat) :
    readByte (abort s) a = readByte (scramble (maybeFallback m s) (bufferWrites m s)) a := by
  unfold abort
  rw [h]
  exact readByte_congr rfl rfl a

/-- An abort writes no byte but those of the entries of the command it stops (R276, R341). -/
theorem abort_writes {s : State} {m : Instr} (h : s.phase = .busy m) :
    WritesWithin (bufferWrites m s ++ fallbackWrites m s) s (abort s) := by
  have hf : WritesWithin (bufferWrites m s ++ fallbackWrites m s) s (maybeFallback m s) :=
    (maybeFallback_writes m s).mono fun a ha => by rw [coveredBy_append, ha, Bool.or_true]
  have hb : WritesWithin (bufferWrites m s ++ fallbackWrites m s) s
      (scramble (maybeFallback m s) (bufferWrites m s)) :=
    hf.trans ((scramble_writes _ _).mono fun a ha => by rw [coveredBy_append, ha, Bool.true_or])
  refine hb.andSame ?_ ?_ <;> (unfold abort; rw [h])

theorem MemoryMapped_abort {s : State} (h : s.Inv) (hm : s.MemoryMapped) : (abort s).MemoryMapped := by
  cases hp : s.phase with
  | idle => unfold abort; rw [hp]; exact hm
  | busy m =>
    refine MemoryMapped_of_writesWithin hm (abort_writes hp) ((fits_bufferWrites m h).append ?_) (abort_keeps s).2.1
    unfold fallbackWrites
    split
    · exact fits_fallback h
    · exact fits_nil _

/-! Steps. -/

/-- Each kind of change keeps the invariant and the memory inside the entries that exist. -/
theorem MemoryMapped_kept : KeptByMoves fun s => s.Inv ∧ s.MemoryMapped where
  answer s r k h := ⟨Inv_kept.answer s r k h.1, h.2⟩
  error e s h := ⟨Inv_kept.error e s h.1, h.2⟩
  clear s h := ⟨Inv_kept.clear s h.1, h.2⟩
  accept m s hm hr h := ⟨Inv_kept.accept m s hm hr h.1, h.2⟩
  ctrl c s h := ⟨Inv_kept.ctrl c s h.1, h.2⟩
  par p s hp h := ⟨Inv_kept.par p s hp h.1, h.2⟩
  entry b i w s hi h :=
    ⟨Inv_kept.entry b i w s hi h.1, fun c hc =>
      (Memory.mem_putWord hc).elim (fun hin => ⟨b, i, hi, hin⟩) (h.2 c)⟩
  body m _ h := ⟨Inv_commandBody m h.1, MemoryMapped_commandBody m h.1 h.2⟩
  finish s h := ⟨Inv_kept.finish s h.1, h.2⟩
  abort _ h := ⟨Inv_abort h.1, MemoryMapped_abort h.1 h.2⟩
  registers s h := ⟨Inv_kept.registers s h.1, h.2⟩
  assert s hidle h := ⟨Inv_kept.assert s hidle h.1, h.2⟩
  release s h := ⟨Inv_kept.release s h.1, fun _ hc => nomatch hc⟩

/-- Settles O12: each kind of change writes only entries that exist. -/
theorem stepKeepsMemoryInsideBuffers : Obligations.StepKeepsMemoryInsideBuffers := fun _ _ hinv hmapped hstep =>
  (MemoryMapped_kept.step (fun _ _ h => ⟨{ h.1 with }, h.2⟩) ⟨hinv, hmapped⟩ hstep).2

end Sys2Proof.Machine
end

section
/-! PROOFS. R60, R275, R276, R340 to R342: hardware reset, `SOFT_RESET` and the abort of a running command. -/

namespace Sys2Proof.Machine

/-- The register table of R60 holds wherever the register fields have their reset values. -/
theorem regValue_of_reset {t : State} (hctrl : t.ctrl = Ctrl.reset) (hstatus : t.status = Status.reset)
    (hpar : t.par = Params.reset) (hder : t.der = Derived.reset) (hphase : t.phase = .idle) (r : Reg) :
    regValue t r = resetTable r := by
  cases r <;> simp only [regValue, hctrl, hstatus, hpar, hder, hphase] <;> rfl

theorem regValue_hardReset (s : State) (r : Reg) : regValue (hardReset s) r = resetTable r :=
  regValue_of_reset rfl rfl rfl rfl rfl r

/-- Settles O13: all three states have the register fields of R60. -/
theorem registersAfterReset : Obligations.RegistersAfterReset :=
  ⟨fun _ r => regValue_of_reset rfl rfl rfl rfl rfl r, fun s =>
    ⟨regValue_hardReset s, rfl, softReset s, rfl, rfl, fun r => regValue_of_reset rfl rfl rfl rfl rfl r⟩⟩

/-- Settles O10: the registers of R60 with no memory meet the invariant on every legal machine. -/
theorem resetStateIsLegal : Obligations.ResetStateIsLegal := by
  intro c hc
  refine ⟨Inv_of_reset_registers hc rfl rfl rfl rfl rfl, nofun, fun hs hb hbase => ?_⟩
  have hdefault : c = Conf.default := by
    cases c
    simp only [Conf.default, Conf.mk.injEq]
    exact ⟨hbase, hs, hb⟩
  rw [hdefault]
  rfl

/-- With nothing to abort, an abort changes nothing (R276). -/
theorem abort_idle {s : State} (h : s.phase = .idle) : abort s = s := by
  unfold abort
  rw [h]

/-- Settles O14: with nothing to abort, `SOFT_RESET` writes registers only. -/
theorem softResetKeepsBuffersWhenIdle : Obligations.SoftResetKeepsBuffersWhenIdle := by
  intro s hidle
  refine ⟨resetRegisters s, ?_, fun a => readByte_congr rfl rfl a, rfl, rfl, rfl, rfl, rfl⟩
  rw [← congrArg resetRegisters (abort_idle hidle)]
  rfl

/-- Settles O16: the assertion aborts what runs, the release is a hardware reset. -/
theorem hardwareResetSequence : Obligations.HardwareResetSequence := by
  intro s rest hagenda
  let t := assertReset { s with agenda := .releaseReset :: rest }
  obtain ⟨hphase, -, -, -, -, -, -, hnext, -⟩ := abort_keeps { s with agenda := .releaseReset :: rest }
  have htnext : t.agenda = .releaseReset :: rest := hnext
  have hassert : step s = .next t := step_cons hagenda
  have hrelease : step t = .next (hardReset { t with agenda := rest }) := step_cons htnext
  exact ⟨t, _, hassert, rfl, hphase, hrelease, rfl, rfl, rfl, rfl, regValue_hardReset _⟩

/-! The entries an abort writes. -/

/-- No command writes `BITS` other than by the fallback (R51, R140). -/
theorem ne_bits_of_mem_bufferWrites {m : Instr} {s : State} {r : Buf × Nat} (h : r ∈ bufferWrites m s) :
    r.1 ≠ .bits := by
  have hgen : r ∈ generateWrites s → r.1 ≠ .bits := by
    unfold generateWrites
    split
    · exact fun h => nomatch h
    · simp only [List.mem_cons, List.not_mem_nil, or_false]
      rintro (rfl | rfl | rfl | rfl | rfl | rfl) <;> exact nofun
  have hdemod : ∀ sch n ndec, r ∈ demodWrites sch n ndec → r.1 ≠ .bits := by
    intro sch n ndec
    cases sch <;> simp only [demodWrites, List.mem_cons, List.not_mem_nil, or_false]
    · rintro (rfl | rfl | rfl | rfl | rfl) <;> exact nofun
    · rintro (rfl | rfl | rfl | rfl) <;> exact nofun
  cases m with
  | nop | softReset => cases h
  | genBpsk | genFsk => exact hgen h
  | addNoise =>
    simp only [bufferWrites, List.mem_ite_nil_right, List.mem_singleton] at h
    obtain ⟨-, rfl⟩ := h
    exact nofun
  | demodBpsk | demodFsk =>
    simp only [bufferWrites, List.mem_ite_nil_right] at h
    exact hdemod _ _ _ h.2
  | run =>
    simp only [bufferWrites] at h
    split at h
    · cases h
    · exact (List.mem_append.1 h).elim hgen (hdemod _ _ _)

theorem capacity_le {c : Conf} (h : c.legal = true) (b : Buf) : capacity c b ≤ 65536 := by
  simp only [Conf.legal, Bool.and_eq_true, decide_eq_true_eq] at h
  cases b <;> simp only [capacity] <;> omega

/-- Scrambling leaves the buffers it does not list. -/
theorem entry_scramble_other {b : Buf} {i : Nat} (hi : i < 65536) (s : State) {rs : List (Buf × Nat)}
    (hb : ∀ r ∈ rs, r.1 ≠ b) (hn : ∀ r ∈ rs, r.2 ≤ 65536) : entry (scramble s rs) b i = entry s b i := by
  induction rs with
  | nil => rfl
  | cons r rs ih =>
    obtain ⟨hrb, hb⟩ := List.forall_mem_cons.1 hb
    obtain ⟨hrn, hn⟩ := List.forall_mem_cons.1 hn
    rw [scramble, entry_fill_other hrb.symm _ _ _ _ hrn hi, ih hb hn]

/-- The `BITS` entries after an abort are those after the fallback, committed or not (R276). -/
theorem entry_bits_softReset {s : State} {m : Instr} (h : s.Inv) (hbusy : s.phase = .busy m) {i : Nat}
    (hi : i < 65536) : entry (softReset s) .bits i = entry (maybeFallback m s) .bits i :=
  calc entry (softReset s) .bits i
      = entry (abort s) .bits i := entry_congr rfl rfl _ _
    _ = entry (scramble (maybeFallback m s) (bufferWrites m s)) .bits i :=
        wordAt_congr fun _ _ => readByte_abort hbusy _
    _ = entry (maybeFallback m s) .bits i :=
        entry_scramble_other hi _ (fun _ hr => ne_bits_of_mem_bufferWrites hr)
          fun r hr => (fits_bufferWrites m h r hr).trans (capacity_le h.conf_legal _)

/-- The `BITS` entries once the fallback is committed, the others as they were (R140). -/
theorem entry_bits_maybeFallback {m : Instr} {s : State}
    (h : (writesFallback m s && Config.abortCommitsFallback s.fresh.aborts) = true) {i : Nat} (hi : i < 65536) :
    entry (maybeFallback m s) .bits i = if i < 4 then bitWord (fallbackBit i) else entry s .bits i := by
  rw [maybeFallback, if_pos h, entry_fill _ _ _ _ _ _ (by decide) hi]
  simp only [true_and]

/-- Settles O15: an abort's footprint holds its bytes, and only the fallback reaches `BITS`. -/
theorem abortTouchesOnlyTheCommandsEntries : Obligations.AbortTouchesOnlyTheCommandsEntries := by
  intro s m hinv hbusy
  obtain ⟨-, hconf, -, -, -, -, hreset, hagenda, hresponse⟩ := abort_keeps s
  refine ⟨softReset s, rfl, rfl, rfl, hconf, hreset, hagenda, hresponse, fun a ha => ?_, ?_⟩
  · exact (readByte_congr rfl rfl a).trans ((abort_writes hbusy).2.2.2 a ha)
  · cases hc : writesFallback m s && Config.abortCommitsFallback s.fresh.aborts with
    | false =>
      refine .inl fun b hb => (entry_bits_softReset hinv hbusy hb).trans ?_
      rw [maybeFallback, if_neg (by rw [hc]; exact Bool.false_ne_true)]
    | true =>
      have hbits : ∀ i, i < 65536 → entry (softReset s) .bits i =
          if i < 4 then bitWord (fallbackBit i) else entry s .bits i :=
        fun i hi => (entry_bits_softReset hinv hbusy hi).trans (entry_bits_maybeFallback hc hi)
      refine .inr ⟨(Bool.and_eq_true_iff.1 hc).1, hbits 0 (by decide), hbits 1 (by decide), hbits 2 (by decide),
        hbits 3 (by decide), fun b hb hb' => ?_⟩
      rw [hbits b hb', if_neg (by omega)]

end Sys2Proof.Machine
end

section
/-! PROOFS. R92, R112, R270, R352, R353: when a step stops, which command it runs, and that a command computes the same
whether it runs in one transition or over several turns. -/

namespace Sys2Proof.Machine

/-! When a step stops. -/

/-- A physical access is the block's exactly when it falls in the window (R80). -/
theorem onBlock_eq_some_iff {c : Conf} {p : PhysAccess} :
    (∃ a, PhysAccess.onBlock c p = some a) ↔ c.base ≤ p.addr ∧ p.addr < c.base + 2 ^ 24 := by
  refine ⟨fun ⟨a, ha⟩ => ?_, fun h => ⟨_, onBlock_in h⟩⟩
  by_contra hout
  cases (onBlock_out hout).symm.trans ha

/-- A turn at which the host reaches for the block (R80). -/
def HostReaches (c : Conf) (x : Turn) : Prop :=
  (∃ a, x = .host a) ∨ (∃ w, x = .command w) ∨
    ∃ p, x = .bus p ∧ c.base ≤ p.addr ∧ p.addr < c.base + 2 ^ 24

/-- A turn is refused if the host reaches for the block in reset (R340), and answers a next state otherwise. -/
theorem turn_refused_or_next (x : Turn) (s : State) :
    (turn x s = .refused .accessInReset ∧ s.inReset = true ∧ HostReaches s.conf x) ∨
      ((∃ t, turn x s = .next t) ∧ ¬(s.inReset = true ∧ HostReaches s.conf x)) := by
  have hhost : ∀ a, (hostTurn a s = .refused .accessInReset ∧ s.inReset = true) ∨
      ((∃ t, hostTurn a s = .next t) ∧ s.inReset = false) := by
    intro a
    unfold hostTurn
    cases s.inReset with
    | false => exact .inr ⟨⟨_, rfl⟩, rfl⟩
    | true => exact .inl ⟨rfl, rfl⟩
  have hfree : s.inReset = false → ¬(s.inReset = true ∧ HostReaches s.conf x) := by
    rintro hr ⟨hr', -⟩
    exact Bool.false_ne_true (hr.symm.trans hr')
  cases x with
  | host a =>
    exact (hhost a).imp (fun ⟨ht, hr⟩ => ⟨ht, hr, .inl ⟨a, rfl⟩⟩) fun ⟨ht, hr⟩ => ⟨ht, hfree hr⟩
  | bus p =>
    simp only [turn, busTurn]
    cases hp : PhysAccess.onBlock s.conf p with
    | none =>
      refine .inr ⟨⟨_, rfl⟩, ?_⟩
      rintro ⟨-, ⟨a, ha⟩ | ⟨w, hw⟩ | ⟨q, hq, hin⟩⟩
      · cases ha
      · cases hw
      · cases hq
        cases hp.symm.trans (onBlock_in hin)
    | some a =>
      exact (hhost a).imp
        (fun ⟨ht, hr⟩ => ⟨ht, hr, .inr (.inr ⟨p, rfl, onBlock_eq_some_iff.1 ⟨a, hp⟩⟩)⟩)
        fun ⟨ht, hr⟩ => ⟨ht, hfree hr⟩
  | command w =>
    simp only [turn]
    cases hr : s.inReset with
    | true => exact .inl ⟨rfl, rfl, .inr (.inl ⟨w, rfl⟩)⟩
    | false =>
      refine .inr ⟨?_, fun h => Bool.false_ne_true h.1⟩
      cases decodeWord w with
      | ok i => exact exec_next i _
      | error e => exact ⟨_, rfl⟩
  | sequencer | assertReset | releaseReset =>
    refine .inr ⟨⟨_, rfl⟩, ?_⟩
    rintro ⟨-, ⟨a, ha⟩ | ⟨w, hw⟩ | ⟨q, hq, -⟩⟩
    · cases ha
    · cases hw
    · cases hq

/-- Settles O6: a step is the sequencer's move or the next turn, and only the host's turns can be refused. -/
theorem stepStopsOnlyForAccessInReset : Obligations.StepStopsOnlyForAccessInReset := by
  intro s
  cases hagenda : s.agenda with
  | nil =>
    have hstep : step s = .next (sequencerMove s) := by unfold step; rw [hagenda]
    rw [hstep]
    refine ⟨⟨nofun, ?_⟩, .inr ⟨_, rfl⟩⟩
    rintro ⟨-, rest, ⟨a, ha⟩ | ⟨w, hw⟩ | ⟨p, hp, -⟩⟩
    · cases ha
    · cases hw
    · cases hp
  | cons x rest =>
    have hreach : (∃ rest', (∃ a, x :: rest = .host a :: rest') ∨ (∃ w, x :: rest = .command w :: rest') ∨
        ∃ p, x :: rest = .bus p :: rest' ∧ s.conf.base ≤ p.addr ∧ p.addr < s.conf.base + 2 ^ 24) ↔
        HostReaches s.conf x := by
      simp only [HostReaches, List.cons.injEq]
      constructor
      · rintro ⟨rest', ⟨a, ha, -⟩ | ⟨w, hw, -⟩ | ⟨p, ⟨hp, -⟩, hin⟩⟩
        · exact .inl ⟨a, ha⟩
        · exact .inr (.inl ⟨w, hw⟩)
        · exact .inr (.inr ⟨p, hp, hin⟩)
      · rintro (⟨a, ha⟩ | ⟨w, hw⟩ | ⟨p, hp, hin⟩)
        · exact ⟨rest, .inl ⟨a, ha, rfl⟩⟩
        · exact ⟨rest, .inr (.inl ⟨w, hw, rfl⟩)⟩
        · exact ⟨rest, .inr (.inr ⟨p, ⟨hp, rfl⟩, hin⟩)⟩
    rw [step_cons hagenda, hreach]
    rcases turn_refused_or_next x { s with agenda := rest } with ⟨ht, hr, hx⟩ | ⟨⟨t, ht⟩, hnot⟩
    · exact ⟨⟨fun _ => ⟨hr, hx⟩, fun _ => ht⟩, .inl ht⟩
    · rw [ht]
      exact ⟨⟨nofun, fun h => absurd h hnot⟩, .inr ⟨t, rfl⟩⟩

/-! The decoded command. -/

/-- The decoder on a word's bytes reads that word (R87, R110). -/
theorem decodeWord_of_decodeBytes {w : Word} {i : Instr} {rest : List Byte}
    (h : decodeBytes (wordBytes w) = .ok (i, rest)) : decodeWord w = .ok i := by
  obtain ⟨b0, b1, b2, b3, b4, b5, b6, b7, hb, hw⟩ := decodeBytes_ok h
  obtain rfl : rest = [] := by
    have hlength := congrArg List.length hb
    rw [List.length_append] at hlength
    exact List.length_eq_zero_iff.1 (Nat.left_eq_add.1 hlength)
  rw [← wordOfBytes_of_wordBytes (hb.trans (List.append_nil _))]
  exact hw

theorem decodeWord_of_decodeTableWord {nbits w : Nat} {i : Instr} (h : decodeTableWord nbits w = some i) :
    decodeWord (BitVec.ofNat 64 (w % 2 ^ nbits)) = .ok i := by
  unfold decodeTableWord at h
  split at h
  next j rest hj =>
    cases h
    exact decodeWord_of_decodeBytes hj
  next => cases h

section
variable {s : State} {rest : List Turn}

/-- Out of reset a step whose turn is a `CMD` write run to completion is the decoded command (R112, R352). -/
theorem step_command_ok {w : Word} {i : Instr} (hagenda : s.agenda = .command w :: rest) (hr : s.inReset = false)
    (hw : decodeWord w = .ok i) : step s = exec i { s with agenda := rest, response := .done } := by
  rw [step_cons hagenda]
  simp only [turn, hr, hw, Bool.false_eq_true, if_false]

theorem step_command_error {w : Word} {e : DecodeError} (hagenda : s.agenda = .command w :: rest)
    (hr : s.inReset = false) (hw : decodeWord w = .error e) :
    step s = .next (rejectWord { s with agenda := rest, response := .done }) := by
  rw [step_cons hagenda]
  simp only [turn, hr, hw, Bool.false_eq_true, if_false]

/-- Out of reset a step whose turn is a transaction performs it. -/
theorem step_host {a : Access} (hagenda : s.agenda = .host a :: rest) (hr : s.inReset = false) :
    step s = .next (busAccess a { s with agenda := rest }) := by
  rw [step_cons hagenda]
  simp only [turn, hostTurn, hr, Bool.false_eq_true, if_false]

end

/-- Settles O5: the step takes the turn, and the turn follows the decoder's answer. -/
theorem stepRunsTheDecodedCommand : Obligations.StepRunsTheDecodedCommand := by
  refine ⟨fun s w rest i hagenda hr hw => step_command_ok hagenda hr hw, fun s nbits w i hw => ?_,
    fun s w rest hagenda hr hbad => ?_⟩
  · exact step_command_ok (s := s.withFetchWord nbits w) rfl rfl (decodeWord_of_decodeTableWord hw)
  · obtain ⟨e, he⟩ := decodeWord_error_iff.2 hbad
    rw [step_command_error hagenda hr he]
    refine ⟨fun hidle => ?_, fun m hbusy => ?_⟩
    · rw [rejectWord_idle (by exact hidle), cmdError]
    · rw [rejectWord_busy (by exact hbusy), cmdError]

/-! Acceptance and completion. -/

/-- The word of a command that the sequencer runs begins it while none runs (R270). -/
theorem writeCmd_encode {s : State} (h : s.phase = .idle) {i : Instr} (hi : Runs i) :
    writeCmd (encode i) s = accept i s := by
  unfold writeCmd
  rw [decodeWord_encode]
  cases i with
  | softReset => exact absurd rfl hi
  | _ => exact if_neg (by rw [h]; exact Bool.false_ne_true)

/-- The host's `CMD` write begins the command and changes nothing else but the bus answer (R270). -/
theorem busAccess_write_cmd {s : State} (h : s.phase = .idle) {i : Instr} (hi : Runs i) :
    busAccess (writeAt 0x010 (encode i)) s = { accept i s with response := .done } := by
  rw [← writeCmd_encode h hi]
  exact busAccess_write_regOffset .cmd (encode i) s

/-- Completing an accepted command in any surroundings gives what its body gives, in these surroundings (R352). -/
theorem complete_dress (m : Instr) (p : Phase) (a : List Turn) (r : Response) (k : Nat) (s : State) :
    complete m (dress p a r k s) = dress .idle a r k (commandBody m s) := by
  rw [complete, commandBody_dress]
  rfl

/-- An idle state is its own, dressed in its own surroundings. -/
theorem dress_self {s : State} (h : s.phase = .idle) : dress .idle s.agenda s.response s.fresh.reads s = s := by
  rw [← h]
  rfl

/-- Settles O29: by the phase; `SOFT_RESET` does not look at it. -/
theorem acceptanceRule : Obligations.AcceptanceRule := by
  refine ⟨fun s => ⟨softReset s, rfl, busAccess_write_regOffset .cmd _ s⟩, fun s i hi => ⟨fun hready => ?_, ?_⟩⟩
  · exact busAccess_write_cmd hready.1 hi
  · intro m hbusy
    rw [exec_busy hbusy hi, cmdError]

/-- Settles O7: both ways end in the command's body in the surroundings of the last turn. -/
theorem oneTransitionEqualsAcceptThenComplete : Obligations.OneTransitionEqualsAcceptThenComplete := by
  intro s w m rest hready hw hm
  obtain ⟨hidle, hr⟩ := hready
  obtain rfl := eq_encode_of_decodeWord_ok hw
  let u := dress (.busy m) (.sequencer :: rest) .done s.fresh.reads s
  let t := dress .idle rest .done s.fresh.reads (commandBody m s)
  have hphase : ∀ a r, ({ s with agenda := a, response := r } : State).phase = .idle := fun _ _ => hidle
  have haccept : step { s with agenda := .host (writeAt 0x010 (encode m)) :: .sequencer :: rest } = .next u :=
    calc step { s with agenda := .host (writeAt 0x010 (encode m)) :: .sequencer :: rest }
        = .next (busAccess (writeAt 0x010 (encode m)) { s with agenda := .sequencer :: rest }) :=
          step_host rfl hr
      _ = .next u := by rw [busAccess_write_cmd (hphase _ _) hm]; rfl
  have hcomplete : step u = .next t :=
    calc step u = .next (complete m (dress (.busy m) rest .done s.fresh.reads s)) := rfl
      _ = .next t := by rw [complete_dress]
  have honce : step { s with agenda := .command (encode m) :: rest } = .next t :=
    calc step { s with agenda := .command (encode m) :: rest }
        = exec m { s with agenda := rest, response := .done } :=
          step_command_ok rfl hr (decodeWord_encode m)
      _ = .next (commandBody m { s with agenda := rest, response := .done }) := exec_idle (hphase _ _) hm
      _ = .next (commandBody m (dress .idle rest .done s.fresh.reads s)) := by
          rw [show ({ s with agenda := rest, response := .done } : State) = dress .idle rest .done s.fresh.reads s by
            rw [← hidle]; rfl]
      _ = .next t := by rw [commandBody_dress]
  exact ⟨u, t, haccept, rfl, hcomplete, honce, rfl⟩

/-! Runs of several steps. -/

theorem run_succ {s t : State} (h : step s = .next t) (k : Nat) :
    Sys2Proof.core.run (k + 1) s = Sys2Proof.core.run k t := by
  have hcore : Sys2Proof.core.step s = .next t := h
  simp only [Host.Core.run, hcore]

/-- A poll of `STATUS` out of reset, in any phase: the answer, and nothing else but the count of in-flight reads (R93). -/
theorem step_poll {s : State} (hr : s.inReset = false) (p : Phase) (rest : List Turn) (r : Response) (k : Nat) :
    ∃ k', step (dress p (pollStatus :: rest) r k s) =
      .next (dress p rest (.data (readData (dress p rest r k s) (.reg .status))) k' s) := by
  have hread := busAccess_read (o := regOffset .status) (by decide) (by decide) (dress p rest r k s)
  rw [targetOf_regOffset] at hread
  obtain ⟨k', hk⟩ := countRead_eq (dress p rest r k s) (.reg .status)
  refine ⟨k', ?_⟩
  calc step (dress p (pollStatus :: rest) r k s)
      = .next (busAccess (readAt (regOffset .status)) (dress p rest r k s)) :=
        step_host rfl hr
    _ = _ := by rw [readAt, hread, hk]; rfl

/-- Polls while a command runs change nothing that it reads (R93, R351). -/
theorem run_polls {s : State} (hr : s.inReset = false) (p : Phase) (rest : List Turn) (j : Nat) :
    ∀ (n : Nat) (r : Response) (k : Nat), ∃ r' k',
      Sys2Proof.core.run (n + j) (dress p (List.replicate n pollStatus ++ rest) r k s) =
        Sys2Proof.core.run j (dress p rest r' k' s)
  | 0, r, k => ⟨r, k, by rw [Nat.zero_add]; rfl⟩
  | n + 1, r, k => by
    obtain ⟨k1, h1⟩ := step_poll hr p (List.replicate n pollStatus ++ rest) r k
    obtain ⟨r', k', h'⟩ := run_polls hr p rest j n _ k1
    exact ⟨r', k', by rw [Nat.succ_add]; exact (run_succ h1 _).trans h'⟩

/-- Settles O8: the write begins the command, the polls leave it, the completion step computes its body, and the last poll
reads `STATUS` with the sequencer idle. -/
theorem commandThenWaitEqualsTheCommand : Obligations.CommandThenWaitEqualsTheCommand := by
  intro s i k hready hi
  obtain ⟨hidle, hr⟩ := hready
  obtain ⟨-, -, hreset, -⟩ := commandBody_keeps i s
  have hexpand : expand [.cmd i, .wait k] =
      .host (writeAt 0x010 (encode i)) :: (List.replicate k pollStatus ++ [.sequencer, pollStatus]) := by
    simp only [expand, expandLine, List.flatMap_cons, List.flatMap_nil, List.append_nil, List.cons_append,
      List.nil_append]
    rfl
  have haccept : step { s with agenda := expand [.cmd i, .wait k] } =
      .next (dress (.busy i) (List.replicate k pollStatus ++ [.sequencer, pollStatus]) .done s.fresh.reads s) :=
    calc step { s with agenda := expand [.cmd i, .wait k] }
        = .next (busAccess (writeAt 0x010 (encode i))
            { s with agenda := List.replicate k pollStatus ++ [.sequencer, pollStatus] }) :=
          step_host (s := { s with agenda := expand [.cmd i, .wait k] }) hexpand hr
      _ = _ := by rw [busAccess_write_cmd (by exact hidle) hi]; rfl
  obtain ⟨r1, k1, hpolls⟩ := run_polls hr (.busy i) [.sequencer, pollStatus] 2 k .done s.fresh.reads
  have hcomplete : step (dress (.busy i) [.sequencer, pollStatus] r1 k1 s) =
      .next (dress .idle [pollStatus] r1 k1 (commandBody i s)) := congrArg _ (complete_dress i _ _ _ _ s)
  obtain ⟨k2, hlast⟩ := step_poll (hreset.trans hr) .idle [] r1 k1
  have hdata : readData (dress .idle [] r1 k1 (commandBody i s)) (.reg .status) =
      statusWord false (commandBody i s).status := readData_idle rfl _
  rw [hdata] at hlast
  refine ⟨commandBody i s, dress .idle [] (.data (statusWord false (commandBody i s).status)) k2 (commandBody i s),
    exec_idle hidle hi, ?_, rfl, rfl, rfl, rfl, rfl, rfl, rfl, rfl, rfl⟩
  calc Sys2Proof.core.run (k + 3) { s with agenda := expand [.cmd i, .wait k] }
      = Sys2Proof.core.run (k + 2) _ := run_succ haccept (k + 2)
    _ = Sys2Proof.core.run 2 _ := hpolls
    _ = Sys2Proof.core.run 1 _ := run_succ hcomplete 1
    _ = Sys2Proof.core.run 0 _ := run_succ hlast 0
    _ = _ := rfl

/-! Bounded progress. -/

/-- No turn touches the rest of the agenda. -/
theorem agenda_kept (a : List Turn) : KeptByMoves fun s => s.agenda = a where
  answer _ _ _ h := h
  error _ _ h := h
  clear _ h := h
  accept _ _ _ _ h := h
  ctrl _ _ h := h
  par _ _ _ h := h
  entry _ _ _ _ _ h := h
  body m s h := (commandBody_keeps m s).2.2.2.1.trans h
  finish _ h := h
  abort s h := (abort_keeps s).2.2.2.2.2.2.2.1.trans h
  registers _ h := h
  assert _ _ h := h
  release _ h := h

/-- What runs, runs out of reset, whatever turn is taken (R340). -/
theorem idle_or_out_of_reset_kept : KeptByMoves fun s => s.phase = .idle ∨ s.inReset = false where
  answer _ _ _ h := h
  error _ _ h := h
  clear _ h := h
  accept _ _ _ hr _ := .inr hr
  ctrl _ _ h := h
  par _ _ _ h := h
  entry _ _ _ _ _ h := h
  body m s h := by
    obtain ⟨-, -, hreset, -, -, hphase⟩ := commandBody_keeps m s
    rw [hreset, hphase]
    exact h
  finish _ _ := .inl rfl
  abort s _ := .inl (abort_keeps s).1
  registers _ _ := .inl rfl
  assert _ hidle _ := .inl hidle
  release _ _ := .inl rfl

/-- A turn out of reset answers a state that is idle or out of reset, with the rest of the agenda. -/
theorem step_out_of_reset {s : State} {x : Turn} {rest : List Turn} (hagenda : s.agenda = x :: rest)
    (hr : s.inReset = false) : ∃ t, step s = .next t ∧ t.agenda = rest ∧ (t.phase = .idle ∨ t.inReset = false) := by
  rw [step_cons hagenda]
  rcases turn_refused_or_next x { s with agenda := rest } with ⟨-, hr', -⟩ | ⟨⟨t, ht⟩, -⟩
  · exact absurd (hr.symm.trans hr') Bool.false_ne_true
  · have hfree : s.phase = .idle ∨ s.inReset = false := .inr hr
    exact ⟨t, ht, (agenda_kept rest).turn rfl ht, idle_or_out_of_reset_kept.turn (by exact hfree) ht⟩

/-- From a state out of reset the sequencer is idle after at most as many steps as there are turns, and one more. -/
theorem exists_run_to_idle : ∀ (n : Nat) (s : State), s.agenda.length = n → s.inReset = false →
    ∃ k t, k ≤ n + 1 ∧ Sys2Proof.core.run k s = .next t ∧ t.phase = .idle
  | 0, s, hn, _ => by
    have hstep : step s = .next (sequencerMove s) := by
      unfold step
      rw [List.length_eq_zero_iff.1 hn]
    refine ⟨1, sequencerMove s, Nat.le_refl 1, run_succ hstep 0, ?_⟩
    unfold sequencerMove
    split
    next h => exact h
    next => rfl
  | n + 1, s, hn, hr => by
    obtain ⟨x, rest, hagenda⟩ := List.exists_cons_of_length_eq_add_one hn
    obtain ⟨t, hstep, hrest, hidle | hr'⟩ := step_out_of_reset hagenda hr
    · exact ⟨1, t, by omega, run_succ hstep 0, hidle⟩
    · have hlength : t.agenda.length = n := by
        rw [hagenda, List.length_cons] at hn
        rw [hrest]
        omega
      obtain ⟨k, u, hk, hrun, hphase⟩ := exists_run_to_idle n t hlength hr'
      exact ⟨k + 1, u, by omega, (run_succ hstep k).trans hrun, hphase⟩

/-- Settles O9: by induction on the agenda, each turn leaving the sequencer idle or the block out of reset. -/
theorem runningCommandEnds : Obligations.RunningCommandEnds := fun s _ _ hr =>
  exists_run_to_idle s.agenda.length s rfl hr

/-! Commands from an idle state. -/

/-- What a command that the sequencer runs answers while none runs is its body. -/
theorem eq_commandBody_of_exec {s t : State} {i : Instr} (h : exec i s = .next t) (hidle : s.phase = .idle)
    (hi : i ≠ .softReset) : t = commandBody i s := by
  cases (exec_idle hidle hi).symm.trans h
  rfl

/-- Settles O36. -/
theorem nopChangesNothing : Obligations.NopChangesNothing := fun _ hidle => exec_idle hidle nofun

/-- Settles O41: each of the three looks for the grid first. -/
theorem noGridRaisesNoData : Obligations.NoGridRaisesNoData := by
  intro s i hidle hvalid hi
  have hruns : i ≠ .softReset := by rintro rfl; simp at hi
  rw [exec_idle hidle hruns, commandBody_of_no_grid hvalid hi, cmdError]

/-- Settles O34: a command from an idle state is its body. -/
theorem clampIsSticky : Obligations.ClampIsSticky := fun s i hidle hi =>
  ⟨commandBody i s, exec_idle hidle hi, commandBody_clamp i s⟩

end Sys2Proof.Machine
end

section
/-! PROOFS. R34 to R39, R48, R51, R57, R80 to R87: what the host's reads and writes do at each kind of target. -/

namespace Sys2Proof.Machine

/-! Reads while no command runs. -/

section
variable {s : State} (hidle : s.phase = .idle)
include hidle

/-- A legal read while no command runs answers the value of its target and changes nothing else (R89, R277). -/
theorem busAccess_read_idle {o : Nat} (ho : o < 2 ^ 24) (ha : o % 8 = 0) :
    busAccess (readAt o) s = { s with response := .data (targetValue s (targetOf s.conf o)) } := by
  rw [readAt, busAccess_read ho ha, countRead_idle hidle, readData_idle hidle]

theorem busAccess_read_regOffset (r : Reg) :
    busAccess (readAt (regOffset r)) s = { s with response := .data (regValue s r) } := by
  rw [busAccess_read_idle hidle ((regOffset_le r).trans_lt (by decide)) (regOffset_aligned r), targetOf_regOffset,
    targetValue]

theorem busAccess_read_entryAddr (b : Buf) {i : Nat} (hi : i < 65536) :
    busAccess (readAt (entryAddr b i)) s =
      { s with response := .data (if i < capacity s.conf b then entryValue s b i else 0) } := by
  rw [busAccess_read_idle hidle (entryAddr_lt hi) (entryAddr_aligned b i), targetOf_entryAddr _ _ _ hi]
  split <;> rfl

/-! Registers. -/

/-- A write to a parameter register changes this register alone (R34, R36). -/
theorem writeReg_parameter {r : Reg} (hr : IsParameter r) (v : Word) :
    ∃ p, writeReg r v s = { s with par := p } ∧ regValue { s with par := p } r = v ∧
      ∀ r', r' ≠ r → regValue { s with par := p } r' = regValue s r' := by
  rcases hr with rfl | rfl | rfl | rfl | rfl | rfl | rfl | rfl <;>
    refine ⟨_, unlessBusy_idle hidle, rfl, fun r' hr' => ?_⟩ <;>
    cases r' <;> simp_all [regValue]

end

/-- Settles O17: the write changes one parameter, and the read returns it. -/
theorem parameterWriteReadsBackVerbatim : Obligations.ParameterWriteReadsBackVerbatim := by
  intro s r v hready hr
  obtain ⟨hidle, -⟩ := hready
  obtain ⟨p, hw, hvalue, hother⟩ := writeReg_parameter hidle hr v
  rw [busAccess_write_regOffset, hw]
  refine ⟨?_, hother, fun a => readByte_congr rfl rfl a⟩
  rw [busAccess_read_regOffset (by exact hidle)]
  exact congrArg Response.data hvalue

/-- The fields of `CTRL` stand at the bits of R37 to R39. -/
theorem ctrlLaidOut (s : State) : CtrlLaidOut (regValue s .ctrl) s := by
  show CtrlLaidOut (ctrlWord s.ctrl) s
  unfold CtrlLaidOut
  obtain ⟨scheme, timebase, policy⟩ := s.ctrl
  cases scheme <;> cases timebase <;> cases policy <;> decide

/-- `CTRL` keeps bits 1:0 of what is written and the policy of bits 3:2, 3 replaced by 0 (R39). -/
theorem ctrlWord_ctrlOfWord (v : Word) :
    ctrlWord (ctrlOfWord v) =
      if v.toNat / 4 % 4 = 3 then BitVec.ofNat 64 (v.toNat % 4) else BitVec.ofNat 64 (v.toNat % 16) := by
  have hscheme : (ctrlOfWord v).scheme.code = v.toNat % 2 := by
    simp only [ctrlOfWord]
    split <;> simp only [Scheme.code] <;> omega
  have htimebase : (ctrlOfWord v).timebase.code = v.toNat / 2 % 2 := by
    simp only [ctrlOfWord]
    split <;> simp only [TimeBase.code] <;> omega
  have hpolicy : (ctrlOfWord v).policy.code = if v.toNat / 4 % 4 = 3 then 0 else v.toNat / 4 % 4 := by
    simp only [ctrlOfWord]
    split_ifs <;> simp only [Policy.code] <;> omega
  rw [ctrlWord, hscheme, htimebase, hpolicy]
  split_ifs <;> congr 1 <;> omega

/-- Settles O18: `CTRL` shows its three fields, and a write stores a legal value of each. -/
theorem ctrlIsWriteAnyReadLegal : Obligations.CtrlIsWriteAnyReadLegal := by
  refine ⟨ctrlLaidOut, fun s v hready => ?_⟩
  obtain ⟨hidle, -⟩ := hready
  have hw : busAccess (writeAt 0x008 v) s = { s with ctrl := ctrlOfWord v, response := .done } := by
    refine (busAccess_write_regOffset .ctrl v s).trans ?_
    rw [writeReg, unlessBusy_idle hidle]
  rw [hw]
  refine ⟨?_, fun r hr => ?_, fun a => readByte_congr rfl rfl a⟩
  · refine (congrArg State.response (busAccess_read_regOffset (by exact hidle) .ctrl)).trans ?_
    exact congrArg Response.data (ctrlWord_ctrlOfWord v)
  · cases r with
    | ctrl => exact absurd rfl hr
    | _ => rfl

/-- Settles O19: by the range check. -/
theorem nbitsWriteIsRangeChecked : Obligations.NbitsWriteIsRangeChecked := by
  intro s v hready
  obtain ⟨hidle, -⟩ := hready
  have hw : busAccess (writeAt 0x060 v) s = { writeNbits v s with response := .done } := by
    refine (busAccess_write_regOffset .nbits v s).trans ?_
    rw [writeReg, unlessBusy_idle hidle]
  rw [hw]
  refine ⟨fun hle => ?_, fun hgt => ?_⟩
  · rw [writeNbits, if_pos hle]
  · rw [writeNbits, if_neg (Nat.not_le.2 hgt), cmdError]

/-! Buffer entries. -/

/-- What an entry of a RW buffer stores of the word written (R51, R57). -/
def storedWord (b : Buf) (v : Word) : Word := if b = .bits then BitVec.ofNat 64 (v.toNat % 2) else v

/-- A host write to an existing entry of a RW buffer while no command runs (R51, R57). -/
theorem busAccess_write_rw_entry {s : State} (hidle : s.phase = .idle) {b : Buf} (hb : IsRwBuffer b) {i : Nat}
    (hi : i < 65536) (hcap : i < capacity s.conf b) (v : Word) :
    busAccess (writeAt (entryAddr b i) v) s = { putEntry b i (storedWord b v) s with response := .done } := by
  rw [busAccess_write_entryAddr b hi, if_pos hcap, writeTarget]
  rcases hb with rfl | rfl
  · rw [writeEntry, unlessBusy_idle hidle]; rfl
  · rw [writeEntry, unlessBusy_idle hidle]; rfl

/-- Reading a stored word back gives bit 0 of a `BITS` entry and the whole of any other (R51). -/
theorem entryValue_of_stored {s : State} {b : Buf} {i : Nat} {v : Word} (h : entry s b i = storedWord b v) :
    entryValue s b i = storedWord b v := by
  cases b with
  | bits =>
    rw [entryValue, h, storedWord, if_pos rfl, BitVec.toNat_ofNat]
    congr 1
    omega
  | _ => exact h

/-- Settles O21: the write puts the stored word into its entry, which shares no byte with another. -/
theorem bufferEntryWriteReadsBack : Obligations.BufferEntryWriteReadsBack := by
  intro s b i v hinv hready hb hcap
  obtain ⟨hidle, -⟩ := hready
  have hi : i < 65536 := hcap.trans_le (capacity_le hinv.conf_legal b)
  have hentry : ∀ c j, j < 65536 → entry (busAccess (writeAt (entryAddr b i) v) s) c j =
      if c = b ∧ j = i then storedWord b v else entry s c j := by
    intro c j hj
    rw [busAccess_write_rw_entry hidle hb hi hcap, ← entry_putEntry b i (storedWord b v) s c j hi hj]
    exact entry_congr rfl rfl c j
  have hphase : (busAccess (writeAt (entryAddr b i) v) s).phase = .idle := by
    rw [busAccess_write_rw_entry hidle hb hi hcap]
    exact hidle
  have hconf : (busAccess (writeAt (entryAddr b i) v) s).conf = s.conf := by
    rw [busAccess_write_rw_entry hidle hb hi hcap, putEntry_conf]
  refine ⟨?_, fun c j hj hne => ?_, fun r => ?_⟩
  · rw [busAccess_read_entryAddr hphase b hi, hconf, if_pos hcap,
      entryValue_of_stored ((hentry b i hi).trans (if_pos ⟨rfl, rfl⟩)), storedWord]
  · rw [hentry c j hj, if_neg hne]
  · rw [busAccess_write_rw_entry hidle hb hi hcap]
    cases r <;> rfl

/-- Settles O22: the bytes of a written entry are those of the word. -/
theorem entryBytesAreLittleEndian : Obligations.EntryBytesAreLittleEndian := by
  intro s i k v hready hcap hi hk
  obtain ⟨hidle, -⟩ := hready
  have hbyte : readByte (busAccess (writeAt (entryAddr .rx i) v) s) (entryAddr .rx i + k) = byteOf v k := by
    rw [busAccess_write_rw_entry hidle (.inr rfl) hi hcap]
    refine (readByte_putEntry .rx i v s (entryAddr .rx i + k)).trans ?_
    rw [if_pos (by omega), Nat.add_sub_cancel_left]
  rw [hbyte, byteOf, BitVec.toNat_ofNat]

/-! Unmapped offsets and read-only targets. -/

/-- Below `BITS` and above the last window there is no buffer (R82). -/
theorem find_buf_none {o : Nat} (h : o < 0x100000 ∨ 0x800000 ≤ o) :
    allBufs.find? (fun b => decide (window b ≤ o) && decide (o < window b + windowBytes)) = none := by
  rw [List.find?_eq_none]
  intro b _ hb
  have hwindow := window_bounds b
  rw [Bool.and_eq_true, decide_eq_true_eq, decide_eq_true_eq] at hb
  unfold windowBytes at hb
  omega

/-- An unmapped offset selects nothing, and lies in the block (R84). -/
theorem targetOf_unmapped {c : Conf} {o : Nat} (h : UnmappedOffset c o) : targetOf c o = .unmapped ∧ o < 2 ^ 24 := by
  have hout : 0x0A0 < o → (o < 0x100000 ∨ 0x800000 ≤ o) → targetOf c o = .unmapped := by
    intro hreg hbuf
    simp only [targetOf, find_reg_none hreg, find_buf_none hbuf]
  rcases h with h | h | h | ⟨b, i, hcap, hi, rfl⟩
  · exact ⟨hout (by omega) (by omega), by omega⟩
  · exact ⟨hout (by omega) (by omega), by omega⟩
  · exact ⟨hout (by omega) (by omega), by omega⟩
  · exact ⟨by rw [targetOf_entryAddr c b i hi, if_neg (Nat.not_lt.2 hcap)], entryAddr_lt hi⟩

/-- Nothing is in flight where nothing is mapped (R84, R351). -/
theorem inFlightMask_unmapped (s : State) : inFlightMask s .unmapped = 0 := by
  unfold inFlightMask
  split <;> rfl

/-- Settles O23: an unmapped offset has no target, and a physical access has the offset of its address or none. -/
theorem unmappedOffsetsReadZero : Obligations.UnmappedOffsetsReadZero := by
  refine ⟨fun s o v ha hun => ?_, fun s p rest hagenda => ⟨fun o ho haddr => ?_, fun hout => ?_⟩⟩
  · obtain ⟨htarget, ho⟩ := targetOf_unmapped hun
    constructor
    · rw [readAt, busAccess_read ho ha, htarget, readData_of_mask_zero (inFlightMask_unmapped s), countRead,
        if_pos (inFlightMask_unmapped s), targetValue]
    · rw [writeAt, busAccess_write ho ha, htarget, writeTarget]
  · have hin := onBlock_in (c := s.conf) (p := p) ⟨by omega, by omega⟩
    rw [haddr, Nat.add_sub_cancel_left] at hin
    rw [step_cons hagenda, step_cons (s := { s with agenda := .host _ :: rest }) rfl]
    simp only [turn, busTurn, hin]
  · rw [step_cons hagenda]
    simp only [turn, busTurn, onBlock_out (c := s.conf) (p := p) (by omega)]

/-- Settles O24. -/
theorem readOnlyWritesAreIgnored : Obligations.ReadOnlyWritesAreIgnored := fun s v =>
  ⟨fun _ hr => busAccess_write_of_ro_register hr v s, fun _ _ hb hi => busAccess_write_of_ro_buffer hb hi v s⟩

/-! Accesses while a command runs. -/

/-- A write while a command runs, short of the `SOFT_RESET` word, has no effect but on `ERR` and `CLAMP` (R350). -/
theorem writeTarget_busy {s : State} {m : Instr} (hbusy : s.phase = .busy m) {v : Word}
    (hv : v ≠ encode .softReset) (tgt : Target) :
    ∃ e c, writeTarget tgt v s = { s with status := { s.status with err := e, clamp := c } } := by
  have heff := writeTarget_effect tgt v s
  generalize writeTarget tgt v s = t at heff
  have hnot : s.phase ≠ .idle := by rw [hbusy]; exact nofun
  cases heff with
  | nothing => exact ⟨s.status.err, s.status.clamp, rfl⟩
  | error e => exact ⟨e, s.status.clamp, rfl⟩
  | clear => exact ⟨.noError, false, rfl⟩
  | reset _ hreset => exact absurd hreset hv
  | accept _ hidle => exact absurd hidle hnot
  | ctrl _ hidle => exact absurd hidle hnot
  | par _ hidle => exact absurd hidle hnot
  | entry _ _ _ hidle => exact absurd hidle hnot

/-- Settles O28: a malformed access and a read leave all but the answer and a counter, a write all but two flags. -/
theorem runningCommandsInputsAreFrozen : Obligations.RunningCommandsInputsAreFrozen := by
  intro s m a hbusy ha
  rcases busAccess_cases a s with ⟨-, he⟩ | ⟨-, -, k, he⟩ | ⟨v, -, hdir, he⟩
  · rw [he]; exact ⟨hbusy, rfl, rfl, rfl, rfl, rfl, rfl⟩
  · rw [he]; exact ⟨hbusy, rfl, rfl, rfl, rfl, rfl, rfl⟩
  · have hv : v ≠ encode .softReset := fun h => ha (by rw [hdir, h]; rfl)
    obtain ⟨e, c, hw⟩ := writeTarget_busy hbusy hv (targetOf s.conf a.offset.toNat)
    rw [he, hw]
    exact ⟨hbusy, rfl, rfl, rfl, rfl, rfl, rfl⟩

end Sys2Proof.Machine
end

section
/-! PROOFS. R130 to R143, R160 to R187: the sample grid and the two generates. -/

namespace Sys2Proof.Machine

/-! The grid. -/

theorem durationAsked_eq (s : State) : durationAsked s = rawDuration s := by
  have hbits : bitsInUse s = bitCount s := rfl
  unfold durationAsked rawDuration nanEpoch
  rw [hbits]
  cases s.ctrl.timebase with
  | duration => exact if_pos rfl
  | bitrate => exact if_neg nofun

theorem samplesAsked_eq (s : State) : samplesAsked s = gridProduct s := by
  rw [samplesAsked, durationAsked_eq, gridProduct]
  rfl

/-- There is a grid exactly when `p` passes the size check (R136). -/
theorem exists_grid_iff (s : State) :
    (∃ g, grid s = some g) ↔
      gridProduct s ≠ F64.posInf ∧ F64.floor (gridProduct s) ≤ (s.conf.maxSamples : Int) := by
  rw [← Option.isSome_iff_exists, ← Option.ne_none_iff_isSome, Ne, grid_none, gridTooLarge_iff, not_or, Int.not_lt]

/-- Settles O31: the prologue fails on the size check alone, and otherwise returns its defining values. -/
theorem gridFollowsTheParameters : Obligations.GridFollowsTheParameters := by
  refine ⟨fun s => ?_, fun s g hg => ?_⟩
  · rw [samplesAsked_eq]
    exact exists_grid_iff s
  · obtain ⟨hsize, hnb, hamp, hfs, hdur, hn, hspb, hndec⟩ := grid_some hg
    refine ⟨hnb, hamp, hfs, fun htime => ?_, fun htime => ?_, ?_, ?_, ?_, ?_⟩
    · rw [hdur, rawDuration, htime]
    · rw [hdur, hnb, rawDuration, htime]
      rfl
    · rw [hn, hfs, hdur]
      rfl
    · rw [hspb, hn, hnb]
      rfl
    · rw [hndec, hn, hspb]
    · rw [hn]
      exact gridSamples_le hsize

/-- Settles O32: `SPB` is the quotient of `N` by `NB` if that is not 0, and 1 otherwise. -/
theorem gridSizesInRange : Obligations.GridSizesInRange := by
  intro s g hg
  obtain ⟨-, hnb, -, -, -, hn, hspb, hndec⟩ := grid_some hg
  have hnb1 : 1 ≤ g.nb := hnb ▸ bitCount_pos s
  have hn1 : 1 ≤ g.n := hn ▸ gridSamples_pos s
  have hspb' : g.spb = max 1 (g.n / g.nb) := by rw [hspb, hn, hnb]; rfl
  have hndec' : g.ndec = g.n / g.spb := by rw [hndec, hn, hspb]
  have hspb1 : 1 ≤ g.spb := by omega
  have hspbn : g.spb ≤ g.n := by
    have := Nat.div_le_self g.n g.nb
    omega
  refine ⟨hn1, hspb1, ?_, ?_, fun hle => ?_, fun hlt => ?_⟩
  · rw [hndec']
    exact (Nat.one_le_div_iff (by omega)).2 hspbn
  · rw [hndec']
    exact Nat.div_le_self _ _
  · have hquot : g.spb = g.n / g.nb := by
      have := (Nat.one_le_div_iff (by omega)).2 hle
      omega
    have hfit : g.nb * g.spb ≤ g.n := by
      rw [hquot]
      exact Nat.mul_div_le _ _
    have hrest : g.n < g.nb * (g.spb + 1) := by
      rw [hquot]
      exact Nat.lt_mul_div_succ _ (by omega)
    refine ⟨?_, ?_, hfit⟩
    · rw [hndec', Nat.le_div_iff_mul_le (by omega)]
      exact hfit
    · have hdouble : g.nb * (g.spb + 1) ≤ 2 * g.nb * g.spb := by nlinarith
      have : g.n / g.spb < 2 * g.nb := by
        rw [Nat.div_lt_iff_lt_mul (by omega)]
        omega
      omega
  · have hspb1' : g.spb = 1 := by
      rw [hspb', Nat.div_eq_of_lt hlt]
      rfl
    rw [hndec', hspb1', Nat.div_one]
    exact ⟨rfl, rfl, hlt⟩

/-! What a generate leaves in each buffer. -/

section
variable {s : State} {g : Grid} (hinv : s.Inv) (hg : grid s = some g)
include hinv hg

/-- The buffers `BB`, `CAR` and `MOD` are the waveform's, since the commit writes others (R143). -/
theorem entry_commitGrid_waveform {u : State} (c : Bool) (sch : Scheme) {b : Buf} (hb : b = .bb ∨ b = .car ∨ b = .mod)
    {i : Nat} (hi : i < 65536) : entry (commitGrid g c sch u) b i = entry u b i := by
  obtain ⟨-, -, hnb, -, -, hn, -⟩ := grid_bounds hinv hg
  rw [entry_commitGrid hn hnb c sch u b i hi, entry_commitFallback u b i hi]
  rcases hb with rfl | rfl | rfl <;> simp

/-- The buffers `T`, `RX` and `MARK`, as the commit leaves them (R137, R142, R143). -/
theorem entry_commitGrid_own (c : Bool) (sch : Scheme) (u : State) :
    (∀ i, i < g.n → entry (commitGrid g c sch u) .t i = g.instant (nanEpoch u) i ∧
      entry (commitGrid g c sch u) .rx i = entry (commitGrid g c sch u) .mod i) ∧
      ∀ b, b ≤ g.nb → entry (commitGrid g c sch u) .mark b = g.marker (nanEpoch u) b := by
  obtain ⟨-, -, hnb, -, -, hn, -⟩ := grid_bounds hinv hg
  refine ⟨fun i hi => ⟨?_, ?_⟩, fun b hb => ?_⟩
  · rw [entry_commitGrid hn hnb c sch u .t i (by omega)]
    simp [hi]
  · rw [entry_commitGrid_waveform hinv hg c sch (.inr (.inr rfl)) (by omega),
      entry_commitGrid hn hnb c sch u .rx i (by omega)]
    simp [hi]
  · rw [entry_commitGrid hn hnb c sch u .mark b (by omega)]
    simp [hb]

/-- The fallback bits, once the grid is committed with `NBITS = 0` (R140). -/
theorem entry_commitGrid_bits {u : State} (hu : u.par.nbits.toNat = 0) (c : Bool) (sch : Scheme) {i : Nat}
    (hi : i < 4) : entry (commitGrid g c sch u) .bits i = bitWord (fallbackBit i) := by
  obtain ⟨-, -, hnb, -, -, hn, -⟩ := grid_bounds hinv hg
  rw [entry_commitGrid hn hnb c sch u .bits i (by omega), entry_commitFallback u .bits i (by omega)]
  simp [hu, hi]

/-- The registers and flags of either generate (R138, R143). -/
theorem generated_registers {t : State} {sch : Scheme} {c : Bool} (hder : t.der = g.derived)
    (hstatus : t.status = s.status.afterGenerate sch c) :
    t.der.n.toNat = g.n ∧ t.der.spb.toNat = g.spb ∧ t.der.ndec.toNat = g.ndec ∧ t.der.fsEff = g.fs ∧
      t.der.durEff = g.dur ∧ t.der.ampEff = g.amp ∧ t.der.psig = F64.zero ∧ t.der.sigma = F64.zero ∧
      t.status.genValid = true ∧ t.status.genScheme = sch ∧ t.status.noisy = false ∧ t.status.demodValid = false := by
  obtain ⟨hn, hspb, hndec⟩ := derived_counts hinv hg
  rw [hder, hstatus]
  exact ⟨hn, hspb, hndec, rfl, rfl, rfl, rfl, rfl, rfl, rfl, rfl, rfl⟩

end

theorem genBpskBody_of_grid {s : State} {g : Grid} (h : grid s = some g) :
    genBpskBody s =
      commitGrid g (g.clamped || (sanFreq s.par.fc).2) .bpsk (bpskWaveform g (carrierFreq s) s) := by
  simp only [genBpskBody, h, carrierFreq]

theorem genFskBody_of_grid {s : State} {g : Grid} (h : grid s = some g) :
    genFskBody s =
      commitGrid g (g.clamped || (sanFreq s.par.f0).2 || (sanFreq s.par.f1).2) .fsk
        (fskWaveform g (zeroFreq s) (oneFreq s) s) := by
  simp only [genFskBody, h, zeroFreq, oneFreq]

/-! `GEN_BPSK`. -/

/-- The waveform of R160 at each sample. -/
theorem entry_genBpskBody {s : State} {g : Grid} (hinv : s.Inv) (hg : grid s = some g) {i : Nat} (hi : i < g.n) :
    entry (genBpskBody s) .t i = g.instant s.fresh.nans i ∧
      entry (genBpskBody s) .bb i = nrz g.amp (sourceBit s (g.owner i)) ∧
      entry (genBpskBody s) .car i = cos (angle s.fresh.nans (carrierFreq s) (g.instant s.fresh.nans i)) ∧
      entry (genBpskBody s) .mod i =
        F64.mul s.fresh.nans (entry (genBpskBody s) .bb i) (entry (genBpskBody s) .car i) ∧
      entry (genBpskBody s) .rx i = entry (genBpskBody s) .mod i := by
  obtain ⟨-, -, -, -, -, hn, -⟩ := grid_bounds hinv hg
  have hi' : i < 65536 := by omega
  have hwave := fun b => entry_bpskWaveform hn (carrierFreq s) s b i hi'
  rw [genBpskBody_of_grid hg]
  obtain ⟨hown, -⟩ := entry_commitGrid_own hinv hg (g.clamped || (sanFreq s.par.fc).2) .bpsk
    (bpskWaveform g (carrierFreq s) s)
  obtain ⟨ht, hrx⟩ := hown i hi
  have hbb : entry (bpskWaveform g (carrierFreq s) s) .bb i = nrz g.amp (sourceBit s (g.owner i)) := by
    rw [hwave]; simp [hi]
  have hcar : entry (bpskWaveform g (carrierFreq s) s) .car i =
      cos (angle s.fresh.nans (carrierFreq s) (g.instant s.fresh.nans i)) := by
    rw [hwave]; simp [hi, nanEpoch]
  have hmod : entry (bpskWaveform g (carrierFreq s) s) .mod i =
      F64.mul s.fresh.nans (nrz g.amp (sourceBit s (g.owner i)))
        (cos (angle s.fresh.nans (carrierFreq s) (g.instant s.fresh.nans i))) := by
    rw [hwave]; simp [hi, nanEpoch]
  have hnans : nanEpoch (bpskWaveform g (carrierFreq s) s) = s.fresh.nans := by simp [nanEpoch]
  rw [hnans] at ht
  rw [hrx, ht, entry_commitGrid_waveform hinv hg _ _ (.inl rfl) hi',
    entry_commitGrid_waveform hinv hg _ _ (.inr (.inl rfl)) hi',
    entry_commitGrid_waveform hinv hg _ _ (.inr (.inr rfl)) hi', hbb, hcar, hmod]
  exact ⟨rfl, rfl, rfl, rfl, rfl⟩

/-- Settles O37: entry by entry, from the waveform and the commit. -/
theorem genBpskWritesTheWaveform : Obligations.GenBpskWritesTheWaveform := by
  intro s g hinv hidle hg
  obtain ⟨-, -, -, -, -, hphase⟩ := commandBody_keeps .genBpsk s
  obtain ⟨hder, -, hstatus, -⟩ := genBpskBody_registers hg
  refine ⟨genBpskBody s, exec_idle hidle nofun, hphase.trans hidle, fun i hi => ?_, fun b hb => ?_,
    generated_registers hinv hg hder hstatus⟩
  · obtain ⟨ht, hbb, hcar, hmod, hrx⟩ := entry_genBpskBody hinv hg hi
    refine ⟨ht, hbb, ?_, hmod, hrx⟩
    rw [ht]
    exact hcar
  · have hmark := (entry_commitGrid_own hinv hg (g.clamped || (sanFreq s.par.fc).2) .bpsk
      (bpskWaveform g (carrierFreq s) s)).2 b hb
    rw [genBpskBody_of_grid hg, hmark, Grid.marker]
    simp [nanEpoch]

/-! `GEN_FSK`. -/

/-- The waveform of R180 at each sample, in terms of the sample it is computed from (R184). -/
theorem entry_genFskBody {s : State} {g : Grid} (hinv : s.Inv) (hg : grid s = some g) {i : Nat} (hi : i < g.n) :
    entry (genFskBody s) .t i = g.instant s.fresh.nans i ∧
      entry (genFskBody s) .rx i = entry (genFskBody s) .mod i ∧
      entry (genFskBody s) .car i = fskCarrier s g (zeroFreq s) (oneFreq s) (g.source i) ∧
      entry (genFskBody s) .mod i =
        F64.mul s.fresh.nans g.amp (fskCarrier s g (zeroFreq s) (oneFreq s) (g.source i)) ∧
      entry (genFskBody s) .bb i = nrz g.amp (sourceBit s (g.source i / g.spb)) := by
  obtain ⟨-, -, -, -, -, hn, -⟩ := grid_bounds hinv hg
  have hi' : i < 65536 := by omega
  have hwave := fun b => entry_fskWaveform hn (zeroFreq s) (oneFreq s) s b i hi'
  rw [genFskBody_of_grid hg]
  obtain ⟨hown, -⟩ := entry_commitGrid_own hinv hg (g.clamped || (sanFreq s.par.f0).2 || (sanFreq s.par.f1).2) .fsk
    (fskWaveform g (zeroFreq s) (oneFreq s) s)
  obtain ⟨ht, hrx⟩ := hown i hi
  have hcar : entry (fskWaveform g (zeroFreq s) (oneFreq s) s) .car i =
      fskCarrier s g (zeroFreq s) (oneFreq s) (g.source i) := by
    rw [hwave]; simp [hi]
  have hmod : entry (fskWaveform g (zeroFreq s) (oneFreq s) s) .mod i =
      F64.mul s.fresh.nans g.amp (fskCarrier s g (zeroFreq s) (oneFreq s) (g.source i)) := by
    rw [hwave]; simp [hi, nanEpoch]
  have hbb : entry (fskWaveform g (zeroFreq s) (oneFreq s) s) .bb i =
      nrz g.amp (sourceBit s (g.source i / g.spb)) := by
    rw [hwave]; simp [hi]
  have hnans : nanEpoch (fskWaveform g (zeroFreq s) (oneFreq s) s) = s.fresh.nans := by simp [nanEpoch]
  rw [hnans] at ht
  rw [hrx, ht, entry_commitGrid_waveform hinv hg _ _ (.inl rfl) hi',
    entry_commitGrid_waveform hinv hg _ _ (.inr (.inl rfl)) hi',
    entry_commitGrid_waveform hinv hg _ _ (.inr (.inr rfl)) hi', hbb, hcar, hmod]
  exact ⟨rfl, rfl, rfl, rfl, rfl⟩

/-- A sample of a bit window is computed from itself (R180). -/
theorem source_of_lt {g : Grid} {i : Nat} (h : i < min g.n (g.nb * g.spb)) : g.source i = i := if_pos h

/-- A trailing sample is computed from the last one of the bit windows (R184). -/
theorem source_of_le {g : Grid} {i : Nat} (h : min g.n (g.nb * g.spb) ≤ i) :
    g.source i = min g.n (g.nb * g.spb) - 1 := if_neg (Nat.not_lt.2 h)

/-- Settles O38: entry by entry; a trailing sample and the last computed one have the same source. -/
theorem genFskWritesTheWaveform : Obligations.GenFskWritesTheWaveform := by
  intro s g hinv hidle hg
  obtain ⟨-, -, -, -, -, hphase⟩ := commandBody_keeps .genFsk s
  obtain ⟨hder, -, hstatus, -⟩ := genFskBody_registers hg
  obtain ⟨hnb1, -, -, hn1, -, -, hspb1, -⟩ := grid_bounds hinv hg
  have hfull : 1 ≤ min g.n (g.nb * g.spb) := Nat.le_min.2 ⟨hn1, Nat.mul_pos hnb1 hspb1⟩
  have hfulln : min g.n (g.nb * g.spb) ≤ g.n := Nat.min_le_left _ _
  refine ⟨genFskBody s, exec_idle hidle nofun, hphase.trans hidle, fun i hi => ?_, fun i hi => ?_, fun i hle hi => ?_,
    fun b hb => ?_, generated_registers hinv hg hder hstatus⟩
  · obtain ⟨ht, hrx, -⟩ := entry_genFskBody hinv hg hi
    exact ⟨ht, hrx⟩
  · obtain ⟨-, -, hcar, hmod, hbb⟩ := entry_genFskBody hinv hg (hi.trans_le hfulln)
    rw [hmod, hcar, hbb, source_of_lt hi]
    exact ⟨rfl, rfl, rfl⟩
  · have hlast : min g.n (g.nb * g.spb) - 1 < min g.n (g.nb * g.spb) := by omega
    obtain ⟨-, -, hcar, hmod, hbb⟩ := entry_genFskBody hinv hg hi
    obtain ⟨-, -, hcar', hmod', hbb'⟩ := entry_genFskBody hinv hg (hlast.trans_le hfulln)
    rw [hcar, hmod, hbb, hcar', hmod', hbb', source_of_le hle, source_of_lt hlast]
    exact ⟨rfl, rfl, rfl⟩
  · have hmark := (entry_commitGrid_own hinv hg (g.clamped || (sanFreq s.par.f0).2 || (sanFreq s.par.f1).2) .fsk
      (fskWaveform g (zeroFreq s) (oneFreq s) s)).2 b hb
    rw [genFskBody_of_grid hg, hmark, Grid.marker]
    simp [nanEpoch]

/-! The bits in use. -/

theorem toNat_eq_zero_iff (w : Word) : w.toNat = 0 ↔ w = 0 := by
  rw [← BitVec.toNat_inj]
  rfl

/-- Settles O35: the fallback is what `sourceBit` reads when `NBITS = 0`, and the commit writes it. -/
theorem fallbackBitsAreCommitted : Obligations.FallbackBitsAreCommitted := by
  refine ⟨fun s b hb => ?_, fun s g i hinv hidle hnbits hg hi => ?_⟩
  · rw [sourceBit, if_neg (by omega), BitVec.getLsbD, Nat.testBit_zero]
    rfl
  · have hzero : s.par.nbits.toNat = 0 := (toNat_eq_zero_iff _).2 hnbits
    have hnb : g.nb = 4 := by rw [(grid_some hg).2.1, bitCount, if_pos hzero]
    refine ⟨hnb, fun b _ => ?_, ?_⟩
    · rw [sourceBit, if_pos hzero]
      rfl
    rcases hi with rfl | rfl
    · obtain ⟨-, hpar, -⟩ := genBpskBody_registers hg
      have hbits := fun j (hj : j < 4) => entry_commitGrid_bits (u := bpskWaveform g (carrierFreq s) s) hinv hg
        (by rw [bpskWaveform_par]; exact hzero) (g.clamped || (sanFreq s.par.fc).2) .bpsk hj
      simp only [← genBpskBody_of_grid hg] at hbits
      exact ⟨genBpskBody s, exec_idle hidle nofun, by rw [hpar, if_pos hzero], hbits 0 (by decide),
        hbits 1 (by decide), hbits 2 (by decide), hbits 3 (by decide)⟩
    · obtain ⟨-, hpar, -⟩ := genFskBody_registers hg
      have hbits := fun j (hj : j < 4) => entry_commitGrid_bits (u := fskWaveform g (zeroFreq s) (oneFreq s) s) hinv hg
        (by rw [fskWaveform_par]; exact hzero) (g.clamped || (sanFreq s.par.f0).2 || (sanFreq s.par.f1).2) .fsk hj
      simp only [← genFskBody_of_grid hg] at hbits
      exact ⟨genFskBody s, exec_idle hidle nofun, by rw [hpar, if_pos hzero], hbits 0 (by decide),
        hbits 1 (by decide), hbits 2 (by decide), hbits 3 (by decide)⟩

/-! What a generate leaves alone. -/

theorem generateFootprint_eq (s : State) (g : Grid) : generateFootprint s g = generateEntries s g := by
  rw [generateFootprint, generateEntries, fallbackEntries, if_congr (toNat_eq_zero_iff _) rfl rfl]

/-- No command that the sequencer runs touches the surroundings. -/
theorem surroundingsKept_commandBody (m : Instr) (s : State) : SurroundingsKept s (commandBody m s) := by
  obtain ⟨hconf, hctrl, hreset, hagenda, hresponse, -⟩ := commandBody_keeps m s
  exact ⟨hconf, hctrl, hreset, hagenda, hresponse⟩

/-- Settles O39: a generate's body writes within its footprint, and its registers are known. -/
theorem generateFrame : Obligations.GenerateFrame := by
  intro s t g i hidle hg hi hexec
  have hruns : i ≠ .softReset := by rintro rfl; simp at hi
  obtain rfl := eq_commandBody_of_exec hexec hidle hruns
  have hphase : (commandBody i s).phase = .idle := (commandBody_keeps i s).2.2.2.2.2.trans hidle
  rw [generateFootprint_eq, ← if_congr (toNat_eq_zero_iff s.par.nbits) rfl rfl]
  rcases hi with rfl | rfl
  · obtain ⟨-, hpar, hstatus, hfresh⟩ := genBpskBody_registers hg
    refine ⟨(genBpskBody_writes hg).2.2.2, surroundingsKept_commandBody .genBpsk s, hphase, hpar, ?_, ?_, ?_⟩
    · exact (congrArg Status.err hstatus :)
    · exact (congrArg Status.demodScheme hstatus :)
    · exact (congrArg Fresh.draws hfresh :)
  · obtain ⟨-, hpar, hstatus, hfresh⟩ := genFskBody_registers hg
    refine ⟨(genFskBody_writes hg).2.2.2, surroundingsKept_commandBody .genFsk s, hphase, hpar, ?_, ?_, ?_⟩
    · exact (congrArg Status.err hstatus :)
    · exact (congrArg Status.demodScheme hstatus :)
    · exact (congrArg Fresh.draws hfresh :)

end Sys2Proof.Machine
end

section
/-! PROOFS. R186, R200 to R206, R220 to R259: the carrier at a bit's start, the noise command and the demodulators. -/

namespace Sys2Proof.F64

/-! Zeros as operands. -/

theorem mag_of_isZero {x : F64} (h : isZero x = true) : mag x = 0 := by
  have hx := x.isLt
  simp only [isZero, absBits, beq_iff_eq] at h
  have hexpo : expo x = 0 := by unfold expo; omega
  rw [mag, if_pos hexpo, frac]
  omega

theorem isZero_round_zero (s : Bool) (den : Nat) : isZero (round s 0 den) = true := by
  rw [isZero, absBits_round, roundBits_zero]
  rfl

/-- A zero over a number other than zero, finite or not, is a zero (R148). -/
theorem isZero_div {x y : F64} (hx : isZero x = true) (hy : isNaN y = false) (hy0 : isZero y = false) (ν : Nat) :
    isZero (div ν x y) = true := by
  have hfin := finite_of_isZero hx
  simp only [div, isNaN_of_finite hfin, isInf_of_finite hfin, hy, hy0, Bool.or_self, Bool.false_eq_true, if_false]
  split
  · exact isZero_pack _
  · rw [mag_of_isZero hx, Nat.zero_mul]
    exact isZero_round_zero _ _

/-- A finite number times a zero is a zero (R148). -/
theorem isZero_mul {x y : F64} (hx : finite x = true) (hy : isZero y = true) (ν : Nat) :
    isZero (mul ν x y) = true := by
  rw [mul_finite hx (finite_of_isZero hy), mag_of_isZero hy, Nat.mul_zero]
  exact isZero_round_zero _ _

theorem isZero_ofNat_zero : isZero (ofNat 0) = true := by rw [ofNat_zero]; decide

/-- Equal terms have equal sums (R12). -/
theorem sum_congr {f g : Nat → F64} (ν : Nat) : ∀ {n : Nat}, (∀ j, j < n → f j = g j) → sum ν f n = sum ν g n
  | 0, _ => rfl
  | n + 1, h => by
    rw [sum, sum, sum_congr ν fun j hj => h j (Nat.lt_succ_of_lt hj), h n (Nat.lt_succ_self n)]

end Sys2Proof.F64

namespace Sys2Proof.Machine

/-- In local time the first sample of a bit is at phase 0 (R181). -/
theorem fskCarrier_at_bit_start {s : State} {g : Grid} (hg : grid s = some g) {f0 f1 : F64} {b : Nat}
    (hspb : 1 ≤ g.spb)
    (hfin : F64.finite (F64.mul s.fresh.nans twoPi (if sourceBit s b then f1 else f0)) = true) :
    fskCarrier s g f0 f1 (b * g.spb) = F64.one := by
  have hfs : g.fs = (sanMin s.par.fs fsMin).1 := (grid_some hg).2.2.2.1
  have htime : F64.isZero (F64.div s.fresh.nans (F64.ofNat 0) g.fs) = true := by
    rw [hfs]
    exact F64.isZero_div F64.isZero_ofNat_zero (isNaN_sanMin (.inl rfl) _) (isZero_sanMin (.inl rfl) _) _
  rw [fskCarrier, Nat.mul_div_cancel _ hspb, Nat.sub_self]
  exact cos_of_isZero (F64.isZero_mul hfin htime _)

/-- Settles O40: such a sample is its own source, and its angle is a zero. -/
theorem fskBitStartsAtCarrierOne : Obligations.FskBitStartsAtCarrierOne := by
  intro s t g b hinv hidle hg hexec hb hfin
  obtain rfl := eq_commandBody_of_exec hexec hidle nofun
  obtain ⟨-, -, -, -, -, -, hspb, -⟩ := grid_bounds hinv hg
  obtain ⟨-, -, hcar, -⟩ := entry_genFskBody hinv hg (hb.trans_le (Nat.min_le_left _ _))
  refine hcar.trans ?_
  rw [source_of_lt hb]
  exact fskCarrier_at_bit_start hg hspb hfin

/-! Noise. -/

theorem twoTo53_eq : twoTo53 = F64.ofNat (2 ^ 53) := by decide +kernel

theorem minusTwo_eq : (0xC000000000000000 : F64) = F64.neg (F64.ofNat 2) := by decide +kernel

theorem ten_eq : (0x4024000000000000 : F64) = F64.ofNat 10 := by decide +kernel

/-- The noise command on a valid grid, `SNR_DB` finite (R200). -/
theorem addNoiseBody_of_finite {s : State} (hvalid : s.status.genValid = true) (hsnr : F64.finite s.par.snrDb = true) :
    addNoiseBody s = addGaussianNoise s := by
  simp [addNoiseBody, hvalid, hsnr]

@[simp] theorem addGaussianNoise_der (s : State) :
    (addGaussianNoise s).der = { s.der with psig := signalPower s, sigma := noiseSigma s } := by
  simp [addGaussianNoise]

theorem entry_addGaussianNoise {s : State} (hn : sampleCount s ≤ 65536) {i : Nat} (hi : i < sampleCount s) :
    entry (addGaussianNoise s) .rx i = noisySample s (noiseSigma s) i :=
  calc entry (addGaussianNoise s) .rx i
      = entry (fill .rx (noisySample s (noiseSigma s)) (sampleCount s) s) .rx i := entry_congr rfl rfl _ _
    _ = noisySample s (noiseSigma s) i := entry_fill_same _ _ _ _ _ hn hi

/-- Settles O43: the power, the deviation and each sample as the model defines them, the constants by value. -/
theorem finiteSnrAddsGaussianNoise : Obligations.FiniteSnrAddsGaussianNoise := by
  intro s hinv hidle hvalid hsnr
  obtain ⟨-, hstatus, -, -, -, hfresh⟩ := addNoiseBody_registers hvalid
  obtain ⟨hcount, -, -⟩ := counts_bounds hinv
  have hexec : exec .addNoise s = .next (addNoiseBody s) := exec_idle hidle nofun
  rw [hsnr] at hstatus hfresh
  rw [addNoiseBody_of_finite hvalid hsnr] at hstatus hfresh hexec
  refine ⟨addGaussianNoise s, hexec, ?_, ?_, ?_, fun i hi => ?_, ?_, ?_, ?_⟩
  · rw [addGaussianNoise_phase, hidle]
  · rw [addGaussianNoise_der, signalPower, nanEpoch, sampleCount]
  · rw [addGaussianNoise_der, noiseSigma, ten_eq, nanEpoch]
  · rw [entry_addGaussianNoise hcount hi, addGaussianNoise_der, noisySample, gaussian, twoTo53_eq, minusTwo_eq, nanEpoch]
  · exact (congrArg Fresh.draws hfresh :)
  · exact (congrArg Status.noisy hstatus :)
  · exact (congrArg Status.demodValid hstatus :)

/-- The noise command leaves the grid registers (R49, R200). -/
theorem gridRegistersKept_addNoiseBody (s : State) : GridRegistersKept s (addNoiseBody s) := by
  unfold addNoiseBody
  split_ifs
  · exact ⟨rfl, rfl, rfl, rfl, rfl, rfl⟩
  · rw [GridRegistersKept, addGaussianNoise_der]
    exact ⟨rfl, rfl, rfl, rfl, rfl, rfl⟩
  · rw [GridRegistersKept, copyWithoutNoise_der]
    exact ⟨rfl, rfl, rfl, rfl, rfl, rfl⟩

/-- Settles O44: the body writes within `RX`, and its registers are known. -/
theorem noiseFrame : Obligations.NoiseFrame := by
  intro s t hidle hvalid hexec
  obtain rfl := eq_commandBody_of_exec hexec hidle nofun
  obtain ⟨hpar, hstatus, -⟩ := addNoiseBody_registers hvalid
  refine ⟨(addNoiseBody_writes s).2.2.2, surroundingsKept_commandBody .addNoise s, gridRegistersKept_addNoiseBody s,
    (commandBody_keeps .addNoise s).2.2.2.2.2.trans hidle, hpar, ?_⟩
  show (addNoiseBody s).status = { s.status with noisy := (addNoiseBody s).status.noisy, demodValid := false }
  rw [hstatus]
  rfl

/-! The stages of a demodulation. -/

/-- The filter stage of `DEMOD_BPSK` (R222). -/
def filtered (s : State) : State := fill .filt (movingAverage s) (sampleCount s) s

/-- The decision stage of `DEMOD_BPSK` (R223). -/
def decidedBpsk (s : State) : State :=
  fill .dec (fun b => bitWord (F64.gt (statistic s b) F64.zero)) (decisionCount s) s

/-- The correlations of `DEMOD_FSK` (R251, R252). -/
def correlated (f0 f1 : F64) (s : State) : State :=
  fill .e1 (correlation s f1) (decisionCount s) (fill .e0 (correlation s f0) (decisionCount s) s)

/-- The decision stage of `DEMOD_FSK` (R253). -/
def decidedFsk (s : State) : State :=
  fill .dec (fun b => bitWord (F64.gt (entry s .e1 b) (entry s .e0 b))) (decisionCount s) s

theorem demodBpskBody_of_valid {s : State} (h : s.status.genValid = true) :
    demodBpskBody s =
      finishDemod .bpsk (sanFreq s.par.fc).2 (reconstruct (decidedBpsk (filtered (mixDown (carrierFreq s) s)))) := by
  simp only [demodBpskBody, h, Bool.not_true, Bool.false_eq_true, if_false, carrierFreq, decidedBpsk, filtered]

theorem demodFskBody_of_valid {s : State} (h : s.status.genValid = true) :
    demodFskBody s =
      finishDemod .fsk ((sanFreq s.par.f0).2 || (sanFreq s.par.f1).2)
        (reconstruct (decidedFsk (correlated (zeroFreq s) (oneFreq s) s))) := by
  simp only [demodFskBody, h, Bool.not_true, Bool.false_eq_true, if_false, zeroFreq, oneFreq, decidedFsk, correlated,
    decisionCount, fill_der]

@[simp] theorem filtered_ctrl (s : State) : (filtered s).ctrl = s.ctrl := fill_ctrl _ _ _ _
@[simp] theorem filtered_der (s : State) : (filtered s).der = s.der := fill_der _ _ _ _
@[simp] theorem filtered_fresh (s : State) : (filtered s).fresh = s.fresh := fill_fresh _ _ _ _
@[simp] theorem decidedBpsk_der (s : State) : (decidedBpsk s).der = s.der := fill_der _ _ _ _
@[simp] theorem decidedFsk_der (s : State) : (decidedFsk s).der = s.der := fill_der _ _ _ _
@[simp] theorem correlated_der (f0 f1 : F64) (s : State) : (correlated f0 f1 s).der = s.der := by simp [correlated]

/-- The last stage leaves every buffer but `RECON` (R144). -/
theorem entry_finishDemod_other {s : State} (hn : sampleCount s ≤ 65536) (sch : Scheme) (c : Bool) {b : Buf}
    (hb : b ≠ .recon) {i : Nat} (hi : i < 65536) :
    entry (finishDemod sch c (reconstruct s)) b i = entry s b i :=
  ((entry_congr rfl rfl b i).trans (entry_reconstruct hn b i hi)).trans (if_neg fun h => hb h.1)

/-- `RECON` follows the decision of each sample's interval (R144). -/
theorem entry_finishDemod_recon {s : State} (hn : sampleCount s ≤ 65536) (hndec : decisionCount s ≤ sampleCount s)
    (sch : Scheme) (c : Bool) {i : Nat} (hi : i < sampleCount s) :
    entry (finishDemod sch c (reconstruct s)) .recon i =
      if entry (finishDemod sch c (reconstruct s)) .dec (min (i / samplesPerBit s) (decisionCount s - 1)) = 1
      then F64.one else F64.negOne := by
  rw [entry_finishDemod_other hn sch c (b := .dec) (by decide) (by omega)]
  exact ((entry_congr rfl rfl .recon i).trans (entry_reconstruct hn .recon i (by omega))).trans (if_pos ⟨rfl, hi⟩)

/-! `DEMOD_BPSK`. -/

section
variable {s : State} (hinv : s.Inv) (hvalid : s.status.genValid = true)
include hinv hvalid

/-- The last two stages write `DEC` and `RECON` alone. -/
theorem entry_demodBpskBody_other {b : Buf} (hb : b ≠ .dec ∧ b ≠ .recon) {i : Nat} (hi : i < 65536) :
    entry (demodBpskBody s) b i = entry (filtered (mixDown (carrierFreq s) s)) b i := by
  obtain ⟨hn, hndec, -⟩ := counts_bounds hinv
  simp only [sampleCount, decisionCount] at hn hndec
  rw [demodBpskBody_of_valid hvalid, entry_finishDemod_other (by simpa [sampleCount] using hn) _ _ hb.2 hi,
    decidedBpsk, entry_fill_other hb.1 _ _ _ _ (by simp [decisionCount]; omega) hi]

theorem entry_demodBpskBody_mixed {i : Nat} (hi : i < sampleCount s) :
    entry (demodBpskBody s) .mixed i =
        F64.mul s.fresh.nans (entry s .rx i) (cos (angle s.fresh.nans (carrierFreq s) (entry s .t i))) ∧
      entry (demodBpskBody s) .q i =
        F64.mul s.fresh.nans (entry s .rx i) (sin (angle s.fresh.nans (carrierFreq s) (entry s .t i))) := by
  obtain ⟨hn, -, -⟩ := counts_bounds hinv
  have hi' : i < 65536 := by omega
  have hn' : sampleCount (mixDown (carrierFreq s) s) ≤ 65536 := by simpa [sampleCount] using hn
  have hmix := fun b => entry_mixDown hn (carrierFreq s) b i hi'
  constructor
  · rw [entry_demodBpskBody_other hinv hvalid (by decide) hi', filtered, entry_fill_other (by decide) _ _ _ _ hn' hi',
      hmix]
    simp [hi, nanEpoch]
  · rw [entry_demodBpskBody_other hinv hvalid (by decide) hi', filtered, entry_fill_other (by decide) _ _ _ _ hn' hi',
      hmix]
    simp [hi, nanEpoch]

/-- The window of sample `i` in R222 has `min(i + 1, SPB)` samples from `max(0, i - SPB + 1)` on. -/
theorem windowLength {i : Nat} : i - (i + 1 - samplesPerBit s) + 1 = min (i + 1) (samplesPerBit s) := by
  have hspb := hinv.grid_pos hvalid
  omega

theorem entry_demodBpskBody_filt {i : Nat} (hi : i < sampleCount s) :
    entry (demodBpskBody s) .filt i =
      F64.div s.fresh.nans
        (F64.sum s.fresh.nans (fun j => entry (demodBpskBody s) .mixed (i + 1 - samplesPerBit s + j))
          (min (i + 1) (samplesPerBit s)))
        (F64.ofNat (min (i + 1) (samplesPerBit s))) := by
  obtain ⟨hn, -, -⟩ := counts_bounds hinv
  have hspb := hinv.grid_pos hvalid
  have hi' : i < 65536 := by omega
  have hn' : sampleCount (mixDown (carrierFreq s) s) ≤ 65536 := by simpa [sampleCount] using hn
  have hspb' : samplesPerBit (mixDown (carrierFreq s) s) = samplesPerBit s := by simp [samplesPerBit]
  have hmixed : ∀ j, j < min (i + 1) (samplesPerBit s) →
      entry (mixDown (carrierFreq s) s) .mixed (i + 1 - samplesPerBit s + j) =
        entry (demodBpskBody s) .mixed (i + 1 - samplesPerBit s + j) := by
    intro j hj
    have hj' : i + 1 - samplesPerBit s + j < 65536 := by omega
    rw [entry_demodBpskBody_other hinv hvalid (by decide) hj', filtered, entry_fill_other (by decide) _ _ _ _ hn' hj']
  rw [entry_demodBpskBody_other hinv hvalid (by decide) hi', filtered,
    entry_fill_same _ _ _ _ _ hn' (by simpa [sampleCount] using hi), movingAverage]
  simp only [windowStart, hspb', windowLength hinv hvalid, nanEpoch, mixDown_fresh]
  rw [F64.sum_congr s.fresh.nans hmixed]

theorem entry_demodBpskBody_dec {b : Nat} (hb : b < decisionCount s) :
    entry (demodBpskBody s) .dec b =
      bitWord (F64.gt (statistic (filtered (mixDown (carrierFreq s) s)) b) F64.zero) := by
  obtain ⟨hn, hndec, -⟩ := counts_bounds hinv
  rw [demodBpskBody_of_valid hvalid, entry_finishDemod_other (by simpa [sampleCount] using hn) _ _ (by decide) (by omega),
    decidedBpsk, entry_fill_same]
  · simp only [decisionCount, filtered_der, mixDown_der] at *
    omega
  · simpa [decisionCount] using hb

/-- The decision statistic, read from the final state's `FILT` (R223, R224). -/
theorem statistic_filtered {b : Nat} (hb : b < decisionCount s) :
    statistic (filtered (mixDown (carrierFreq s) s)) b =
      match s.ctrl.policy with
      | .atEnd => entry (demodBpskBody s) .filt (b * samplesPerBit s + samplesPerBit s - 1)
      | .midpoint => entry (demodBpskBody s) .filt (b * samplesPerBit s + samplesPerBit s / 2)
      | .intervalAverage =>
        F64.div s.fresh.nans
          (F64.sum s.fresh.nans (fun j => entry (demodBpskBody s) .filt (b * samplesPerBit s + j)) (samplesPerBit s))
          (F64.ofNat (samplesPerBit s)) := by
  obtain ⟨hn, -, -⟩ := counts_bounds hinv
  have hspb := hinv.grid_pos hvalid
  have hfilt : ∀ j, j < samplesPerBit s → entry (filtered (mixDown (carrierFreq s) s)) .filt (b * samplesPerBit s + j) =
      entry (demodBpskBody s) .filt (b * samplesPerBit s + j) := fun j hj =>
    (entry_demodBpskBody_other hinv hvalid (by decide) ((interval_sample_lt hinv hb hj).trans_le hn)).symm
  have hspb' : samplesPerBit (filtered (mixDown (carrierFreq s) s)) = samplesPerBit s := by simp [samplesPerBit]
  unfold statistic
  simp only [hspb', nanEpoch, filtered_ctrl, filtered_fresh, mixDown_ctrl, mixDown_fresh]
  cases s.ctrl.policy with
  | atEnd => simpa only [Nat.add_sub_assoc hspb] using hfilt (samplesPerBit s - 1) (by omega)
  | midpoint => exact hfilt (samplesPerBit s / 2) (by omega)
  | intervalAverage => simp only [F64.sum_congr s.fresh.nans hfilt]

theorem entry_demodBpskBody_recon {i : Nat} (hi : i < sampleCount s) :
    entry (demodBpskBody s) .recon i =
      if entry (demodBpskBody s) .dec (min (i / samplesPerBit s) (decisionCount s - 1)) = 1 then F64.one
      else F64.negOne := by
  obtain ⟨hn, hndec, -⟩ := counts_bounds hinv
  have hder : (decidedBpsk (filtered (mixDown (carrierFreq s) s))).der = s.der := by simp
  have hrecon := entry_finishDemod_recon (s := decidedBpsk (filtered (mixDown (carrierFreq s) s)))
    (by rwa [sampleCount, hder]) (by rwa [sampleCount, decisionCount, hder])
  rw [demodBpskBody_of_valid hvalid, hrecon _ _ (by rwa [sampleCount, hder]), samplesPerBit, decisionCount, hder]
  rfl

end

/-- Settles O45: stage by stage, each buffer read from the final state. -/
theorem demodBpskDecides : Obligations.DemodBpskDecides := by
  intro s hinv hidle hvalid
  obtain ⟨-, -, hstatus, -⟩ := demodBpskBody_registers hvalid
  refine ⟨demodBpskBody s, exec_idle hidle nofun, (commandBody_keeps .demodBpsk s).2.2.2.2.2.trans hidle,
    fun i hi => ?_, fun b hb => ?_, ?_, ?_⟩
  · obtain ⟨hmixed, hq⟩ := entry_demodBpskBody_mixed hinv hvalid hi
    exact ⟨hmixed, hq, entry_demodBpskBody_filt hinv hvalid hi, entry_demodBpskBody_recon hinv hvalid hi⟩
  · rw [entry_demodBpskBody_dec hinv hvalid hb, statistic_filtered hinv hvalid hb]
    rfl
  · rw [hstatus]; rfl
  · rw [hstatus]; rfl

/-! `DEMOD_FSK`. -/

section
variable {s : State} (hinv : s.Inv) (hvalid : s.status.genValid = true)
include hinv

/-- The correlations are of `RX` and `T`, which the demodulation does not write (R251, R252). -/
theorem entry_correlated (f0 f1 : F64) {b : Nat} (hb : b < decisionCount s) :
    entry (correlated f0 f1 s) .e0 b = correlation s f0 b ∧ entry (correlated f0 f1 s) .e1 b = correlation s f1 b := by
  obtain ⟨hn, hndec, -⟩ := counts_bounds hinv
  have hnd : decisionCount s ≤ 65536 := by omega
  constructor
  · rw [correlated, entry_fill_other (by decide) _ _ _ _ hnd (by omega), entry_fill_same _ _ _ _ _ hnd hb]
  · rw [correlated, entry_fill_same _ _ _ _ _ hnd hb]

include hvalid

theorem entry_demodFskBody {b : Nat} (hb : b < decisionCount s) :
    entry (demodFskBody s) .e0 b = correlation s (zeroFreq s) b ∧
      entry (demodFskBody s) .e1 b = correlation s (oneFreq s) b ∧
      entry (demodFskBody s) .dec b =
        bitWord (F64.gt (entry (demodFskBody s) .e1 b) (entry (demodFskBody s) .e0 b)) := by
  obtain ⟨hn, hndec, -⟩ := counts_bounds hinv
  have hn' : sampleCount (decidedFsk (correlated (zeroFreq s) (oneFreq s) s)) ≤ 65536 := by
    simpa [sampleCount] using hn
  have hcount : decisionCount (correlated (zeroFreq s) (oneFreq s) s) = decisionCount s := by simp [decisionCount]
  obtain ⟨he0, he1⟩ := entry_correlated hinv (zeroFreq s) (oneFreq s) hb
  have hfinal : ∀ c, c ≠ .recon → entry (demodFskBody s) c b =
      if c = .dec ∧ b < decisionCount s then
        bitWord (F64.gt (correlation s (oneFreq s) b) (correlation s (zeroFreq s) b))
      else entry (correlated (zeroFreq s) (oneFreq s) s) c b := by
    intro c hc
    rw [demodFskBody_of_valid hvalid, entry_finishDemod_other hn' _ _ hc (by omega), decidedFsk,
      hcount, entry_fill _ _ _ _ _ _ (by omega) (by omega), he0, he1]
  rw [hfinal .e0 (by decide), hfinal .e1 (by decide), hfinal .dec (by decide), if_neg (fun h => nomatch h.1),
    if_neg (fun h => nomatch h.1), if_pos ⟨rfl, hb⟩, he0, he1]
  exact ⟨rfl, rfl, rfl⟩

theorem entry_demodFskBody_recon {i : Nat} (hi : i < sampleCount s) :
    entry (demodFskBody s) .recon i =
      if entry (demodFskBody s) .dec (min (i / samplesPerBit s) (decisionCount s - 1)) = 1 then F64.one
      else F64.negOne := by
  obtain ⟨hn, hndec, -⟩ := counts_bounds hinv
  have hder : (decidedFsk (correlated (zeroFreq s) (oneFreq s) s)).der = s.der := by simp
  have hrecon := entry_finishDemod_recon (s := decidedFsk (correlated (zeroFreq s) (oneFreq s) s))
    (by rwa [sampleCount, hder]) (by rwa [sampleCount, decisionCount, hder])
  rw [demodFskBody_of_valid hvalid, hrecon _ _ (by rwa [sampleCount, hder]), samplesPerBit, decisionCount, hder]
  rfl

end

/-- Settles O46: the correlations, the comparison and the reconstruction, each read from the final state. -/
theorem demodFskDecides : Obligations.DemodFskDecides := by
  intro s hinv hidle hvalid
  obtain ⟨-, -, hstatus, -⟩ := demodFskBody_registers hvalid
  refine ⟨demodFskBody s, exec_idle hidle nofun, (commandBody_keeps .demodFsk s).2.2.2.2.2.trans hidle,
    fun b hb => ?_, fun i hi => entry_demodFskBody_recon hinv hvalid hi, ?_, ?_⟩
  · exact entry_demodFskBody hinv hvalid hb
  · rw [hstatus]; rfl
  · rw [hstatus]; rfl

/-- Settles O48: equal tones have one correlation, which is not above itself; every sample's interval decides 0. -/
theorem equalTonesDecideZero : Obligations.EqualTonesDecideZero := by
  intro s t hinv hidle hvalid htones hexec
  obtain rfl := eq_commandBody_of_exec hexec hidle nofun
  have hdec : ∀ b, b < decisionCount s →
      entry (demodFskBody s) .e1 b = entry (demodFskBody s) .e0 b ∧ entry (demodFskBody s) .dec b = 0 := by
    intro b hb
    obtain ⟨he0, he1, hd⟩ := entry_demodFskBody hinv hvalid hb
    have heq : entry (demodFskBody s) .e1 b = entry (demodFskBody s) .e0 b := by rw [he0, he1, htones]
    refine ⟨heq, ?_⟩
    rw [hd, heq, F64.gt_self]
    rfl
  refine ⟨hdec, fun i _ => ?_⟩
  have hspb := hinv.grid_pos hvalid
  have hndec : 1 ≤ decisionCount s := by
    rw [hinv.ndec_eq]
    exact (Nat.one_le_div_iff hspb).2 hinv.spb_le
  refine (entry_demodFskBody_recon hinv hvalid (by assumption)).trans (if_neg ?_)
  rw [(hdec _ (by omega)).2]
  decide

/-- Settles O47: the bodies write within their footprints, and their registers are known. -/
theorem demodulateFrame : Obligations.DemodulateFrame := by
  intro s t hidle hvalid
  have hkeep : ∀ i, i = .demodBpsk ∨ i = .demodFsk → (commandBody i s).der = s.der ∧ (commandBody i s).par = s.par ∧
      ∃ sch c, (commandBody i s).status = s.status.afterDemod sch c ∧
        (commandBody i s).fresh = { s.fresh with nans := s.fresh.nans + 1 } := by
    rintro i (rfl | rfl)
    · obtain ⟨hder, hpar, hstatus, hfresh⟩ := demodBpskBody_registers hvalid
      exact ⟨hder, hpar, _, _, hstatus, hfresh⟩
    · obtain ⟨hder, hpar, hstatus, hfresh⟩ := demodFskBody_registers hvalid
      exact ⟨hder, hpar, _, _, hstatus, hfresh⟩
  refine ⟨⟨fun hexec => ?_, fun hexec => ?_⟩, fun hexec => ?_⟩
  · obtain rfl := eq_commandBody_of_exec hexec hidle nofun
    exact (demodBpskBody_writes s).2.2.2
  · obtain rfl := eq_commandBody_of_exec hexec hidle nofun
    exact (demodFskBody_writes s).2.2.2
  · obtain ⟨i, hi, rfl⟩ : ∃ i, (i = .demodBpsk ∨ i = .demodFsk) ∧ t = commandBody i s :=
      hexec.elim (fun h => ⟨_, .inl rfl, eq_commandBody_of_exec h hidle nofun⟩)
        fun h => ⟨_, .inr rfl, eq_commandBody_of_exec h hidle nofun⟩
    obtain ⟨hder, hpar, sch, c, hstatus, hfresh⟩ := hkeep i hi
    rw [hstatus, hfresh]
    exact ⟨surroundingsKept_commandBody i s, (commandBody_keeps i s).2.2.2.2.2.trans hidle, hpar, hder, rfl, rfl, rfl,
      rfl, rfl⟩

end Sys2Proof.Machine
end

section
/-! PROOFS. R49, R50, R60, R272, R273: `RUN` is its three phases, and which steps write the grid registers. -/

namespace Sys2Proof.Machine

/-! `RUN`. -/

/-- The generate of a scheme, and the demodulation of a scheme (R272). -/
def generateOf : Scheme → Instr
  | .bpsk => .genBpsk
  | .fsk => .genFsk

def demodulateOf : Scheme → Instr
  | .bpsk => .demodBpsk
  | .fsk => .demodFsk

theorem generateOf_eq (sch : Scheme) : generateOf sch = if sch = .bpsk then .genBpsk else .genFsk := by
  cases sch <;> rfl

theorem demodulateOf_eq (sch : Scheme) : demodulateOf sch = if sch = .bpsk then .demodBpsk else .demodFsk := by
  cases sch <;> rfl

theorem generateOf_ne (sch : Scheme) : generateOf sch ≠ .softReset := by cases sch <;> exact nofun

theorem demodulateOf_ne (sch : Scheme) : demodulateOf sch ≠ .softReset := by cases sch <;> exact nofun

theorem runBody_phases {s : State} {g : Grid} (h : grid s = some g) :
    runBody s =
      commandBody (demodulateOf s.ctrl.scheme) (addNoiseBody (commandBody (generateOf s.ctrl.scheme) s)) := by
  cases hs : s.ctrl.scheme with
  | bpsk => exact runBody_bpsk h hs
  | fsk => exact runBody_fsk h hs

theorem generate_registers (sch : Scheme) {s : State} {g : Grid} (h : grid s = some g) :
    (commandBody (generateOf sch) s).der = g.derived ∧
      (commandBody (generateOf sch) s).par = (if s.par.nbits.toNat = 0 then { s.par with nbits := 4 } else s.par) ∧
      (∃ c, (commandBody (generateOf sch) s).status = s.status.afterGenerate sch c) ∧
      (commandBody (generateOf sch) s).fresh = { s.fresh with nans := s.fresh.nans + 1 } := by
  cases sch with
  | bpsk =>
    obtain ⟨hder, hpar, hstatus, hfresh⟩ := genBpskBody_registers h
    exact ⟨hder, hpar, ⟨_, hstatus⟩, hfresh⟩
  | fsk =>
    obtain ⟨hder, hpar, hstatus, hfresh⟩ := genFskBody_registers h
    exact ⟨hder, hpar, ⟨_, hstatus⟩, hfresh⟩

theorem generate_writes (sch : Scheme) {s : State} {g : Grid} (h : grid s = some g) :
    WritesWithin (generateEntries s g) s (commandBody (generateOf sch) s) := by
  cases sch with
  | bpsk => exact genBpskBody_writes h
  | fsk => exact genFskBody_writes h

theorem demodulate_registers (sch : Scheme) {s : State} (h : s.status.genValid = true) :
    (commandBody (demodulateOf sch) s).der = s.der ∧ (commandBody (demodulateOf sch) s).par = s.par ∧
      (∃ c, (commandBody (demodulateOf sch) s).status = s.status.afterDemod sch c) ∧
      (commandBody (demodulateOf sch) s).fresh = { s.fresh with nans := s.fresh.nans + 1 } := by
  cases sch with
  | bpsk =>
    obtain ⟨hder, hpar, hstatus, hfresh⟩ := demodBpskBody_registers h
    exact ⟨hder, hpar, ⟨_, hstatus⟩, hfresh⟩
  | fsk =>
    obtain ⟨hder, hpar, hstatus, hfresh⟩ := demodFskBody_registers h
    exact ⟨hder, hpar, ⟨_, hstatus⟩, hfresh⟩

theorem demodulate_writes (sch : Scheme) (s : State) :
    WritesWithin (demodWrites sch (sampleCount s) (decisionCount s)) s (commandBody (demodulateOf sch) s) := by
  cases sch with
  | bpsk => exact demodBpskBody_writes s
  | fsk => exact demodFskBody_writes s

/-- The fallback changes `NBITS` alone. -/
theorem snrDb_fallback (p : Params) : (if p.nbits.toNat = 0 then { p with nbits := 4 } else p).snrDb = p.snrDb := by
  split <;> rfl

/-- The registers and flags that `RUN` leaves (R272). -/
theorem runBody_registers {s : State} {g : Grid} (h : grid s = some g) :
    GridRegistersKept (commandBody (generateOf s.ctrl.scheme) s) (runBody s) ∧
      (runBody s).par = (if s.par.nbits.toNat = 0 then { s.par with nbits := 4 } else s.par) ∧
      (∃ c c', (runBody s).status =
        ((s.status.afterGenerate s.ctrl.scheme c).afterNoise (F64.finite s.par.snrDb)).afterDemod s.ctrl.scheme c') ∧
      (runBody s).fresh.draws =
        s.fresh.draws +
          (if F64.finite s.par.snrDb then 2 * sampleCount (commandBody (generateOf s.ctrl.scheme) s) else 0) := by
  obtain ⟨-, hpar, ⟨c, hstatus⟩, hfresh⟩ := generate_registers s.ctrl.scheme h
  have hvalid : (commandBody (generateOf s.ctrl.scheme) s).status.genValid = true := by rw [hstatus]; rfl
  obtain ⟨hpar1, hstatus1, -, -, -, hfresh1⟩ := addNoiseBody_registers hvalid
  have hvalid1 : (addNoiseBody (commandBody (generateOf s.ctrl.scheme) s)).status.genValid = true := by
    rw [hstatus1]; exact hvalid
  obtain ⟨hder2, hpar2, ⟨c', hstatus2⟩, hfresh2⟩ := demodulate_registers s.ctrl.scheme hvalid1
  have hsnr : (commandBody (generateOf s.ctrl.scheme) s).par.snrDb = s.par.snrDb := by rw [hpar, snrDb_fallback]
  rw [hsnr] at hstatus1 hfresh1
  rw [runBody_phases h]
  refine ⟨?_, ?_, ⟨c, c', ?_⟩, ?_⟩
  · rw [GridRegistersKept, hder2]
    exact gridRegistersKept_addNoiseBody _
  · rw [hpar2, hpar1, hpar]
  · rw [hstatus2, hstatus1, hstatus]
  · rw [hfresh2, hfresh1, hfresh]

/-- Settles O50: each command from an idle state is its body, and `RUN`'s body is the three in turn. -/
theorem runEqualsItsThreePhases : Obligations.RunEqualsItsThreePhases := by
  intro s g hidle hg
  have hphase1 := (commandBody_keeps (generateOf s.ctrl.scheme) s).2.2.2.2.2.trans hidle
  have hphase2 := (commandBody_keeps .addNoise (commandBody (generateOf s.ctrl.scheme) s)).2.2.2.2.2.trans hphase1
  obtain ⟨-, -, ⟨c, c', hstatus⟩, -⟩ := runBody_registers hg
  rw [← generateOf_eq, ← demodulateOf_eq]
  refine ⟨_, _, _, exec_idle hidle (generateOf_ne _), exec_idle hphase1 nofun,
    exec_idle hphase2 (demodulateOf_ne _), ?_, ?_⟩
  · exact (exec_idle (i := .run) hidle nofun).trans (congrArg Host.Outcome.next (runBody_phases hg))
  · have hnoise : commandBody .addNoise = addNoiseBody := rfl
    rw [hnoise, ← runBody_phases hg, hstatus]
    exact ⟨(commandBody_keeps .run s).2.2.2.2.2.trans hidle, rfl, rfl, rfl, rfl, rfl, rfl⟩

/-- `RUN` writes the entries of its phases (R167, R204, R232, R259). -/
theorem runBody_writes {s : State} {g : Grid} (hinv : s.Inv) (hg : grid s = some g) :
    WritesWithin (generateEntries s g ++ demodWrites s.ctrl.scheme g.n g.ndec) s (runBody s) := by
  obtain ⟨hder, -, ⟨c, hstatus⟩, -⟩ := generate_registers s.ctrl.scheme hg
  obtain ⟨hn, -, hndec⟩ := derived_counts hinv hg
  have hvalid : (commandBody (generateOf s.ctrl.scheme) s).status.genValid = true := by rw [hstatus]; rfl
  obtain ⟨-, -, hn1, -, hndec1, -⟩ := addNoiseBody_registers hvalid
  have hn2 : sampleCount (commandBody (generateOf s.ctrl.scheme) s) = g.n := by rw [sampleCount, hder, hn]
  have hndec2 : decisionCount (commandBody (generateOf s.ctrl.scheme) s) = g.ndec := by
    rw [decisionCount, hder, hndec]
  have hnoise := addNoiseBody_writes (commandBody (generateOf s.ctrl.scheme) s)
  have hdemod := demodulate_writes s.ctrl.scheme (addNoiseBody (commandBody (generateOf s.ctrl.scheme) s))
  rw [hn1, hn2, hndec1, hndec2] at hdemod
  rw [hn2] at hnoise
  rw [runBody_phases hg]
  refine ((generate_writes _ hg).mono fun a ha => ?_).trans ((hnoise.mono fun a ha => ?_).trans
    (hdemod.mono fun a ha => ?_))
  · rw [coveredBy_append, ha, Bool.true_or]
  · rw [coveredBy_cons, coveredBy_nil, Bool.or_false] at ha
    simp only [coveredBy_append, generateEntries, coveredBy_cons, ha, Bool.true_or, Bool.or_true]
  · rw [coveredBy_append, ha, Bool.or_true]

/-- Settles O51: the phases' footprints and registers, composed. -/
theorem runFrame : Obligations.RunFrame := by
  intro s t g hinv hidle hg hexec
  obtain rfl := eq_commandBody_of_exec hexec hidle nofun
  obtain ⟨hkept, hpar, -, hdraws⟩ := runBody_registers hg
  obtain ⟨hder, -⟩ := generate_registers s.ctrl.scheme hg
  obtain ⟨hn, hspb, hndec⟩ := derived_counts hinv hg
  rw [GridRegistersKept, hder] at hkept
  obtain ⟨kn, kspb, kndec, kfs, kdur, kamp⟩ := hkept
  rw [sampleCount, hder, hn] at hdraws
  rw [generateFootprint_eq, ← if_congr (toNat_eq_zero_iff s.par.nbits) rfl rfl]
  exact ⟨(runBody_writes hinv hg).2.2.2, surroundingsKept_commandBody .run s, hpar, hdraws,
    (congrArg BitVec.toNat kn).trans hn, (congrArg BitVec.toNat kspb).trans hspb,
    (congrArg BitVec.toNat kndec).trans hndec, kfs, kdur, kamp⟩

/-! The grid registers. -/

/-- Commands other than the generates, `RUN` and the noise command write no RO register (R49, R50). -/
theorem der_commandBody {m : Instr} (hm : ¬(WritesGrid m ∨ m = .addNoise)) (s : State) :
    (commandBody m s).der = s.der := by
  cases m with
  | nop => rfl
  | demodBpsk => simp only [commandBody, demodBpskBody]; split <;> simp
  | demodFsk => simp only [commandBody, demodFskBody]; split <;> simp
  | addNoise => exact absurd (.inr rfl) hm
  | genBpsk => exact absurd (.inl (.inl rfl)) hm
  | genFsk => exact absurd (.inl (.inr (.inl rfl))) hm
  | run => exact absurd (.inl (.inr (.inr (.inl rfl)))) hm
  | softReset => exact absurd (.inl (.inr (.inr (.inr rfl)))) hm

/-- Nor does the noise command write the grid registers (R49). -/
theorem gridRegistersKept_commandBody {m : Instr} (hm : ¬WritesGrid m) (s : State) :
    GridRegistersKept s (commandBody m s) := by
  by_cases hn : m = .addNoise
  · subst hn
    exact gridRegistersKept_addNoiseBody s
  · rw [GridRegistersKept, der_commandBody (not_or.2 ⟨hm, hn⟩)]
    exact ⟨rfl, rfl, rfl, rfl, rfl, rfl⟩

/-- An offset that selects a register is that register's (R36). -/
theorem eq_regOffset_of_targetOf {c : Conf} {o : Nat} {r : Reg} (h : targetOf c o = .reg r) : o = regOffset r := by
  unfold targetOf at h
  split at h
  next r' hr' =>
    cases h
    exact (beq_iff_eq.1 (List.find?_some (p := fun r => regOffset r == o) hr')).symm
  next =>
    split at h
    · split at h <;> cases h
    · cases h

/-- What a host transaction does to the RO registers: nothing, unless it is the write of the `SOFT_RESET` word (R36,
R275). -/
theorem der_busAccess (a : Access) (s : State) :
    (busAccess a s).der = s.der ∨ a = writeAt 0x010 0x0000000000000007 := by
  rcases busAccess_cases a s with ⟨-, he⟩ | ⟨-, -, k, he⟩ | ⟨v, hwf, hdir, he⟩
  · exact .inl (by rw [he])
  · exact .inl (by rw [he])
  · have heff := writeTarget_effect (targetOf s.conf a.offset.toNat) v s
    rw [he]
    generalize writeTarget (targetOf s.conf a.offset.toNat) v s = t at heff
    cases heff with
    | reset htarget hv =>
      obtain ⟨o, width, dir⟩ := a
      obtain ⟨hwidth, -⟩ := (wellFormed_iff _).1 hwf
      have ho : o = BitVec.ofNat 24 0x010 := BitVec.eq_of_toNat_eq (eq_regOffset_of_targetOf htarget)
      simp only at hwidth hdir
      rw [ho, hwidth, hdir, hv]
      exact .inr rfl
    | nothing | error | clear | accept | ctrl | par | entry => exact .inl rfl

section
variable {R : Derived → Derived → Prop} {P : Instr → Prop} (hrefl : ∀ d, R d d)
  (hbody : ∀ m s, ¬P m → R s.der (commandBody m s).der)
include hrefl hbody

/-- A command that is not of the kind `P` relates the RO registers by `R`, if the bodies do. -/
theorem der_exec (hreset : P .softReset) {i : Instr} {s t : State} (h : exec i s = .next t) (hi : ¬P i) :
    R s.der t.der := by
  have hne : i ≠ .softReset := by rintro rfl; exact hi hreset
  cases hp : s.phase with
  | idle =>
    obtain rfl := eq_commandBody_of_exec h hp hne
    exact hbody i s hi
  | busy m =>
    cases (exec_busy hp hne).symm.trans h
    exact hrefl _

/-- So does the sequencer's move. -/
theorem der_sequencerMove (s : State) : R s.der (sequencerMove s).der ∨ ∃ m, s.phase = .busy m ∧ P m := by
  unfold sequencerMove
  split
  next => exact .inl (hrefl _)
  next m hm =>
    by_cases hp : P m
    · exact .inr ⟨m, hm, hp⟩
    · exact .inl (hbody m s hp)

/-- So does every step that ends no command of that kind and resets nothing. -/
theorem der_step (hreset : P .softReset) {s t : State} (h : step s = .next t) :
    R s.der t.der ∨ CommandEndsNext P s ∨ ResetNext s := by
  rcases step_cases h with ⟨ha, rfl⟩ | ⟨x, rest, ha, hx⟩
  · exact (der_sequencerMove hrefl hbody s).imp_right fun ⟨m, hm, hp⟩ => .inl (.inr ⟨m, hm, hp, .inl ha⟩)
  have haccess : ∀ a, (x = .host a ∨ ∃ p, x = .bus p ∧ PhysAccess.onBlock s.conf p = some a) →
      R s.der (busAccess a { s with agenda := rest }).der ∨ ResetNext s := by
    intro a hturn
    rcases der_busAccess a { s with agenda := rest } with hder | rfl
    · rw [hder]
      exact .inl (hrefl _)
    · rcases hturn with rfl | ⟨p, rfl, hp⟩
      · exact .inr (.inl ⟨rest, ha⟩)
      · exact .inr (.inr (.inl ⟨p, rest, ha, hp⟩))
  rcases turn_cases hx with ⟨a, hturn, -, rfl⟩ | ⟨p, -, -, rfl⟩ | ⟨w, i, rfl, -, hw, he⟩ | ⟨w, e, -, -, -, rfl⟩ |
    ⟨rfl, rfl⟩ | ⟨-, rfl⟩ | ⟨rfl, rfl⟩
  · exact (haccess a hturn).imp_right .inr
  · exact .inl (hrefl _)
  · by_cases hp : P i
    · exact .inr (.inl (.inl ⟨w, i, rest, ha, hw, hp⟩))
    · exact .inl (der_exec (s := { s with agenda := rest, response := .done }) hrefl hbody hreset he hp)
  · unfold rejectWord
    split <;> exact .inl (hrefl _)
  · exact (der_sequencerMove hrefl hbody { s with agenda := rest }).imp_right fun ⟨m, hm, hp⟩ =>
      .inl (.inr ⟨m, hm, hp, .inr ⟨rest, ha⟩⟩)
  · obtain ⟨-, -, -, -, -, hder, -⟩ := abort_keeps { s with agenda := rest }
    rw [assertReset, hder]
    exact .inl (hrefl _)
  · unfold releaseReset
    split
    next hr => exact .inr (.inr (.inr (.inr ⟨rest, ha, hr⟩)))
    next => exact .inl (hrefl _)

end

/-- Settles O52: twice over every kind of step, once for the grid registers and once for all RO registers. -/
theorem onlyGeneratesWriteTheGrid : Obligations.OnlyGeneratesWriteTheGrid := by
  refine ⟨fun s t i hexec hi => ⟨?_, fun hn => ?_⟩, fun s t hstep => ⟨?_, ?_⟩⟩
  · exact der_exec (R := fun d e => GridRegistersKept { s with der := d } { s with der := e }) (P := WritesGrid)
      (fun _ => ⟨rfl, rfl, rfl, rfl, rfl, rfl⟩) (fun m s hm => gridRegistersKept_commandBody hm s)
      (.inr (.inr (.inr rfl))) hexec hi
  · exact der_exec (R := fun d e => e = d) (P := fun i => WritesGrid i ∨ i = .addNoise) (fun _ => rfl)
      (fun m s hm => der_commandBody hm s) (.inl (.inr (.inr (.inr rfl)))) hexec (not_or.2 ⟨hi, hn⟩)
  · exact der_step (R := fun d e => GridRegistersKept { s with der := d } { s with der := e })
      (fun _ => ⟨rfl, rfl, rfl, rfl, rfl, rfl⟩) (fun m s hm => gridRegistersKept_commandBody hm s)
      (.inr (.inr (.inr rfl))) hstep
  · exact der_step (R := fun d e => e = d) (fun _ => rfl) (fun m s hm => der_commandBody hm s)
      (.inl (.inr (.inr (.inr rfl)))) hstep

end Sys2Proof.Machine
end

section
/-! PROOFS. R40, R89, R277, R351: `STATUS` bit by bit, what is in flight while a command runs, and what a read returns. -/

namespace Sys2Proof.Machine

/-! `STATUS` bit by bit. -/

/-- Bit `j` of `STATUS` (R40). -/
def statusBit (busy : Bool) (st : Status) : Nat → Bool
  | 0 => busy
  | 1 => st.genValid
  | 2 => decide (st.genScheme = .fsk)
  | 3 => st.noisy
  | 4 => st.demodValid
  | 5 => decide (st.demodScheme = .fsk)
  | 6 => st.clamp
  | 7 => false
  | j + 8 => st.err.code.testBit j

theorem Scheme.code_eq (sch : Scheme) : sch.code = (decide (sch = .fsk)).toNat := by cases sch <;> rfl

theorem ErrCode.code_lt (e : ErrCode) : e.code < 8 := by cases e <;> decide

/-- `STATUS` as a number (R40). -/
theorem toNat_statusWord (busy : Bool) (st : Status) :
    (statusWord busy st).toNat =
      busy.toNat + 2 * st.genValid.toNat + 4 * st.genScheme.code + 8 * st.noisy.toNat + 16 * st.demodValid.toNat
        + 32 * st.demodScheme.code + 64 * st.clamp.toNat + 256 * st.err.code := by
  have h := st.err.code_lt
  have h0 := busy.toNat_le; have h1 := st.genValid.toNat_le; have h3 := st.noisy.toNat_le
  have h4 := st.demodValid.toNat_le; have h6 := st.clamp.toNat_le
  have h2 := (decide (st.genScheme = .fsk)).toNat_le; have h5 := (decide (st.demodScheme = .fsk)).toNat_le
  rw [← Scheme.code_eq] at h2 h5
  rw [statusWord, BitVec.toNat_ofNat, Nat.mod_eq_of_lt (by omega)]

/-- `STATUS` has the layout of R40. -/
theorem getLsbD_statusWord (busy : Bool) (st : Status) (j : Nat) :
    (statusWord busy st).getLsbD j = statusBit busy st j := by
  have h0 := busy.toNat_le; have h1 := st.genValid.toNat_le; have h3 := st.noisy.toNat_le
  have h4 := st.demodValid.toNat_le; have h6 := st.clamp.toNat_le
  have h2 := (decide (st.genScheme = .fsk)).toNat_le; have h5 := (decide (st.demodScheme = .fsk)).toNat_le
  have hbit : ∀ (b : Bool) (n : Nat), n = b.toNat → decide (n = 1) = b := by
    rintro b n rfl
    cases b <;> rfl
  rw [BitVec.getLsbD, toNat_statusWord, Scheme.code_eq, Scheme.code_eq]
  by_cases hj : j < 8
  · rw [Nat.testBit_eq_decide_div_mod_eq]
    match j, hj with
    | 0, _ => exact hbit busy _ (by omega)
    | 1, _ => exact hbit st.genValid _ (by omega)
    | 2, _ => exact hbit (decide (st.genScheme = .fsk)) _ (by omega)
    | 3, _ => exact hbit st.noisy _ (by omega)
    | 4, _ => exact hbit st.demodValid _ (by omega)
    | 5, _ => exact hbit (decide (st.demodScheme = .fsk)) _ (by omega)
    | 6, _ => exact hbit st.clamp _ (by omega)
    | 7, _ => exact hbit false _ (by rw [Bool.toNat_false]; omega)
  · obtain ⟨k, rfl⟩ := Nat.exists_eq_add_of_le' (Nat.not_lt.1 hj)
    rw [statusBit, Nat.testBit_add, Nat.add_comm _ (256 * _), show (256 : Nat) = 2 ^ 8 from rfl,
      Nat.mul_add_div (by decide), Nat.div_eq_of_lt (by omega), Nat.add_zero]

theorem statusLaidOut (s : State) : StatusLaidOut (regValue s .status) s := by
  have hvalue : regValue s .status = statusWord s.phase.isBusy s.status := rfl
  have hbusy : s.phase.isBusy = true ↔ s.phase ≠ .idle := by cases s.phase <;> simp [Phase.isBusy]
  have herr : s.status.err.code = errorCode s.status.err := by cases s.status.err <;> rfl
  rw [hvalue]
  refine ⟨?_, ?_, ?_, ?_, ?_, ?_, ?_, ?_, ?_⟩
  · rw [getLsbD_statusWord]; exact hbusy
  · rw [getLsbD_statusWord]; rfl
  · rw [getLsbD_statusWord]; exact decide_eq_true_iff
  · rw [getLsbD_statusWord]; rfl
  · rw [getLsbD_statusWord]; rfl
  · rw [getLsbD_statusWord]; exact decide_eq_true_iff
  · rw [getLsbD_statusWord]; rfl
  · rw [getLsbD_statusWord]; rfl
  · have h0 := s.phase.isBusy.toNat_le; have h1 := s.status.genValid.toNat_le; have h3 := s.status.noisy.toNat_le
    have h4 := s.status.demodValid.toNat_le; have h6 := s.status.clamp.toNat_le
    have h2 := (decide (s.status.genScheme = .fsk)).toNat_le
    have h5 := (decide (s.status.demodScheme = .fsk)).toNat_le
    rw [toNat_statusWord, Scheme.code_eq, Scheme.code_eq, ← herr]
    omega

/-! What is in flight. -/

theorem nbits_eq_zero_iff (s : State) : s.par.nbits.toNat = 0 ↔ s.par.nbits = 0#64 := toNat_eq_zero_iff _

theorem regInFlight_iff (m : Instr) (s : State) (r : Reg) :
    regInFlight m s r = true ↔ r ∈ registersWritten m s := by
  have hn := nbits_eq_zero_iff s
  by_cases hz : s.par.nbits.toNat = 0
  · cases m <;> cases r <;> simp [regInFlight, registersWritten, hn.1 hz]
  · cases m <;> cases r <;> simp [regInFlight, registersWritten, hz, mt hn.2 hz]

/-- The bits of a word below 2^16, from a table. -/
theorem getLsbD_iff_of_table {w : Word} {l : List Nat} (hw : w.toNat < 2 ^ 16) (hl : ∀ j ∈ l, j < 16)
    (h : ∀ j < 16, w.getLsbD j = decide (j ∈ l)) (j : Nat) : w.getLsbD j = true ↔ j ∈ l := by
  by_cases hj : j < 16
  · rw [h j hj, decide_eq_true_iff]
  · have hlow : w.getLsbD j = false :=
      Nat.testBit_lt_two_pow (hw.trans_le (Nat.pow_le_pow_right (by decide) (Nat.not_lt.1 hj)))
    rw [hlow]
    exact ⟨nofun, fun hmem => absurd (hl j hmem) hj⟩

theorem statusInFlight_iff (m : Instr) (s : State) (j : Nat) :
    (statusInFlight m s).getLsbD j = true ↔ j ∈ statusBitsWritten m s := by
  cases hv : s.status.genValid <;> cases m <;>
    simp only [statusInFlight, errWithoutGrid, statusBitsWritten, hv, Bool.false_eq_true, if_false, if_true] <;>
    exact getLsbD_iff_of_table (by decide) (by decide) (by decide) j

theorem generateInFlight_iff (s : State) (b : Buf) (i : Nat) :
    generateInFlight s b i = true ↔ GenerateLine s b i := by
  cases b <;> simp [generateInFlight, GenerateLine, nbits_eq_zero_iff]

theorem demodInFlight_iff (sch : Scheme) (n ndec : Nat) (b : Buf) (i : Nat) :
    demodInFlight sch n ndec b i = true ↔ DemodulateLine sch n ndec b i := by
  cases sch <;> cases b <;> simp [demodInFlight, demodWrites, DemodulateLine]

theorem runDemodInFlight_iff (s : State) (b : Buf) (i : Nat) :
    runDemodInFlight s b i = true ↔ ∃ g, grid s = some g ∧ DemodulateLine s.ctrl.scheme g.n g.ndec b i := by
  unfold runDemodInFlight
  cases hg : grid s with
  | none => exact ⟨nofun, fun ⟨g, h, _⟩ => nomatch h⟩
  | some g =>
    refine (demodInFlight_iff _ _ _ _ _).trans ⟨fun h => ⟨g, rfl, h⟩, ?_⟩
    rintro ⟨g', hg', h⟩
    cases hg'
    exact h

theorem entryInFlight_iff (m : Instr) (s : State) (b : Buf) (i : Nat) :
    entryInFlight m s b i = true ↔ EntryWritten m s b i := by
  cases m with
  | nop | softReset => exact ⟨nofun, nofun⟩
  | genBpsk | genFsk => exact generateInFlight_iff s b i
  | addNoise =>
    rw [entryInFlight, Bool.and_eq_true, beq_iff_eq, decide_eq_true_iff]
    exact Iff.rfl
  | demodBpsk | demodFsk => exact demodInFlight_iff _ _ _ b i
  | run => exact (Bool.or_eq_true_iff).trans (or_congr (generateInFlight_iff s b i) (runDemodInFlight_iff s b i))

/-! What a command's body writes. -/

theorem generateEntries_eq {s : State} {g : Grid} (h : grid s = some g) :
    generateEntries s g = generateWrites s ++ fallbackWrites .run s := by
  simp [generateEntries, generateWrites, fallbackEntries, fallbackWrites, writesFallback, h]

/-- A generate writes the entries of its grid, none if it has none (R160, R302). -/
theorem generate_bufferWrites (sch : Scheme) (s : State) :
    WritesWithin (generateWrites s ++ fallbackWrites .run s) s (commandBody (generateOf sch) s) := by
  cases hg : grid s with
  | none =>
    have hbody : commandBody (generateOf sch) s = cmdError .size s :=
      commandBody_of_grid_none hg (by cases sch <;> simp [generateOf])
    rw [hbody]
    exact .same rfl rfl
  | some g =>
    rw [← generateEntries_eq hg]
    exact generate_writes sch hg

/-- A command writes no byte but those of its entries (R167, R204, R232, R259, R302). -/
theorem commandBody_writes (m : Instr) {s : State} (hinv : s.Inv) :
    WritesWithin (bufferWrites m s ++ fallbackWrites m s) s (commandBody m s) := by
  have hfail : ∀ i, s.status.genValid = false → i = .addNoise ∨ i = .demodBpsk ∨ i = .demodFsk →
      ∀ rs, WritesWithin rs s (commandBody i s) := by
    intro i hv hi rs
    rw [commandBody_of_no_grid hv hi]
    exact .same rfl rfl
  cases m with
  | nop | softReset => exact .same rfl rfl
  | genBpsk => exact generate_bufferWrites .bpsk s
  | genFsk => exact generate_bufferWrites .fsk s
  | addNoise =>
    cases hv : s.status.genValid with
    | false => exact hfail _ hv (.inl rfl) _
    | true => simpa [commandBody, bufferWrites, fallbackWrites, writesFallback, hv] using addNoiseBody_writes s
  | demodBpsk =>
    cases hv : s.status.genValid with
    | false => exact hfail _ hv (.inr (.inl rfl)) _
    | true => simpa [commandBody, bufferWrites, fallbackWrites, writesFallback, hv] using demodBpskBody_writes s
  | demodFsk =>
    cases hv : s.status.genValid with
    | false => exact hfail _ hv (.inr (.inr rfl)) _
    | true => simpa [commandBody, bufferWrites, fallbackWrites, writesFallback, hv] using demodFskBody_writes s
  | run =>
    cases hg : grid s with
    | none =>
      rw [commandBody_of_grid_none hg (.inr (.inr rfl))]
      exact .same rfl rfl
    | some g =>
      refine (runBody_writes hinv hg).mono fun a ha => ?_
      rw [generateEntries_eq hg] at ha
      simp only [bufferWrites, hg, coveredBy_append, Bool.or_eq_true] at ha ⊢
      tauto

/-! What the completion step leaves. -/

/-- An entry outside a footprint within the windows reads as before. -/
theorem WritesWithin.entry {rs : List (Buf × Nat)} {s t : State} (h : WritesWithin rs s t)
    (hfit : ∀ r ∈ rs, r.2 ≤ 65536) {b : Buf} {i : Nat} (hi : i < 65536) (hout : ∀ r ∈ rs, r.1 = b → r.2 ≤ i) :
    entry t b i = entry s b i := by
  obtain ⟨-, -, -, hbytes⟩ := h
  refine wordAt_congr fun k hk => hbytes _ (Bool.eq_false_iff.2 fun hcov => ?_)
  obtain ⟨r, hr, j, hj, hlow, hhigh⟩ := exists_entry_of_coveredBy hcov
  have hfit' := hfit r hr
  by_cases hsame : r.1 = b ∧ j = i
  · have := hout r hr hsame.1
    omega
  · have := entryAddr_apart (b := r.1) (c := b) (i := j) (j := i) (by omega) hi hsame
    omega

/-- An entry that a generate does not have in flight is none of those it writes. -/
theorem le_of_not_generateInFlight {m : Instr} {s : State} {b : Buf} {i : Nat} (h : generateInFlight s b i = false)
    {r : Buf × Nat} (hr : r ∈ generateWrites s ++ fallbackWrites m s) (hb : r.1 = b) : r.2 ≤ i := by
  rcases List.mem_append.1 hr with hr | hr
  · unfold generateWrites at hr
    split at hr
    next => cases hr
    next g hg =>
      simp only [List.mem_cons, List.not_mem_nil, or_false] at hr
      rcases hr with rfl | rfl | rfl | rfl | rfl | rfl <;> (subst hb; cases h)
  · have hzero : s.par.nbits.toNat = 0 ∧ r = (.bits, 4) := by
      cases m <;> simp_all [fallbackWrites, writesFallback]
    obtain ⟨hzero, rfl⟩ := hzero
    subst hb
    simpa [generateInFlight, hzero] using h

/-- An entry that a demodulation does not have in flight is none of those it writes. -/
theorem le_of_not_demodInFlight {sch : Scheme} {n ndec : Nat} {b : Buf} {i : Nat}
    (h : demodInFlight sch n ndec b i = false) {r : Buf × Nat} (hr : r ∈ demodWrites sch n ndec) (hb : r.1 = b) :
    r.2 ≤ i := by
  have := List.any_eq_false.1 h r hr
  simpa [hb] using this

/-- An entry that is not in flight is none of those the command writes (R351). -/
theorem le_of_not_entryInFlight {m : Instr} {s : State} {b : Buf} {i : Nat} (h : entryInFlight m s b i = false)
    {r : Buf × Nat} (hr : r ∈ bufferWrites m s ++ fallbackWrites m s) (hb : r.1 = b) : r.2 ≤ i := by
  cases m with
  | nop | softReset => cases hr
  | genBpsk | genFsk => exact le_of_not_generateInFlight h hr hb
  | addNoise =>
    simp only [bufferWrites, fallbackWrites, writesFallback, Bool.false_eq_true, if_false, List.append_nil,
      List.mem_ite_nil_right, List.mem_singleton] at hr
    obtain ⟨-, rfl⟩ := hr
    subst hb
    simpa [entryInFlight] using h
  | demodBpsk | demodFsk =>
    simp only [bufferWrites, fallbackWrites, writesFallback, Bool.false_eq_true, if_false, List.append_nil,
      List.mem_ite_nil_right] at hr
    exact le_of_not_demodInFlight h hr.2 hb
  | run =>
    obtain ⟨hgen, hdemod⟩ := Bool.or_eq_false_iff.1 h
    cases hg : grid s with
    | none => simp [bufferWrites, fallbackWrites, writesFallback, hg] at hr
    | some g =>
      simp only [bufferWrites, hg, List.append_assoc, List.mem_append] at hr
      rcases hr with hr | hr | hr
      · exact le_of_not_generateInFlight (m := .run) hgen (List.mem_append_left _ hr) hb
      · rw [runDemodInFlight, hg] at hdemod
        exact le_of_not_demodInFlight hdemod hr hb
      · exact le_of_not_generateInFlight hgen (List.mem_append_right _ hr) hb

theorem entry_complete {m : Instr} {s : State} (hinv : s.Inv) {b : Buf} {i : Nat} (hi : i < 65536)
    (h : entryInFlight m s b i = false) : entry (complete m s) b i = entry s b i := by
  refine (commandBody_writes m hinv).entry (fun r hr => ?_) hi fun r hr hb => le_of_not_entryInFlight h hr hb
  rcases List.mem_append.1 hr with hr | hr
  · exact (fits_bufferWrites m hinv r hr).trans (capacity_le hinv.conf_legal _)
  · simp only [fallbackWrites, List.mem_ite_nil_right, List.mem_singleton] at hr
    rw [hr.2]
    decide

/-- The parameters after a command: the fallback's `NBITS` apart, they are as before (R130, R140). -/
theorem par_commandBody (m : Instr) (s : State) :
    (commandBody m s).par = s.par ∨
      (regInFlight m s .nbits = true ∧ (commandBody m s).par = { s.par with nbits := 4 }) := by
  have hfallback : ∀ {t : State}, (t.par = if s.par.nbits.toNat = 0 then { s.par with nbits := 4 } else s.par) →
      t.par = s.par ∨ ((s.par.nbits.toNat == 0) = true ∧ t.par = { s.par with nbits := 4 }) := by
    intro t ht
    by_cases hz : s.par.nbits.toNat = 0
    · exact .inr ⟨beq_iff_eq.2 hz, ht.trans (if_pos hz)⟩
    · exact .inl (ht.trans (if_neg hz))
  have hwrites : ∀ i, i = .genBpsk ∨ i = .genFsk ∨ i = .run →
      (commandBody i s).par = s.par ∨ ((s.par.nbits.toNat == 0) = true ∧ (commandBody i s).par = { s.par with nbits := 4 }) := by
    intro i hi
    cases hg : grid s with
    | none => rw [commandBody_of_grid_none hg hi]; exact .inl rfl
    | some g =>
      rcases hi with rfl | rfl | rfl
      · exact hfallback (generate_registers .bpsk hg).2.1
      · exact hfallback (generate_registers .fsk hg).2.1
      · exact hfallback (t := commandBody .run s) (runBody_registers hg).2.1
  cases m with
  | nop | softReset => exact .inl rfl
  | genBpsk => exact hwrites _ (.inl rfl)
  | genFsk => exact hwrites _ (.inr (.inl rfl))
  | run => exact hwrites _ (.inr (.inr rfl))
  | addNoise => exact .inl (addNoiseBody_keeps s).1
  | demodBpsk => simp only [commandBody, demodBpskBody]; split <;> simp
  | demodFsk => simp only [commandBody, demodFskBody]; split <;> simp

/-- The RO registers after a command: those in flight apart, they are as before (R49, R50). -/
theorem der_of_not_inFlight (m : Instr) (s : State) :
    (regInFlight m s .n = false → GridRegistersKept s (commandBody m s)) ∧
      (regInFlight m s .psig = false → (commandBody m s).der = s.der) := by
  cases m with
  | genBpsk | genFsk | run => exact ⟨nofun, nofun⟩
  | addNoise => exact ⟨fun _ => gridRegistersKept_addNoiseBody s, nofun⟩
  | softReset => exact ⟨fun _ => ⟨rfl, rfl, rfl, rfl, rfl, rfl⟩, fun _ => rfl⟩
  | nop | demodBpsk | demodFsk =>
    exact ⟨fun _ => gridRegistersKept_commandBody (by simp [WritesGrid]) s,
      fun _ => der_commandBody (by simp [WritesGrid]) s⟩

/-- The grid registers are in flight together, and so are `PSIG` and `SIGMA` (R160, R200). -/
theorem regInFlight_der {m : Instr} {s : State} {r : Reg} (h : regInFlight m s r = false) :
    (r = .n ∨ r = .spb ∨ r = .ndec ∨ r = .fsEff ∨ r = .durEff ∨ r = .ampEff → regInFlight m s .n = false) ∧
      (r = .psig ∨ r = .sigma → regInFlight m s .psig = false) := by
  constructor
  · rintro (rfl | rfl | rfl | rfl | rfl | rfl) <;> cases m <;> simp_all [regInFlight]
  · rintro (rfl | rfl) <;> cases m <;> simp_all [regInFlight]

/-- A register that is not in flight is as before when the command completes (R351). -/
theorem regValue_complete {m : Instr} {s : State} {r : Reg} (hr : r ≠ .status) (h : regInFlight m s r = false) :
    regValue (complete m s) r = regValue s r := by
  have hpar : r ≠ .nbits → ∀ f : Params → Word, (∀ p v, f { p with nbits := v } = f p) →
      f (commandBody m s).par = f s.par := by
    intro _ f hf
    rcases par_commandBody m s with hp | ⟨-, hp⟩ <;> rw [hp]
    exact hf _ _
  obtain ⟨hgrid, hpower⟩ := regInFlight_der h
  obtain ⟨hkept, hder⟩ := der_of_not_inFlight m s
  cases r with
  | status => exact absurd rfl hr
  | id | cmd => rfl
  | ctrl => exact congrArg ctrlWord (commandBody_keeps m s).2.1
  | amp => exact hpar nofun Params.amp fun _ _ => rfl
  | fs => exact hpar nofun Params.fs fun _ _ => rfl
  | duration => exact hpar nofun Params.duration fun _ _ => rfl
  | bitrate => exact hpar nofun Params.bitrate fun _ _ => rfl
  | fc => exact hpar nofun Params.fc fun _ _ => rfl
  | f0 => exact hpar nofun Params.f0 fun _ _ => rfl
  | f1 => exact hpar nofun Params.f1 fun _ _ => rfl
  | snrDb => exact hpar nofun Params.snrDb fun _ _ => rfl
  | nbits =>
    rcases par_commandBody m s with hp | ⟨hflight, -⟩
    · exact congrArg Params.nbits hp
    · exact absurd (h.symm.trans hflight) Bool.false_ne_true
  | n => exact (hkept (hgrid (by simp))).1
  | spb => exact (hkept (hgrid (by simp))).2.1
  | ndec => exact (hkept (hgrid (by simp))).2.2.1
  | fsEff => exact (hkept (hgrid (by simp))).2.2.2.1
  | durEff => exact (hkept (hgrid (by simp))).2.2.2.2.1
  | ampEff => exact (hkept (hgrid (by simp))).2.2.2.2.2
  | psig => exact congrArg Derived.psig (hder (hpower (by simp)))
  | sigma => exact congrArg Derived.sigma (hder (hpower (by simp)))

/-- The flags of which a list of bits holds no bit decide the other bits (R40). -/
theorem statusBit_eq_of_fields {st st' : Status} {l : List Nat} {j : Nat} (h0 : j ≠ 0) (hj : j ∉ l)
    (hvalid : 1 ∉ l → st'.genValid = st.genValid) (hscheme : 2 ∉ l → st'.genScheme = st.genScheme)
    (hnoisy : 3 ∉ l → st'.noisy = st.noisy) (hdemod : 4 ∉ l → st'.demodValid = st.demodValid)
    (hdscheme : 5 ∉ l → st'.demodScheme = st.demodScheme) (hclamp : 6 ∉ l → st'.clamp = st.clamp)
    (herr : 8 ∉ l → st'.err = st.err) (hall : 8 ∈ l → ∀ k < 8, k + 8 ∈ l) (busy busy' : Bool) :
    statusBit busy st' j = statusBit busy' st j := by
  match j with
  | 0 => exact absurd rfl h0
  | 1 => rw [statusBit, statusBit, hvalid hj]
  | 2 => rw [statusBit, statusBit, hscheme hj]
  | 3 => rw [statusBit, statusBit, hnoisy hj]
  | 4 => rw [statusBit, statusBit, hdemod hj]
  | 5 => rw [statusBit, statusBit, hdscheme hj]
  | 6 => rw [statusBit, statusBit, hclamp hj]
  | 7 => rfl
  | k + 8 =>
    rw [statusBit, statusBit]
    by_cases h8 : 8 ∈ l
    · have hk : ¬k < 8 := fun hk => hj (hall h8 k hk)
      have hhigh : ∀ e : ErrCode, e.code.testBit k = false := fun e =>
        Nat.testBit_lt_two_pow (e.code_lt.trans_le (show 2 ^ 3 ≤ 2 ^ k from Nat.pow_le_pow_right (by decide) (by omega)))
      rw [hhigh, hhigh]
    · rw [herr h8]

/-- The flags after a command: those it writes apart, they are as before (R42 to R45, R302). -/
theorem statusBit_commandBody {m : Instr} {s : State} {j : Nat} (h0 : j ≠ 0) (h : j ∉ statusBitsWritten m s)
    (busy busy' : Bool) : statusBit busy (commandBody m s).status j = statusBit busy' s.status j := by
  have hall : 8 ∈ statusBitsWritten m s → ∀ k < 8, k + 8 ∈ statusBitsWritten m s := by
    cases hv : s.status.genValid <;> cases m <;> simp only [statusBitsWritten, hv] <;> decide
  have hgen : ∀ sch, (commandBody (generateOf sch) s).status.demodScheme = s.status.demodScheme := by
    intro sch
    cases hg : grid s with
    | none => rw [commandBody_of_grid_none hg (by cases sch <;> simp [generateOf])]; rfl
    | some g =>
      obtain ⟨-, -, ⟨c, hstatus⟩, -⟩ := generate_registers sch hg
      rw [hstatus]
      rfl
  cases m with
  | nop | softReset =>
    exact statusBit_eq_of_fields h0 h (fun _ => rfl) (fun _ => rfl) (fun _ => rfl) (fun _ => rfl) (fun _ => rfl)
      (fun _ => rfl) (fun _ => rfl) hall busy busy'
  | genBpsk =>
    have hkept := hgen .bpsk
    refine statusBit_eq_of_fields h0 h ?_ ?_ ?_ ?_ (fun _ => hkept) ?_ ?_ hall busy busy' <;> simp [statusBitsWritten]
  | genFsk =>
    have hkept := hgen .fsk
    refine statusBit_eq_of_fields h0 h ?_ ?_ ?_ ?_ (fun _ => hkept) ?_ ?_ hall busy busy' <;> simp [statusBitsWritten]
  | run => refine statusBit_eq_of_fields h0 h ?_ ?_ ?_ ?_ ?_ ?_ ?_ hall busy busy' <;> simp [statusBitsWritten]
  | addNoise =>
    cases hv : s.status.genValid with
    | false =>
      rw [commandBody_of_no_grid hv (.inl rfl)]
      refine statusBit_eq_of_fields h0 h ?_ ?_ ?_ ?_ ?_ ?_ ?_ hall busy busy' <;> simp [statusBitsWritten, hv]
    | true =>
      have hstatus : (commandBody .addNoise s).status = _ := (addNoiseBody_registers hv).2.1
      rw [hstatus]
      refine statusBit_eq_of_fields h0 h ?_ ?_ ?_ ?_ ?_ ?_ ?_ hall busy busy' <;>
        simp [statusBitsWritten, hv, Status.afterNoise]
  | demodBpsk =>
    cases hv : s.status.genValid with
    | false =>
      rw [commandBody_of_no_grid hv (.inr (.inl rfl))]
      refine statusBit_eq_of_fields h0 h ?_ ?_ ?_ ?_ ?_ ?_ ?_ hall busy busy' <;> simp [statusBitsWritten, hv]
    | true =>
      obtain ⟨-, -, ⟨c, hstatus⟩, -⟩ := demodulate_registers .bpsk hv
      rw [show commandBody .demodBpsk s = commandBody (demodulateOf .bpsk) s from rfl, hstatus]
      refine statusBit_eq_of_fields h0 h ?_ ?_ ?_ ?_ ?_ ?_ ?_ hall busy busy' <;>
        simp [statusBitsWritten, hv, Status.afterDemod]
  | demodFsk =>
    cases hv : s.status.genValid with
    | false =>
      rw [commandBody_of_no_grid hv (.inr (.inr rfl))]
      refine statusBit_eq_of_fields h0 h ?_ ?_ ?_ ?_ ?_ ?_ ?_ hall busy busy' <;> simp [statusBitsWritten, hv]
    | true =>
      obtain ⟨-, -, ⟨c, hstatus⟩, -⟩ := demodulate_registers .fsk hv
      rw [show commandBody .demodFsk s = commandBody (demodulateOf .fsk) s from rfl, hstatus]
      refine statusBit_eq_of_fields h0 h ?_ ?_ ?_ ?_ ?_ ?_ ?_ hall busy busy' <;>
        simp [statusBitsWritten, hv, Status.afterDemod]

/-- `STATUS` when the command completes, outside what it writes and `BUSY` (R351). -/
theorem status_complete (m : Instr) (s : State) :
    regValue (complete m s) .status &&& ~~~(statusInFlight m s ||| 1) =
      regValue s .status &&& ~~~(statusInFlight m s ||| 1) := by
  have hvalue : ∀ t : State, regValue t .status = statusWord t.phase.isBusy t.status := fun _ => rfl
  ext j hj
  simp only [BitVec.getElem_and, BitVec.getElem_not, BitVec.getElem_or]
  by_cases h0 : j = 0
  · subst h0
    simp
  · by_cases hf : (statusInFlight m s).getLsbD j = true
    · rw [BitVec.getLsbD_eq_getElem hj] at hf
      simp [hf]
    · have hbit := statusBit_commandBody h0 (mt (statusInFlight_iff m s j).2 hf)
        (complete m s).phase.isBusy s.phase.isBusy
      rw [← getLsbD_statusWord, ← getLsbD_statusWord, BitVec.getLsbD_eq_getElem hj, BitVec.getLsbD_eq_getElem hj] at hbit
      rw [hvalue, hvalue, complete, endCommand_status]
      exact congrArg (· && _) hbit

/-! Reads. -/

/-- A read in any phase is the target's value outside the bits in flight (R351). -/
theorem readData_outside (s : State) (tgt : Target) :
    readData s tgt &&& ~~~(inFlightMask s tgt) = targetValue s tgt &&& ~~~(inFlightMask s tgt) := by
  unfold readData
  simp only
  split
  · rfl
  · ext j hj
    simp only [BitVec.getElem_and, BitVec.getElem_not, BitVec.getElem_or]
    cases (inFlightMask s tgt)[j] <;> simp

/-- No command has `BUSY` in flight, which reads 1 while one runs (R41, R351). -/
theorem readData_status_busy {s : State} {m : Instr} (hbusy : s.phase = .busy m) :
    (readData s (.reg .status)).toNat % 2 = 1 := by
  have hmask : inFlightMask s (.reg .status) = statusInFlight m s := by rw [inFlightMask, hbusy]
  have hzero : (statusInFlight m s).getLsbD 0 = false := by
    rw [Bool.eq_false_iff, Ne, statusInFlight_iff]
    cases hv : s.status.genValid <;> cases m <;> simp [statusBitsWritten, hv]
  have hone : (targetValue s (.reg .status)).getLsbD 0 = true := by
    rw [targetValue, regValue, hbusy, getLsbD_statusWord]
    rfl
  have hbit := congrArg (fun w : Word => w.getLsbD 0) (readData_outside s (.reg .status))
  simp only [hmask, BitVec.getLsbD_and, BitVec.getLsbD_not, hzero, hone] at hbit
  have hread : (readData s (.reg .status)).getLsbD 0 = true := by simpa using hbit
  rw [BitVec.getLsbD, Nat.testBit_zero, decide_eq_true_iff] at hread
  exact hread

/-- Where nothing is in flight a read is the value of its target (R351). -/
theorem readData_of_not_inFlight {s : State} {m : Instr} (hbusy : s.phase = .busy m) :
    (∀ r, r ≠ .status → regInFlight m s r = false → readData s (.reg r) = regValue s r) ∧
      ∀ b i, entryInFlight m s b i = false → readData s (.entry b i) = entryValue s b i := by
  refine ⟨fun r hr h => readData_of_mask_zero ?_, fun b i h => readData_of_mask_zero ?_⟩
  · cases r with
    | status => exact absurd rfl hr
    | _ => simp only [inFlightMask, hbusy, h, allBits, Bool.false_eq_true, if_false]
  · simp only [inFlightMask, hbusy, h, allBits, Bool.false_eq_true, if_false]

/-- Settles O27: the layout bit by bit, the sets in flight by the command, the completion step by its footprint, and the
reads by the mask. -/
theorem readsInEveryPhase : Obligations.ReadsInEveryPhase := by
  refine ⟨statusLaidOut, fun s m => ⟨regInFlight_iff m s, statusInFlight_iff m s, entryInFlight_iff m s⟩,
    fun s m hinv _ => ⟨fun r hr h => regValue_complete hr h, status_complete m s,
      fun b i hi h => entry_complete hinv hi h⟩, fun s hidle => ⟨fun e he => ?_, fun e he i hi => ?_⟩,
    fun s m a hbusy hwf hdir => ?_⟩
  · have htable : ∀ e ∈ registerTable, e.1 = regOffset e.2 := by decide
    rw [htable e he]
    exact busAccess_read_regOffset hidle e.2
  · have htable : ∀ e ∈ windowTable, e.1 = window e.2 := by decide
    rw [htable e he]
    refine (busAccess_read_entryAddr hidle e.2 hi).trans ?_
    by_cases hcap : i < capacity s.conf e.2
    · rw [if_pos hcap, if_neg (Nat.not_le.2 hcap)]
      cases e.2 <;> rfl
    · rw [if_neg hcap, if_pos (Nat.not_lt.1 hcap)]
  · rcases busAccess_cases a s with ⟨hbad, -⟩ | ⟨-, -, k, he⟩ | ⟨v, -, hwrite, -⟩
    · exact absurd (hbad.symm.trans hwf) Bool.false_ne_true
    · obtain ⟨hreg, hentry⟩ := readData_of_not_inFlight hbusy
      rw [he]
      refine ⟨_, rfl, rfl, rfl, rfl, rfl, rfl, rfl, fun r htgt hr h => ?_, fun htgt => ?_, fun htgt => ?_,
        fun b i htgt h => ?_⟩ <;> rw [htgt]
      · exact hreg r hr h
      · have hmask : inFlightMask s (.reg .status) = statusInFlight m s := by rw [inFlightMask, hbusy]
        refine ⟨readData_status_busy hbusy, ?_⟩
        rw [← hmask]
        exact readData_outside s (.reg .status)
      · exact readData_of_mask_zero (inFlightMask_unmapped s)
      · exact hentry b i h
    · cases hdir.symm.trans hwrite

end Sys2Proof.Machine
end

section
/-! PROOFS. R11, R14, R148: the order of the numbers, exact conversion, and the operations that give a NaN. The magnitude of a
number is a strictly increasing function of its bits 62:0, so the order of the patterns is the order of the numbers. -/

namespace Sys2Proof.F64

/-! Magnitudes from bits 62:0. -/

theorem expo_eq (x : F64) : expo x = absBits x / 2 ^ 52 := by
  have hx := x.isLt
  unfold expo absBits
  omega

theorem frac_eq (x : F64) : frac x = absBits x % 2 ^ 52 := by
  have hx := x.isLt
  unfold frac absBits
  omega

/-- The magnitude that bits 62:0 stand for, in units (R116). -/
def magBits (a : Nat) : Nat :=
  if a / 2 ^ 52 = 0 then a % 2 ^ 52 else (a % 2 ^ 52 + 2 ^ 52) * 2 ^ (a / 2 ^ 52 - 1)

theorem mag_eq (x : F64) : mag x = magBits (absBits x) := by rw [mag, magBits, expo_eq, frac_eq]

/-- A magnitude from the exponent `k` of the last place and the integer `q` kept; `q` may have carried to `2^53` (R11). -/
theorem magBits_add {k q : Nat} (hq : q ≤ 2 ^ 53) (hn : 0 < k → 2 ^ 52 ≤ q) : magBits (k * 2 ^ 52 + q) = q * 2 ^ k := by
  unfold magBits
  by_cases hs : q < 2 ^ 52
  · obtain rfl : k = 0 := by omega
    rw [if_pos (by omega)]
    omega
  by_cases hc : q = 2 ^ 53
  · have he : (k * 2 ^ 52 + q) / 2 ^ 52 = k + 2 := by omega
    have hf : (k * 2 ^ 52 + q) % 2 ^ 52 = 0 := by omega
    rw [he, hf, if_neg (by omega), hc, Nat.zero_add, ← Nat.pow_add, ← Nat.pow_add]
    congr 1
    omega
  · have he : (k * 2 ^ 52 + q) / 2 ^ 52 = k + 1 := by omega
    have hf : (k * 2 ^ 52 + q) % 2 ^ 52 + 2 ^ 52 = q := by omega
    rw [he, hf, if_neg (by omega), Nat.add_sub_cancel]

/-- Every pattern has such an exponent and integer. -/
theorem exists_place (a : Nat) : ∃ k q, a = k * 2 ^ 52 + q ∧ q < 2 ^ 53 ∧ (0 < k → 2 ^ 52 ≤ q) := by
  by_cases ha : a < 2 ^ 53
  · exact ⟨0, a, by omega, ha, by omega⟩
  · exact ⟨a / 2 ^ 52 - 1, a % 2 ^ 52 + 2 ^ 52, by omega, by omega, by omega⟩

/-- A larger pattern is a larger magnitude (R14). -/
theorem magBits_strictMono : StrictMono magBits := by
  refine strictMono_nat_of_lt_succ fun a => ?_
  obtain ⟨k, q, rfl, hq, hn⟩ := exists_place a
  rw [magBits_add hq.le hn, Nat.add_assoc, magBits_add hq (fun hk => (hn hk).trans (Nat.le_succ q))]
  exact Nat.mul_lt_mul_of_pos_right (Nat.lt_succ_self q) (Nat.two_pow_pos k)

theorem magBits_zero : magBits 0 = 0 := rfl

/-! The order. -/

theorem smag_eq (x : F64) : smag x = if sign x then -(magBits (absBits x) : Int) else (magBits (absBits x) : Int) := by
  rw [smag, mag_eq]

/-- The order of the ranks is the order of the magnitudes with their signs (R14). -/
theorem rank_lt_iff (x y : F64) : rank y < rank x ↔ smag y < smag x := by
  have hlt := magBits_strictMono.lt_iff_lt (a := absBits x) (b := absBits y)
  have hgt := magBits_strictMono.lt_iff_lt (a := absBits y) (b := absBits x)
  have hx := magBits_strictMono.lt_iff_lt (a := 0) (b := absBits x)
  have hy := magBits_strictMono.lt_iff_lt (a := 0) (b := absBits y)
  rw [magBits_zero] at hx hy
  rw [rank, rank, smag_eq, smag_eq]
  cases sign x <;> cases sign y <;> simp only [Bool.false_eq_true, if_false, if_true] <;> omega

@[simp] theorem smag_neg (x : F64) : smag (neg x) = -smag x := by
  rw [smag_eq, smag_eq, sign_neg, absBits_neg]
  cases sign x <;> simp

@[simp] theorem finite_neg (x : F64) : finite (neg x) = finite x := by
  rw [Bool.eq_iff_iff, finite_iff, finite_iff, absBits_neg]

/-- A word is its sign and its bits 62:0. -/
theorem eq_iff (x y : F64) : x = y ↔ sign x = sign y ∧ absBits x = absBits y := by
  refine ⟨fun h => h ▸ ⟨rfl, rfl⟩, fun ⟨hs, ha⟩ => ?_⟩
  rw [← pack_sign_absBits x, ← pack_sign_absBits y, hs, ha]

/-! Exact conversion. -/

/-- Rounding keeps a magnitude of at most 53 significant bits finite. -/
theorem finite_round_mul_two_pow {m a : Nat} (s : Bool) (hm : m < 2 ^ 53) (ha : a ≤ 2045) :
    finite (round s (m * 2 ^ a) 1) = true := by
  have hl : lastPlace (m * 2 ^ a) 1 ≤ a := by
    refine lastPlace_le ?_
    rw [Nat.pow_add]
    exact Nat.mul_lt_mul_of_pos_right hm (Nat.two_pow_pos _)
  have hd : 2 ^ lastPlace (m * 2 ^ a) 1 ∣ m * 2 ^ a := Dvd.dvd.mul_left (Nat.pow_dvd_pow 2 hl) m
  have hq := kept_lt (m * 2 ^ a)
  rw [finite_iff, absBits_round, roundBits, Nat.one_mul, roundHalfEven_of_dvd (Nat.two_pow_pos _) hd]
  refine (Nat.min_le_left _ _).trans_lt ?_
  unfold infBits
  omega

theorem isNaN_nan (ν : Nat) (op : FloatOp) (x y : F64) : isNaN (nan ν op x y) = true := isNaN_someNaN _

end Sys2Proof.F64

namespace Sys2Proof.Machine

theorem unit_pos_rat : (0 : ℚ) < (F64.unit : ℚ) := Nat.cast_pos.2 F64.unit_pos

/-- Settles O54: `f64(n)` needs no rounding, `floor` is the quotient by the unit, and negation flips the sign. -/
theorem integersConvertExactly : Obligations.IntegersConvertExactly := by
  refine ⟨fun n hn => ?_, fun x hx => ⟨?_, ?_, ?_⟩⟩
  · have hsmag := F64.smag_ofNat (m := n) (e := 0) hn (by decide)
    have hfin := F64.finite_round_mul_two_pow (m := n) (a := 1074) false hn (by decide)
    rw [Nat.pow_zero, Nat.mul_one] at hsmag
    refine ⟨by rw [F64.ofNat, F64.unit]; exact hfin, ?_⟩
    rw [F64value, hsmag, Int.cast_natCast, Nat.cast_mul, mul_div_cancel_right₀ _ unit_pos_rat.ne']
  · rw [F64.floor, F64value, Rat.floor_intCast_div_natCast]
  · rw [F64.finite_neg, hx]
  · rw [F64value, F64value, F64.smag_neg, Int.cast_neg, neg_div]

/-- Settles O55: off the NaNs the comparison is by rank, and the infinities have the extreme ranks. -/
theorem comparisonIsOrdered : Obligations.ComparisonIsOrdered := by
  refine ⟨fun x y h => ?_, fun x y hx hy => ?_, fun x y hx hy => ?_, by decide, F64.finite_eq⟩
  · rcases h with h | h <;> simp [F64.gt, h]
  · rw [F64.gt_iff (F64.isNaN_of_finite hx) (F64.isNaN_of_finite hy), F64.rank_lt_iff, F64value, F64value,
      div_lt_div_iff_of_pos_right unit_pos_rat, Int.cast_lt]
  · have hle : ∀ w, F64.isNaN w = false → F64.absBits w ≤ F64.infBits := fun w hw =>
      Nat.not_lt.1 (mt (F64.isNaN_iff w).2 (Bool.eq_false_iff.1 hw))
    have hxle := hle x hx
    have hyle := hle y hy
    have hpos : 0 < F64.infBits := by decide
    rw [F64.gt_iff hx hy, F64.isInf_iff, F64.isInf_iff, Ne, F64.eq_iff, Ne, F64.eq_iff, F64.rank, F64.rank]
    cases F64.sign x <;> cases F64.sign y <;> simp <;> omega

/-- Settles O60: each of these cases ends in a NaN made of a free word. -/
theorem invalidOperationsGiveNaN : Obligations.InvalidOperationsGiveNaN := by
  intro ν x y
  refine ⟨fun h => ?_, fun hx hy hs => ?_, fun hx hy => ?_, fun hx hy => ?_, fun hx hy => ?_, fun h => ?_⟩
  · have hor : (F64.isNaN x || F64.isNaN y) = true := Bool.or_eq_true_iff.2 h
    simp only [F64.add, F64.mul, F64.div, hor, if_true, F64.isNaN_nan, and_self]
  · have hne : (F64.sign x != F64.sign y) = true := bne_iff_ne.2 hs
    simp only [F64.add, F64.isNaN_of_isInf hx, F64.isNaN_of_isInf hy, hx, hy, hne, Bool.or_self, Bool.and_self,
      Bool.false_eq_true, if_false, if_true, F64.isNaN_nan]
  · have hfin := F64.finite_of_isZero hx
    simp only [F64.mul, F64.isNaN_of_finite hfin, F64.isNaN_of_isInf hy, hx, hy, Bool.or_self, Bool.or_true,
      Bool.true_or, Bool.false_eq_true, if_false, if_true, F64.isNaN_nan, and_self]
  · simp only [F64.div, F64.isNaN_of_isInf hx, F64.isNaN_of_isInf hy, hx, hy, Bool.or_self, Bool.false_eq_true,
      if_false, if_true, F64.isNaN_nan]
  · have hfx := F64.finite_of_isZero hx
    have hfy := F64.finite_of_isZero hy
    simp only [F64.div, F64.isNaN_of_finite hfx, F64.isNaN_of_finite hfy, F64.isInf_of_finite hfx,
      F64.isInf_of_finite hfy, hx, hy, Bool.or_self, Bool.false_eq_true, if_false, if_true, F64.isNaN_nan]
  · cases hn : F64.isNaN x with
    | true => simp only [F64.sqrt, hn, if_true, F64.isNaN_nan]
    | false =>
      obtain ⟨hs, h0⟩ := h.resolve_left (by rw [hn]; exact Bool.false_ne_true)
      simp only [F64.sqrt, hn, hs, h0, Bool.false_eq_true, if_false, if_true, F64.isNaN_nan]

end Sys2Proof.Machine
end

section
/-! PROOFS. R11, R148: correct rounding. The model rounds a quotient to the multiple of its last place that is nearest, ties
to even. Every number at or above the binade of the quotient is such a multiple, and every number below it is farther away than
the binade's first; so no number at all is nearer. -/

namespace Sys2Proof.F64

/-! What rounding computes. -/

section
variable (num : Nat) {den : Nat} (hden : 0 < den)
include hden

/-- The quotient lies below the end of its binade, and from its beginning on if anything is rounded off. -/
theorem quotient_lt : num < den * 2 ^ lastPlace num den * 2 ^ 53 := by
  have hlog : num / den < 2 ^ (lastPlace num den + 53) := by
    refine Nat.lt_log2_self.trans_le (Nat.pow_le_pow_right (by decide) ?_)
    unfold lastPlace
    omega
  rw [Nat.pow_add] at hlog
  rw [Nat.mul_assoc, Nat.mul_comm]
  exact (Nat.div_lt_iff_lt_mul hden).1 hlog

theorem le_quotient (h : 0 < lastPlace num den) : den * 2 ^ lastPlace num den * 2 ^ 52 ≤ num := by
  have hk : Nat.log2 (num / den) = lastPlace num den + 52 := by
    unfold lastPlace at h ⊢
    omega
  have h0 : num / den ≠ 0 := by
    intro h0
    rw [h0, Nat.log2_zero] at hk
    omega
  have hlog := Nat.log2_self_le h0
  rw [hk, Nat.pow_add] at hlog
  rw [Nat.mul_assoc, Nat.mul_comm]
  exact (Nat.le_div_iff_mul_le hden).1 hlog

/-- The integer kept by a rounding (R11). -/
def kept (num den : Nat) : Nat := roundHalfEven num (den * 2 ^ lastPlace num den)

theorem kept_spec :
    2 * num ≤ (2 * kept num den + 1) * (den * 2 ^ lastPlace num den) ∧
      2 * kept num den * (den * 2 ^ lastPlace num den) ≤ 2 * num + den * 2 ^ lastPlace num den ∧
      (2 * num = (2 * kept num den + 1) * (den * 2 ^ lastPlace num den) ∨
        2 * kept num den * (den * 2 ^ lastPlace num den) = 2 * num + den * 2 ^ lastPlace num den →
          kept num den % 2 = 0) := by
  have h := roundHalfEven_spec num (Nat.mul_pos hden (Nat.two_pow_pos (lastPlace num den)))
  rw [← kept, ← Nat.mul_assoc] at h
  rw [Nat.add_mul, Nat.one_mul]
  exact h

theorem kept_le : kept num den ≤ 2 ^ 53 := by
  have hD := Nat.mul_pos hden (Nat.two_pow_pos (lastPlace num den))
  obtain ⟨-, hlow, -⟩ := kept_spec num hden
  have hlt := quotient_lt num hden
  generalize den * 2 ^ lastPlace num den = D at *
  by_contra hgt
  have : (2 ^ 53 + 1) * D ≤ kept num den * D := Nat.mul_le_mul_right D (Nat.not_le.1 hgt)
  rw [Nat.mul_assoc] at hlow
  omega

theorem le_kept_of_pos (h : 0 < lastPlace num den) : 2 ^ 52 ≤ kept num den := by
  have hD := Nat.mul_pos hden (Nat.two_pow_pos (lastPlace num den))
  obtain ⟨hhigh, -, -⟩ := kept_spec num hden
  have hge := le_quotient num hden h
  generalize den * 2 ^ lastPlace num den = D at *
  by_contra hlt
  have : (2 * kept num den + 1) * D ≤ (2 * 2 ^ 52 - 1) * D := Nat.mul_le_mul_right D (by omega)
  omega

omit hden in
theorem roundBits_eq : roundBits num den = min (lastPlace num den * 2 ^ 52 + kept num den) infBits := rfl

/-! Overflow. The threshold is the midpoint between the last number, `(2^53 - 1) * 2^(t+1)` units with `t = 2044`, and the
next power of two. -/

theorem lastPlace_le_of_lt {t : Nat} (h : num < den * ((2 ^ 54 - 1) * 2 ^ t)) : lastPlace num den ≤ t + 1 := by
  by_contra hk
  have hge := le_quotient num hden (by omega)
  have hpow : 4 * 2 ^ t ≤ 2 ^ lastPlace num den := by
    rw [show 4 = 2 ^ 2 from rfl, ← Nat.pow_add]
    exact Nat.pow_le_pow_right (by decide) (by omega)
  have hle : den * ((2 ^ 54 - 1) * 2 ^ t) ≤ den * (2 ^ lastPlace num den * 2 ^ 52) := Nat.mul_le_mul_left den (by omega)
  rw [← Nat.mul_assoc den (2 ^ _)] at hle
  omega

theorem kept_lt_of_lt {t : Nat} (hk : lastPlace num den = t + 1) (h : num < den * ((2 ^ 54 - 1) * 2 ^ t)) :
    kept num den < 2 ^ 53 := by
  obtain ⟨-, hlow, -⟩ := kept_spec num hden
  have hD : den * 2 ^ lastPlace num den = den * 2 ^ t * 2 := by rw [hk, Nat.pow_succ, Nat.mul_assoc]
  rw [hD] at hlow
  rw [Nat.mul_left_comm] at h
  generalize den * 2 ^ t = D at *
  by_contra hge
  have hle : 2 * 2 ^ 53 * (D * 2) ≤ 2 * kept num den * (D * 2) := Nat.mul_le_mul_right _ (by omega)
  omega

theorem le_lastPlace_of_ge {t : Nat} (h : den * ((2 ^ 54 - 1) * 2 ^ t) ≤ num) : t + 1 ≤ lastPlace num den := by
  by_contra hk
  have hlt := quotient_lt num hden
  have hpow : 2 ^ lastPlace num den ≤ 2 ^ t := Nat.pow_le_pow_right (by decide) (by omega)
  have hle : den * (2 ^ lastPlace num den * 2 ^ 53) ≤ den * ((2 ^ 54 - 1) * 2 ^ t) := Nat.mul_le_mul_left den (by omega)
  rw [← Nat.mul_assoc den (2 ^ _)] at hle
  omega

theorem le_kept_of_ge {t : Nat} (hk : lastPlace num den = t + 1) (h : den * ((2 ^ 54 - 1) * 2 ^ t) ≤ num) :
    2 ^ 53 ≤ kept num den := by
  obtain ⟨hhigh, -, heven⟩ := kept_spec num hden
  have hD : den * 2 ^ lastPlace num den = den * 2 ^ t * 2 := by rw [hk, Nat.pow_succ, Nat.mul_assoc]
  have hpos := Nat.mul_pos hden (Nat.two_pow_pos t)
  rw [hD] at hhigh heven
  rw [Nat.mul_left_comm] at h
  generalize den * 2 ^ t = D at *
  by_contra hlt
  by_cases hlast : kept num den = 2 ^ 53 - 1
  · rw [hlast] at hhigh heven
    have hodd := heven (.inl (by omega))
    omega
  · have hle : (2 * kept num den + 1) * (D * 2) ≤ (2 ^ 54 - 3) * (D * 2) := Nat.mul_le_mul_right _ (by omega)
    omega

/-- Below the threshold a rounding is finite. -/
theorem roundBits_of_lt (h : num < den * ((2 ^ 54 - 1) * 2 ^ 2044)) :
    roundBits num den = lastPlace num den * 2 ^ 52 + kept num den ∧ roundBits num den < infBits := by
  have hle := kept_le num hden
  have hk : lastPlace num den ≤ 2045 := lastPlace_le_of_lt num hden h
  have htop : lastPlace num den = 2045 → kept num den < 2 ^ 53 := fun hk => kept_lt_of_lt num hden hk h
  have hlt : lastPlace num den * 2 ^ 52 + kept num den < infBits := by
    unfold infBits
    omega
  rw [roundBits_eq, Nat.min_eq_left hlt.le]
  exact ⟨rfl, hlt⟩

/-- At or above it a rounding is an infinity. -/
theorem roundBits_of_ge (h : den * ((2 ^ 54 - 1) * 2 ^ 2044) ≤ num) : roundBits num den = infBits := by
  have hk : 2045 ≤ lastPlace num den := le_lastPlace_of_ge num hden h
  have hge := le_kept_of_pos num hden (by omega)
  have htop : lastPlace num den = 2045 → 2 ^ 53 ≤ kept num den := fun hk => le_kept_of_ge num hden hk h
  refine Nat.min_eq_right (a := lastPlace num den * 2 ^ 52 + kept num den) ?_
  unfold infBits
  omega

end

/-! No number is nearer. -/

/-- The sign of a word as a factor. -/
def signFactor (K : Type*) [Ring K] (s : Bool) : K := if s then -1 else 1

section
variable {K : Type*} [Field K] [LinearOrder K] [IsStrictOrderedRing K]

omit [LinearOrder K] [IsStrictOrderedRing K] in
theorem smag_cast (x : F64) : ((smag x : Int) : K) = signFactor K (sign x) * (magBits (absBits x) : K) := by
  rw [smag_eq, signFactor]
  cases sign x <;> simp

omit [IsStrictOrderedRing K] in
theorem abs_signFactor_mul (s : Bool) (x : K) : |signFactor K s * x| = |x| := by
  cases s <;> simp [signFactor]

/-- A number of the other sign is no nearer than its magnitude is. -/
theorem abs_sub_le_of_signs (s t : Bool) {m w : K} (hm : 0 ≤ m) (hw : 0 ≤ w) :
    |m - w| ≤ |signFactor K t * m - signFactor K s * w| ∧
      (|m - w| = |signFactor K t * m - signFactor K s * w| → s = t ∨ m = 0 ∨ w = 0) := by
  have hother : |m - w| ≤ |m + w| ∧ (|m - w| = |m + w| → m = 0 ∨ w = 0) := by
    rw [abs_of_nonneg (add_nonneg hm hw)]
    refine ⟨abs_le.2 ⟨by linarith, by linarith⟩, fun h => ?_⟩
    rcases abs_cases (m - w) with ⟨h', -⟩ | ⟨h', -⟩
    · exact .inr (by linarith)
    · exact .inl (by linarith)
  by_cases hst : s = t
  · subst hst
    rw [← mul_sub, abs_signFactor_mul]
    exact ⟨le_rfl, fun _ => .inl rfl⟩
  · have hsum : |signFactor K t * m - signFactor K s * w| = |m + w| := by
      cases s <;> cases t <;> simp_all [signFactor]
      rw [← abs_neg, neg_sub, sub_neg_eq_add, add_comm]
    rw [hsum]
    exact ⟨hother.1, fun h => .inr (hother.2 h)⟩

section
variable {w : K} {k q : Nat} (hlow : (2 * (q : K) - 1) * 2 ^ k ≤ 2 * w) (hhigh : 2 * w ≤ (2 * (q : K) + 1) * 2 ^ k)
include hlow hhigh

/-- A number halfway between two multiples of the last place `2^k`. -/
def IsTie (w : K) (k q : Nat) : Prop := 2 * w = (2 * (q : K) + 1) * 2 ^ k ∨ 2 * w = (2 * (q : K) - 1) * 2 ^ k

/-- Of the multiples of `2^k` none is nearer to `w` than the one at most half a place away. -/
theorem nearest_multiple (m : Nat) :
    |(q : K) * 2 ^ k - w| ≤ |(m : K) * 2 ^ k - w| ∧
      (|(q : K) * 2 ^ k - w| = |(m : K) * 2 ^ k - w| → m = q ∨ IsTie w k q) := by
  have hP : (0 : K) < 2 ^ k := by positivity
  have hhalf : |(q : K) * 2 ^ k - w| ≤ 2 ^ k / 2 := abs_le.2 ⟨by linarith, by linarith⟩
  rcases lt_trichotomy m q with hlt | rfl | hgt
  · have hm : ((m : K) + 1) * 2 ^ k ≤ (q : K) * 2 ^ k :=
      mul_le_mul_of_nonneg_right (by exact_mod_cast hlt) hP.le
    rw [abs_sub_comm (_ * _) w, abs_sub_comm (_ * _) w] at *
    have hfar : 2 ^ k / 2 ≤ w - (m : K) * 2 ^ k := by linarith
    rw [abs_of_nonneg (a := w - (m : K) * 2 ^ k) (by linarith)]
    exact ⟨by linarith, fun h => .inr (.inr (by linarith))⟩
  · exact ⟨le_rfl, fun _ => .inl rfl⟩
  · have hm : ((q : K) + 1) * 2 ^ k ≤ (m : K) * 2 ^ k :=
      mul_le_mul_of_nonneg_right (by exact_mod_cast hgt) hP.le
    have hfar : 2 ^ k / 2 ≤ (m : K) * 2 ^ k - w := by linarith
    rw [abs_of_nonneg (a := (m : K) * 2 ^ k - w) (by linarith)]
    exact ⟨by linarith, fun h => .inr (.inl (by linarith))⟩

/-- No magnitude is nearer: those of the binade of `w` and above are multiples of `2^k`, those below lie below the binade's
first, which is itself such a multiple. -/
theorem nearest_magnitude (hk : 0 < k → 2 ^ 52 * 2 ^ k ≤ w) (a : Nat) :
    |(q : K) * 2 ^ k - w| ≤ |(magBits a : K) - w| ∧
      (|(q : K) * 2 ^ k - w| = |(magBits a : K) - w| → (magBits a : K) = (q : K) * 2 ^ k ∨ IsTie w k q) := by
  obtain ⟨k', q', rfl, hq', hn'⟩ := exists_place a
  rw [magBits_add hq'.le hn']
  by_cases hkk : k ≤ k'
  · obtain ⟨d, rfl⟩ := Nat.exists_eq_add_of_le hkk
    have hcast : ((q' * 2 ^ (k + d) : Nat) : K) = ((q' * 2 ^ d : Nat) : K) * 2 ^ k := by
      push_cast
      ring
    obtain ⟨hle, htie⟩ := nearest_multiple hlow hhigh (q' * 2 ^ d)
    rw [hcast]
    exact ⟨hle, fun h => (htie h).imp_left fun hm => by rw [hm]⟩
  · have hfirst := (nearest_multiple hlow hhigh (2 ^ 52)).1
    have hw := hk (by omega)
    have hbelow : q' * 2 ^ k' < 2 ^ 52 * 2 ^ k := by
      have hpow : 2 * 2 ^ k' ≤ 2 ^ k := by
        rw [← Nat.pow_succ']
        exact Nat.pow_le_pow_right (by decide) (by omega)
      have := Nat.mul_lt_mul_of_pos_right hq' (Nat.two_pow_pos k')
      omega
    have hbelow' : ((q' * 2 ^ k' : Nat) : K) < 2 ^ 52 * 2 ^ k := by exact_mod_cast hbelow
    rw [Nat.cast_pow, Nat.cast_ofNat, abs_sub_comm (2 ^ 52 * 2 ^ k) w,
      abs_of_nonneg (a := w - 2 ^ 52 * 2 ^ k) (by linarith)] at hfirst
    rw [abs_sub_comm ((q' * 2 ^ k' : Nat) : K) w, abs_of_nonneg (a := w - ((q' * 2 ^ k' : Nat) : K)) (by linarith)]
    exact ⟨by linarith, fun h => by linarith⟩

/-- Nor is any number with a sign. -/
theorem nearest_word (hw : 0 ≤ w) (hk : 0 < k → 2 ^ 52 * 2 ^ k ≤ w) (s : Bool) (z : F64) :
    |signFactor K s * ((q : K) * 2 ^ k) - signFactor K s * w| ≤ |((smag z : Int) : K) - signFactor K s * w| ∧
      (|signFactor K s * ((q : K) * 2 ^ k) - signFactor K s * w| = |((smag z : Int) : K) - signFactor K s * w| →
        ((smag z : Int) : K) = signFactor K s * ((q : K) * 2 ^ k) ∨ IsTie w k q ∨ w = 0) := by
  obtain ⟨hle, htie⟩ := nearest_magnitude hlow hhigh hk (absBits z)
  obtain ⟨hsign, hsame⟩ := abs_sub_le_of_signs s (sign z) (m := (magBits (absBits z) : K)) (Nat.cast_nonneg _) hw
  rw [← mul_sub, abs_signFactor_mul, smag_cast]
  refine ⟨hle.trans hsign, fun h => ?_⟩
  rcases htie (le_antisymm hle (h ▸ hsign)) with hm | hm
  · rcases hsame (le_antisymm hsign (h ▸ hle)) with hs | h0 | h0
    · exact .inl (by rw [hs, hm])
    · exact .inl (by rw [← hm, h0, mul_zero, mul_zero])
    · exact .inr (.inr h0)
  · exact .inr (.inl hm)

end

end

/-! The result of a rounding. -/

/-- The number a finite rounding stands for, in units. -/
theorem smag_round {num den : Nat} (hden : 0 < den) (s : Bool) (h : num < den * ((2 ^ 54 - 1) * 2 ^ 2044))
    (K : Type*) [Field K] [LinearOrder K] [IsStrictOrderedRing K] :
    ((smag (round s num den) : Int) : K) = signFactor K s * ((kept num den : K) * 2 ^ lastPlace num den) := by
  obtain ⟨hbits, -⟩ := roundBits_of_lt num hden h
  rw [smag_cast, sign_round, absBits_round, hbits, magBits_add (kept_le num hden) (le_kept_of_pos num hden)]
  push_cast
  rfl

theorem finite_round {num den : Nat} (hden : 0 < den) (s : Bool) (h : num < den * ((2 ^ 54 - 1) * 2 ^ 2044)) :
    finite (round s num den) = true := by
  rw [finite_iff, absBits_round]
  exact (roundBits_of_lt num hden h).2

end Sys2Proof.F64

namespace Sys2Proof.Machine

open F64 (signFactor kept lastPlace)

/-- The overflow threshold of `RoundsTo` in units. -/
theorem lt_threshold_iff {num den : Nat} (hden : 0 < den) :
    (num : ℚ) / den / F64.unit < 2 ^ 1024 - 2 ^ 970 ↔ num < den * ((2 ^ 54 - 1) * 2 ^ 2044) := by
  have hthreshold : ((2 : ℚ) ^ 1024 - 2 ^ 970) * F64.unit = ((2 ^ 54 - 1) * 2 ^ 2044 : Nat) := by
    have hsplit : (2 : ℚ) ^ 1024 = 2 ^ 54 * 2 ^ 970 := by rw [← pow_add]
    have hjoin : (2 : ℚ) ^ 970 * 2 ^ 1074 = 2 ^ 2044 := by rw [← pow_add]
    rw [F64.unit, Nat.cast_mul, Nat.cast_pow, Nat.cast_pow, Nat.cast_ofNat, ← hjoin, hsplit, Nat.cast_sub (by decide)]
    generalize (2 : ℚ) ^ 970 = P
    generalize (2 : ℚ) ^ 1074 = U
    push_cast
    ring
  rw [div_lt_iff₀ unit_pos_rat, hthreshold, div_lt_iff₀ (Nat.cast_pos.2 hden), mul_comm]
  exact_mod_cast Iff.rfl

section
variable {num den : Nat} (hden : 0 < den)
include hden

/-- The kept integer is within half a place of the quotient, a tie having an even integer (R11). -/
theorem kept_near (K : Type*) [Field K] [LinearOrder K] [IsStrictOrderedRing K] :
    (2 * (kept num den : K) - 1) * 2 ^ lastPlace num den ≤ 2 * ((num : K) / den) ∧
      2 * ((num : K) / den) ≤ (2 * (kept num den : K) + 1) * 2 ^ lastPlace num den ∧
      (0 < lastPlace num den → 2 ^ 52 * 2 ^ lastPlace num den ≤ (num : K) / den) ∧
      (F64.IsTie ((num : K) / den) (lastPlace num den) (kept num den) → kept num den % 2 = 0) := by
  obtain ⟨hhigh, hlow, heven⟩ := F64.kept_spec num hden
  have hge := F64.le_quotient num hden
  have hd : (0 : K) < den := Nat.cast_pos.2 hden
  have hnum : (num : K) / den * den = num := div_mul_cancel₀ _ hd.ne'
  have hhigh' : 2 * (num : K) ≤ (2 * (kept num den : K) + 1) * (den * 2 ^ lastPlace num den) := by exact_mod_cast hhigh
  have hlow' : 2 * (kept num den : K) * (den * 2 ^ lastPlace num den) ≤ 2 * num + den * 2 ^ lastPlace num den := by
    exact_mod_cast hlow
  refine ⟨?_, ?_, fun hk => ?_, fun htie => heven ?_⟩
  · refine le_of_mul_le_mul_right ?_ hd
    linear_combination hlow' - 2 * hnum
  · refine le_of_mul_le_mul_right ?_ hd
    linear_combination hhigh' + 2 * hnum
  · have hge' : (den : K) * 2 ^ lastPlace num den * 2 ^ 52 ≤ num := by exact_mod_cast hge hk
    refine le_of_mul_le_mul_right ?_ hd
    linear_combination hge' - hnum
  · rcases htie with h | h
    · left
      have : 2 * (num : K) = (2 * (kept num den : K) + 1) * (den * 2 ^ lastPlace num den) := by
        linear_combination (den : K) * h - 2 * hnum
      exact_mod_cast this
    · right
      have : 2 * (kept num den : K) * (den * 2 ^ lastPlace num den) = 2 * num + den * 2 ^ lastPlace num den := by
        linear_combination 2 * hnum - (den : K) * h
      exact_mod_cast this

/-- An even integer kept gives an even pattern. -/
theorem even_round (s : Bool) (h : num < den * ((2 ^ 54 - 1) * 2 ^ 2044)) (heven : kept num den % 2 = 0) :
    (F64.round s num den).toNat % 2 = 0 := by
  obtain ⟨hbits, hlt⟩ := F64.roundBits_of_lt num hden h
  rw [F64.round, F64.toNat_pack s (hlt.trans F64.infBits_lt), hbits]
  cases s <;> simp only [Bool.false_eq_true, if_false, if_true] <;> omega

theorem pos_of_threshold_le {t : Nat} (h : den * ((2 ^ 54 - 1) * 2 ^ t) ≤ num) : 0 < num :=
  (Nat.mul_pos hden (Nat.mul_pos (by decide) (Nat.two_pow_pos t))).trans_le h

/-- Rounding a quotient of units is the IEEE 754 rounding of the number it stands for (R11, R148). -/
theorem roundsTo_round (s : Bool) : RoundsTo (signFactor ℚ s * ((num : ℚ) / den) / F64.unit) (F64.round s num den) := by
  have hw : (0 : ℚ) ≤ (num : ℚ) / den := by positivity
  have habs : |signFactor ℚ s * ((num : ℚ) / den) / F64.unit| = (num : ℚ) / den / F64.unit := by
    rw [abs_div, F64.abs_signFactor_mul, abs_of_nonneg hw, abs_of_pos unit_pos_rat]
  unfold RoundsTo
  rw [habs]
  by_cases h : num < den * ((2 ^ 54 - 1) * 2 ^ 2044)
  · obtain ⟨hlow, hhigh, hfirst, htie⟩ := kept_near (num := num) hden ℚ
    rw [if_pos ((lt_threshold_iff hden).2 h)]
    refine ⟨F64.finite_round hden s h, fun z _ => ?_⟩
    obtain ⟨hle, heq⟩ := F64.nearest_word hlow hhigh hw hfirst s z
    rw [← F64.smag_round hden s h ℚ] at hle heq
    have hunits : ∀ x : F64, |F64value x - signFactor ℚ s * ((num : ℚ) / den) / F64.unit| =
        |((F64.smag x : Int) : ℚ) - signFactor ℚ s * ((num : ℚ) / den)| / F64.unit := by
      intro x
      rw [F64value, ← sub_div, abs_div, abs_of_pos unit_pos_rat]
    rw [hunits, hunits, div_le_div_iff_of_pos_right unit_pos_rat, div_left_inj' unit_pos_rat.ne']
    refine ⟨hle, fun h' => ?_⟩
    rcases heq h' with hz | ht | h0
    · left
      rw [F64value, F64value, hz]
    · exact .inr (even_round hden s h (htie ht))
    · right
      have hnum : num = 0 := by
        rcases div_eq_zero_iff.1 h0 with h0 | h0
        · exact_mod_cast h0
        · exact absurd (Nat.cast_eq_zero.1 h0) hden.ne'
      subst hnum
      exact even_round hden s h (by simp [kept, F64.roundHalfEven])
  · rw [if_neg (mt (lt_threshold_iff hden).1 h), F64.isInf_iff, F64.absBits_round, F64.sign_round]
    have hge := Nat.not_lt.1 h
    refine ⟨F64.roundBits_of_ge num hden hge, ?_⟩
    have hpos : 0 < num := pos_of_threshold_le hden hge
    have hq : (0 : ℚ) < (num : ℚ) / den / F64.unit :=
      div_pos (div_pos (Nat.cast_pos.2 hpos) (Nat.cast_pos.2 hden)) unit_pos_rat
    rw [mul_div_assoc]
    generalize (num : ℚ) / den / F64.unit = v at hq ⊢
    cases s
    · simpa [signFactor] using hq.le
    · simpa [signFactor] using hq

end

/-! The operations. -/

theorem signFactor_bne (s t : Bool) : signFactor ℚ (s != t) = signFactor ℚ s * signFactor ℚ t := by
  cases s <;> cases t <;> simp [signFactor]

theorem F64value_eq (x : F64) : F64value x = signFactor ℚ (F64.sign x) * (F64.mag x : ℚ) / F64.unit := by
  rw [F64value, F64.smag_cast, F64.mag_eq]

/-- The infinity of a sign. -/
theorem isInf_sign_pack (s : Bool) : F64.isInf (F64.pack s F64.infBits) = true ∧ F64.sign (F64.pack s F64.infBits) = s :=
  ⟨F64.isInf_pack s, F64.sign_pack s F64.infBits_lt⟩

/-- Settles O57: the exact product has `mag x * mag y` over the unit for its magnitude. -/
theorem multiplicationIsCorrectlyRounded : Obligations.MultiplicationIsCorrectlyRounded := by
  refine ⟨fun ν x y hx hy hy0 => ?_, fun ν x y hx hy => ?_⟩
  · have hmul : F64.mul ν x y = F64.pack (F64.sign x != F64.sign y) F64.infBits := by
      simp only [F64.mul, F64.isNaN_of_isInf hx, hy, hx, F64.isZero_of_isInf hx, hy0, Bool.or_self, Bool.true_or,
        Bool.false_eq_true, if_false, if_true]
    have hmul' : F64.mul ν y x = F64.pack (F64.sign y != F64.sign x) F64.infBits := by
      simp only [F64.mul, F64.isNaN_of_isInf hx, hy, hx, F64.isZero_of_isInf hx, hy0, Bool.or_self, Bool.or_true,
        Bool.false_eq_true, if_false, if_true]
    rw [hmul, hmul']
    exact ⟨isInf_sign_pack _, isInf_sign_pack _⟩
  · rw [F64.mul_finite hx hy]
    refine ⟨?_, F64.sign_round _ _ _⟩
    have hvalue : F64value x * F64value y =
        signFactor ℚ (F64.sign x != F64.sign y) * ((F64.mag x * F64.mag y : Nat) / F64.unit : ℚ) / F64.unit := by
      rw [F64value_eq, F64value_eq, signFactor_bne, Nat.cast_mul]
      ring
    rw [hvalue]
    exact roundsTo_round F64.unit_pos _

/-- Only the zeros have magnitude 0. -/
theorem mag_pos {x : F64} (h : F64.isZero x = false) : 0 < F64.mag x := by
  have h0 : 0 < F64.absBits x := by
    rw [F64.isZero, beq_eq_false_iff_ne] at h
    omega
  rw [F64.mag_eq, ← F64.magBits_zero]
  exact F64.magBits_strictMono h0

/-- Settles O58: the exact quotient has `mag x` units over `mag y` for its magnitude. -/
theorem divisionIsCorrectlyRounded : Obligations.DivisionIsCorrectlyRounded := by
  refine ⟨fun ν x y => ⟨fun hx hx0 hy0 => ?_, fun hx hy => ?_, fun hx hy => ?_⟩, fun ν x y hx hy hy0 => ?_⟩
  · have hy := F64.finite_of_isZero hy0
    have hdiv : F64.div ν x y = F64.pack (F64.sign x != F64.sign y) F64.infBits := by
      simp only [F64.div, hx, hx0, hy0, F64.isNaN_of_finite hy, F64.isInf_of_finite hy, Bool.or_self,
        Bool.false_eq_true, if_false, if_true, ite_self]
    rw [hdiv]
    exact isInf_sign_pack _
  · have hdiv : F64.div ν x y = F64.pack (F64.sign x != F64.sign y) F64.infBits := by
      simp only [F64.div, hx, F64.isNaN_of_isInf hx, F64.isNaN_of_finite hy, F64.isInf_of_finite hy, Bool.or_self,
        Bool.false_eq_true, if_false, if_true]
    rw [hdiv]
    exact isInf_sign_pack _
  · have hdiv : F64.div ν x y = F64.pack (F64.sign x != F64.sign y) 0 := by
      simp only [F64.div, hy, F64.isNaN_of_isInf hy, F64.isNaN_of_finite hx, F64.isInf_of_finite hx, Bool.or_self,
        Bool.false_eq_true, if_false, if_true]
    rw [hdiv]
    exact ⟨F64.isZero_pack _, F64.sign_pack _ (by decide)⟩
  · rw [F64.div_finite hx hy hy0]
    refine ⟨?_, F64.sign_round _ _ _⟩
    have hmag : (F64.mag y : ℚ) ≠ 0 := Nat.cast_ne_zero.2 (mag_pos hy0).ne'
    have hsign : signFactor ℚ (F64.sign y) ≠ 0 := by cases F64.sign y <;> simp [signFactor]
    have hself : signFactor ℚ (F64.sign y) * signFactor ℚ (F64.sign y) = 1 := by
      cases F64.sign y <;> simp [signFactor]
    have hvalue : F64value x / F64value y =
        signFactor ℚ (F64.sign x != F64.sign y) * ((F64.mag x * F64.unit : Nat) / F64.mag y : ℚ) / F64.unit := by
      have hu := unit_pos_rat.ne'
      rw [F64value_eq, F64value_eq, signFactor_bne, Nat.cast_mul]
      field_simp
      linear_combination -(signFactor ℚ (F64.sign x) * (F64.mag x : ℚ)) * hself
    rw [hvalue]
    exact roundsTo_round (mag_pos hy0) _

/-- The sum of two finite words (R11, R148). -/
theorem add_finite {x y : F64} (hx : F64.finite x = true) (hy : F64.finite y = true) (ν : Nat) :
    F64.add ν x y =
      if F64.smag x + F64.smag y = 0 then F64.pack (F64.sign x && F64.sign y) 0
      else F64.round (decide (F64.smag x + F64.smag y < 0)) (F64.smag x + F64.smag y).natAbs 1 := by
  simp only [F64.add, F64.isNaN_of_finite hx, F64.isNaN_of_finite hy, F64.isInf_of_finite hx, F64.isInf_of_finite hy,
    Bool.or_self, Bool.false_eq_true, if_false]

/-- A zero of either sign is the rounding of nothing. -/
theorem pack_zero_eq_round (s : Bool) : F64.pack s 0 = F64.round s 0 1 := by rw [F64.round, F64.roundBits_zero]

/-- Settles O56: the exact sum is a whole number of units. -/
theorem additionIsCorrectlyRounded : Obligations.AdditionIsCorrectlyRounded := by
  refine ⟨fun ν x y hx hy => ?_, fun ν x y hx hy => ?_⟩
  · have hxn := F64.isNaN_of_isInf hx
    rcases hy with hy | rfl
    · simp only [F64.add, hx, hxn, F64.isNaN_of_finite hy, F64.isInf_of_finite hy, Bool.or_self, Bool.false_and,
        Bool.false_eq_true, if_false, if_true, and_self]
    · simp only [F64.add, hx, hxn, bne_self_eq_false, Bool.or_self, Bool.and_false, Bool.false_eq_true, if_false,
        if_true, and_self]
  · have hsum : F64value x + F64value y = ((F64.smag x + F64.smag y : Int) : ℚ) / F64.unit := by
      rw [F64value, F64value, Int.cast_add, add_div]
    rw [add_finite hx hy, hsum]
    generalize F64.smag x + F64.smag y = z
    by_cases hz : z = 0
    · rw [if_pos hz, pack_zero_eq_round, F64.sign_round]
      refine ⟨?_, fun _ => rfl⟩
      have h0 := roundsTo_round (num := 0) Nat.one_pos (F64.sign x && F64.sign y)
      rw [Nat.cast_zero, zero_div, mul_zero] at h0
      rwa [hz, Int.cast_zero]
    · rw [if_neg hz]
      refine ⟨?_, fun h0 => ?_⟩
      · have habs : ((z : Int) : ℚ) = signFactor ℚ (decide (z < 0)) * ((z.natAbs : Nat) / (1 : Nat) : ℚ) := by
          have hcast : ((z.natAbs : Nat) : ℚ) = ((|z| : Int) : ℚ) := by rw [Int.abs_eq_natAbs, Int.cast_natCast]
          rw [Nat.cast_one, div_one, hcast]
          by_cases hneg : z < 0
          · simp [signFactor, hneg, abs_of_neg hneg]
          · simp [signFactor, hneg, abs_of_nonneg (not_lt.1 hneg)]
        rw [habs]
        exact roundsTo_round Nat.one_pos _
      · rcases div_eq_zero_iff.1 h0 with h0 | h0
        · exact absurd (Int.cast_eq_zero.1 h0) hz
        · exact absurd h0 unit_pos_rat.ne'

end Sys2Proof.Machine
end

section
/-! PROOFS. R11, R148: the square root. The root of a positive finite number has more than 53 bits in units, so the place of
the last bit kept is even and the half unit that stands for an inexact root lies on the same side of every midpoint as the
root itself. -/

namespace Sys2Proof.F64

/-! Powers of two, with variables for exponents so that no power is evaluated. -/

theorem two_pow_mul_eq {a b c : Nat} (h : a + b = c) : 2 ^ a * 2 ^ b = 2 ^ c := by rw [← Nat.pow_add, h]

theorem two_pow_mul_le {a b c : Nat} (h : a + b ≤ c) : 2 ^ a * 2 ^ b ≤ 2 ^ c := by
  rw [← Nat.pow_add]
  exact Nat.pow_le_pow_right Nat.two_pos h

theorem magBits_lt_threshold {t a : Nat} (h : a ≤ (t + 1) * 2 ^ 52 + (2 ^ 53 - 1)) : magBits a < (2 ^ 54 - 1) * 2 ^ t := by
  have hpos := Nat.two_pow_pos t
  have hle := magBits_strictMono.monotone h
  rw [magBits_add (by decide) (fun _ => by decide), Nat.pow_succ] at hle
  omega

/-- A finite magnitude is below the overflow threshold. -/
theorem mag_lt {x : F64} (h : finite x = true) : mag x < (2 ^ 54 - 1) * 2 ^ 2044 := by
  rw [finite_iff, infBits] at h
  rw [mag_eq]
  exact magBits_lt_threshold (by omega)

/-! The integer root. -/

theorem isqrt_lt {a n : Nat} (h : a < n * n) : isqrt a < n :=
  Nat.mul_self_lt_mul_self_iff.1 ((isqrt_spec a).1.trans_lt h)

theorem le_isqrt {a n : Nat} (h : n * n ≤ a) : n ≤ isqrt a :=
  Nat.lt_succ_iff.1 (Nat.mul_self_lt_mul_self_iff.1 (h.trans_lt (isqrt_spec a).2))

/-- What is rounded beyond the whole part of the root, in half units. -/
def rootRest (a : Nat) : Nat := if isqrt a * isqrt a = a then 0 else 1

theorem rootRest_le (a : Nat) : rootRest a ≤ 1 := by unfold rootRest; split <;> omega

theorem le_sq_add_rootRest (a : Nat) : a ≤ (isqrt a + rootRest a) * (isqrt a + rootRest a) := by
  unfold rootRest
  split
  · next h => exact h.ge
  · exact (isqrt_spec a).2.le

theorem sqrt_eq_round {x : F64} (hnan : isNaN x = false) (hinf : isInf x = false) (hzero : isZero x = false)
    (hsign : sign x = false) (ν : Nat) :
    sqrt ν x = round false (2 * isqrt (mag x * unit) + rootRest (mag x * unit)) 2 := by
  simp only [sqrt, hnan, hinf, hzero, hsign, Bool.false_eq_true, if_false, rootRest]

section
variable {a : Nat} (ha : 2 ^ 53 * 2 ^ 53 ≤ a)
include ha

theorem lastPlace_root_pos : 0 < lastPlace (2 * isqrt a + rootRest a) 2 := by
  have hr := le_isqrt ha
  have hrest := rootRest_le a
  have hquot : (2 * isqrt a + rootRest a) / 2 = isqrt a := by omega
  have hlog : 53 ≤ Nat.log2 (isqrt a) := (Nat.le_log2 (by omega)).2 hr
  unfold lastPlace
  rw [hquot]
  omega

/-- The integer kept is within half a place of the whole part of the root and of the next integer if the root is inexact. -/
theorem kept_root :
    2 * kept (2 * isqrt a + rootRest a) 2 * 2 ^ lastPlace (2 * isqrt a + rootRest a) 2 ≤
        2 * isqrt a + 2 ^ lastPlace (2 * isqrt a + rootRest a) 2 ∧
      2 * (isqrt a + rootRest a) ≤
        (2 * kept (2 * isqrt a + rootRest a) 2 + 1) * 2 ^ lastPlace (2 * isqrt a + rootRest a) 2 ∧
      2 ^ 52 * 2 ^ lastPlace (2 * isqrt a + rootRest a) 2 ≤ isqrt a := by
  have hrest := rootRest_le a
  have hk := lastPlace_root_pos ha
  obtain ⟨hhigh, hlow, -⟩ := kept_spec (2 * isqrt a + rootRest a) (den := 2) (by decide)
  have hfirst := le_quotient (2 * isqrt a + rootRest a) (den := 2) (by decide) hk
  obtain ⟨e, he⟩ : 2 ∣ 2 ^ lastPlace (2 * isqrt a + rootRest a) 2 := dvd_pow_self 2 hk.ne'
  rw [he] at hhigh hlow hfirst ⊢
  generalize kept (2 * isqrt a + rootRest a) 2 = q at *
  have hprod : ∀ c, 2 * q * (c * e) = 2 * c * (q * e) := fun c => by ring
  have hprod4 : (2 * q + 1) * (2 * (2 * e)) = 8 * (q * e) + 4 * e := by ring
  have hprod2 : (2 * q + 1) * (2 * e) = 4 * (q * e) + 2 * e := by ring
  rw [hprod4] at hhigh
  rw [← Nat.mul_assoc 2 2 e, hprod] at hlow
  rw [hprod2, hprod]
  omega

theorem sqrt_near :
    (2 * (kept (2 * isqrt a + rootRest a) 2 : ℝ) - 1) * 2 ^ lastPlace (2 * isqrt a + rootRest a) 2 ≤ 2 * √(a : ℝ) ∧
      2 * √(a : ℝ) ≤ (2 * (kept (2 * isqrt a + rootRest a) 2 : ℝ) + 1) * 2 ^ lastPlace (2 * isqrt a + rootRest a) 2 ∧
      2 ^ 52 * 2 ^ lastPlace (2 * isqrt a + rootRest a) 2 ≤ √(a : ℝ) := by
  obtain ⟨hlow, hhigh, hfirst⟩ := kept_root ha
  have hroot : (isqrt a : ℝ) ≤ √(a : ℝ) := by
    refine Real.le_sqrt_of_sq_le ?_
    rw [sq]
    exact_mod_cast (isqrt_spec a).1
  have hnext : √(a : ℝ) ≤ (isqrt a : ℝ) + rootRest a := by
    refine Real.sqrt_le_iff.2 ⟨by positivity, ?_⟩
    rw [sq]
    exact_mod_cast le_sq_add_rootRest a
  generalize lastPlace (2 * isqrt a + rootRest a) 2 = k at *
  generalize kept (2 * isqrt a + rootRest a) 2 = q at *
  have hlow' : 2 * (q : ℝ) * 2 ^ k ≤ 2 * isqrt a + 2 ^ k := by exact_mod_cast hlow
  have hhigh' : 2 * ((isqrt a : ℝ) + rootRest a) ≤ (2 * (q : ℝ) + 1) * 2 ^ k := by exact_mod_cast hhigh
  have hfirst' : (2 : ℝ) ^ 52 * 2 ^ k ≤ isqrt a := by exact_mod_cast hfirst
  exact ⟨by linarith, by linarith, by linarith⟩

end

end Sys2Proof.F64

namespace Sys2Proof.Machine

open F64 (isqrt rootRest)

/-- A word above +0.0 has sign 0 and is not a zero. -/
theorem sign_isZero_of_gt_zero {x : F64} (hnan : F64.isNaN x = false) (h : F64.gt x F64.zero = true) :
    F64.sign x = false ∧ F64.isZero x = false := by
  have hzero : F64.rank F64.zero = 0 := by decide
  rw [F64.gt_iff hnan (by decide), hzero, F64.rank] at h
  rw [F64.isZero, beq_eq_false_iff_ne]
  cases hs : F64.sign x
  · rw [hs] at h
    simp only [Bool.false_eq_true, if_false] at h
    exact ⟨rfl, by omega⟩
  · rw [hs] at h
    simp only [if_true] at h
    omega

/-- The root of a number in units. -/
theorem sqrt_F64value {x : F64} (hs : F64.sign x = false) :
    √((F64value x : ℚ) : ℝ) = √((F64.mag x * F64.unit : Nat) : ℝ) / F64.unit := by
  have hu : (0 : ℝ) < F64.unit := Nat.cast_pos.2 F64.unit_pos
  have hvalue : ((F64value x : ℚ) : ℝ) = ((F64.mag x * F64.unit : Nat) : ℝ) / (F64.unit : ℝ) ^ 2 := by
    rw [F64value, F64.smag, hs, if_neg Bool.false_ne_true]
    push_cast
    rw [sq, mul_div_mul_right _ _ hu.ne']
  rw [hvalue, Real.sqrt_div (Nat.cast_nonneg _), Real.sqrt_sq hu.le]

/-- The root of a finite number is far from overflow. -/
theorem sqrt_lt_threshold {x : F64} (hx : F64.finite x = true) :
    2 * isqrt (F64.mag x * F64.unit) + rootRest (F64.mag x * F64.unit) < 2 * ((2 ^ 54 - 1) * 2 ^ 2044) := by
  have hrest := F64.rootRest_le (F64.mag x * F64.unit)
  have hroot : isqrt (F64.mag x * F64.unit) < 2 ^ 2044 := by
    refine F64.isqrt_lt ?_
    have hpow : 2 ^ 54 * F64.unit ≤ 2 ^ 2044 := by rw [F64.unit]; exact F64.two_pow_mul_le (by decide)
    calc F64.mag x * F64.unit < (2 ^ 54 - 1) * 2 ^ 2044 * F64.unit :=
          Nat.mul_lt_mul_of_pos_right (F64.mag_lt hx) F64.unit_pos
      _ ≤ 2 ^ 54 * 2 ^ 2044 * F64.unit := Nat.mul_le_mul_right _ (Nat.mul_le_mul_right _ (by decide))
      _ = 2 ^ 54 * F64.unit * 2 ^ 2044 := Nat.mul_right_comm _ _ _
      _ ≤ 2 ^ 2044 * 2 ^ 2044 := Nat.mul_le_mul_right _ hpow
  generalize 2 ^ 2044 = P at *
  omega

/-- Settles O59: the exact root lies within half a place of the integer kept, so no number is nearer. -/
theorem squareRootIsNearest : Obligations.SquareRootIsNearest := by
  refine ⟨fun ν => ⟨?_, ?_, ?_⟩, fun ν x hx hpos => ?_⟩
  · have hnan : F64.isNaN F64.posInf = false := by decide
    have hzero : F64.isZero F64.posInf = false := by decide
    have hsign : F64.sign F64.posInf = false := by decide
    have hinf : F64.isInf F64.posInf = true := by decide
    simp only [F64.sqrt, hnan, hzero, hsign, hinf, Bool.false_eq_true, if_false, if_true]
  · have hzero : F64.isZero F64.zero = true := by decide
    simp only [F64.sqrt, F64.isNaN_of_finite (F64.finite_of_isZero hzero), hzero, Bool.false_eq_true, if_false, if_true]
  · have hzero : F64.isZero (F64.neg F64.zero) = true := by decide
    simp only [F64.sqrt, F64.isNaN_of_finite (F64.finite_of_isZero hzero), hzero, Bool.false_eq_true, if_false, if_true]
  · have hnan := F64.isNaN_of_finite hx
    obtain ⟨hsign, hzero⟩ := sign_isZero_of_gt_zero hnan hpos
    have hlt := sqrt_lt_threshold hx
    have hunit : 2 ^ 53 * 2 ^ 53 ≤ F64.unit := by rw [F64.unit]; exact F64.two_pow_mul_le (by decide)
    have hbits : 2 ^ 53 * 2 ^ 53 ≤ F64.mag x * F64.unit := hunit.trans (Nat.le_mul_of_pos_left _ (mag_pos hzero))
    obtain ⟨hlow, hhigh, hfirst⟩ := F64.sqrt_near hbits
    rw [F64.sqrt_eq_round hnan (F64.isInf_of_finite hx) hzero hsign]
    refine ⟨F64.finite_round (by decide) false hlt, F64.sign_round _ _ _, fun z _ => ?_⟩
    have hu : (0 : ℝ) < F64.unit := Nat.cast_pos.2 F64.unit_pos
    have hunits : ∀ y : F64, |((F64value y : ℚ) : ℝ) - √((F64value x : ℚ) : ℝ)| =
        |((F64.smag y : Int) : ℝ) - √((F64.mag x * F64.unit : Nat) : ℝ)| / F64.unit := by
      intro y
      rw [sqrt_F64value hsign, F64value, Rat.cast_div, Rat.cast_intCast, Rat.cast_natCast, ← sub_div, abs_div,
        abs_of_pos hu]
    have hnear := (F64.nearest_word hlow hhigh (Real.sqrt_nonneg _) (fun _ => hfirst) false z).1
    rw [← F64.smag_round (by decide) false hlt ℝ] at hnear
    rw [hunits, hunits, div_le_div_iff_of_pos_right hu]
    simpa only [F64.signFactor, Bool.false_eq_true, if_false, one_mul] using hnear

end Sys2Proof.Machine
end

section
/-! PROOFS. R229, step 2: a transmitted 0 is decided 0. A 0 bit sends the carrier times a negative amplitude; mixing multiplies
by the same carrier again, so every mixed sample of the bit is negative or a zero, and so are their sum, their average and the
statistic of `END`, whose window is exactly the bit. -/

namespace Sys2Proof.F64

/-! Words that are not NaN and not above zero. -/

def Nonpositive (x : F64) : Prop := isNaN x = false ∧ (sign x = true ∨ isZero x = true)

theorem Nonpositive.of_isZero {x : F64} (h : isZero x = true) : Nonpositive x :=
  ⟨isNaN_of_finite (finite_of_isZero h), .inr h⟩

theorem Nonpositive.round (num den : Nat) : Nonpositive (round true num den) :=
  ⟨isNaN_round _ _ _, .inl (sign_round _ _ _)⟩

theorem Nonpositive.smag_le {x : F64} (h : Nonpositive x) : smag x ≤ 0 := by
  rw [smag_eq]
  rcases h.2 with hs | h0
  · rw [if_pos hs]
    omega
  · rw [beq_iff_eq.1 h0, magBits_zero]
    split <;> rfl

theorem Nonpositive.sign_of_isInf {x : F64} (h : Nonpositive x) (hinf : isInf x = true) : sign x = true :=
  h.2.resolve_right (by rw [isZero_of_isInf hinf]; exact Bool.false_ne_true)

/-- It is not above zero (R14). -/
theorem Nonpositive.gt_zero {x : F64} (h : Nonpositive x) : gt x zero = false := by
  have hzero : rank zero = 0 := by decide
  rw [Bool.eq_false_iff, Ne, gt_iff h.1 (by decide), hzero, rank]
  rcases h.2 with hs | h0
  · rw [if_pos hs]
    omega
  · rw [beq_iff_eq.1 h0]
    split <;> decide

/-- Of an infinity and any other such word the sum is that infinity. -/
theorem Nonpositive.add {x y : F64} (hx : Nonpositive x) (hy : Nonpositive y) (ν : Nat) : Nonpositive (add ν x y) := by
  have hnan : (isNaN x || isNaN y) = false := by rw [hx.1, hy.1]; rfl
  by_cases hxinf : isInf x = true
  · have hsame : (isInf y && sign x != sign y) = false := by
      cases hyinf : isInf y
      · rfl
      · rw [hx.sign_of_isInf hxinf, hy.sign_of_isInf hyinf]; rfl
    rw [F64.add, hnan, if_neg Bool.false_ne_true, if_pos hxinf, hsame, if_neg Bool.false_ne_true]
    exact hx
  · by_cases hyinf : isInf y = true
    · rw [F64.add, hnan, if_neg Bool.false_ne_true, if_neg hxinf, if_pos hyinf]
      exact hy
    · have hle := add_nonpos hx.smag_le hy.smag_le
      simp only [F64.add, hnan, hxinf, hyinf, Bool.false_eq_true, if_false]
      split_ifs with hz
      · exact .of_isZero (isZero_pack _)
      · rw [decide_eq_true (lt_of_le_of_ne hle hz)]
        exact .round _ _

theorem Nonpositive.sum {f : Nat → F64} (ν : Nat) : ∀ {n : Nat},
    (∀ j, j < n → Nonpositive (f j)) → Nonpositive (sum ν f n)
  | 0, _ => Nonpositive.of_isZero (x := zero) (by decide)
  | n + 1, h => (Nonpositive.sum ν fun j hj => h j (Nat.lt_succ_of_lt hj)).add (h n (Nat.lt_succ_self n)) ν

/-- Over a positive number it stays so. -/
theorem Nonpositive.div {x y : F64} (hx : Nonpositive x) (hy : finite y = true) (hs : sign y = false)
    (h0 : isZero y = false) (ν : Nat) : Nonpositive (div ν x y) := by
  rcases hx.2 with hsx | hx0
  · have hsign : (sign x != sign y) = true := by rw [hsx, hs]; rfl
    simp only [F64.div, hx.1, isNaN_of_finite hy, isInf_of_finite hy, h0, hsign, Bool.or_self, Bool.false_eq_true, if_false]
    split
    · exact ⟨isNaN_of_isInf (isInf_pack _), .inl (sign_pack _ infBits_lt)⟩
    · exact .round _ _
  · exact .of_isZero (isZero_div hx0 (isNaN_of_finite hy) h0 ν)

/-! Products. -/

/-- A product that is not of a zero and an infinity has its sign, and an infinity remains one (R148). -/
theorem mul_of_not_invalid {x y : F64} (hx : isNaN x = false) (hy : isNaN y = false)
    (hxy : isInf x = true → isZero y = false) (hyx : isInf y = true → isZero x = false) (ν : Nat) :
    isNaN (mul ν x y) = false ∧ sign (mul ν x y) = (sign x != sign y) ∧
      (isInf y = true → isInf (mul ν x y) = true) := by
  simp only [mul, hx, hy, Bool.or_self, Bool.false_eq_true, if_false]
  by_cases hinf : (isInf x || isInf y) = true
  · have hzero : (isZero x || isZero y) = false := by
      rcases Bool.or_eq_true_iff.1 hinf with h | h
      · rw [isZero_of_isInf h, hxy h]; rfl
      · rw [isZero_of_isInf h, hyx h]; rfl
    rw [if_pos hinf, hzero, if_neg Bool.false_ne_true]
    exact ⟨isNaN_of_isInf (isInf_pack _), sign_pack _ infBits_lt, fun _ => isInf_pack _⟩
  · rw [if_neg hinf]
    exact ⟨isNaN_round _ _ _, sign_round _ _ _, fun h => absurd (Bool.or_eq_true_iff.2 (.inr h)) hinf⟩

/-- A negative number times a word, times that word again, is not above zero. -/
theorem Nonpositive.mul_mul {a c : F64} (ha : finite a = true) (hs : sign a = true) (h0 : isZero a = false)
    (hc : isNaN c = false) (ν ν' : Nat) : Nonpositive (mul ν' (mul ν a c) c) := by
  have hainf : isInf a = true → isZero c = false := fun h =>
    absurd h (by rw [isInf_of_finite ha]; exact Bool.false_ne_true)
  obtain ⟨hnan, hsign, hinf⟩ := mul_of_not_invalid (isNaN_of_finite ha) hc hainf (fun _ => h0) ν
  have hzero : isInf (mul ν a c) = true → isZero c = false := fun hm => Bool.eq_false_iff.2 fun hc0 => by
    have hm0 := isZero_mul ha hc0 ν
    rw [isZero_of_isInf hm] at hm0
    exact Bool.false_ne_true hm0
  obtain ⟨hnan', hsign', -⟩ := mul_of_not_invalid hnan hc hzero (fun h => isZero_of_isInf (hinf h)) ν'
  refine ⟨hnan', .inl ?_⟩
  rw [hsign', hsign, hs]
  cases sign c <;> rfl

/-! Quotients by a number of magnitude 1 or more. -/

theorem unit_le_mag {y : F64} (h : 1022 * 2 ^ 52 + 2 ^ 52 ≤ absBits y) : unit ≤ mag y := by
  have hunit : magBits (1022 * 2 ^ 52 + 2 ^ 52) = unit := by
    rw [magBits_add (by decide) (fun _ => le_rfl), unit, two_pow_mul_eq (a := 52) (c := 1074) (by decide)]
  rw [mag_eq, ← hunit]
  exact magBits_strictMono.monotone h

theorem finite_div {x y : F64} (hx : finite x = true) (hy : isNaN y = false)
    (h : 1022 * 2 ^ 52 + 2 ^ 52 ≤ absBits y) (ν : Nat) : finite (div ν x y) = true := by
  by_cases hinf : isInf y = true
  · simp only [div, isNaN_of_finite hx, hy, isInf_of_finite hx, hinf, Bool.or_self, Bool.false_eq_true, if_false, if_true]
    exact finite_of_isZero (isZero_pack _)
  · have hfin : finite y = true := by rw [finite_eq, hy, Bool.eq_false_iff.2 hinf]; rfl
    have h0 : isZero y = false := beq_eq_false_iff_ne.2 (by omega)
    have hmag := unit_le_mag h
    have hpos := unit_pos
    rw [div_finite hx hfin h0]
    refine finite_round (by omega) _ ?_
    calc mag x * unit < (2 ^ 54 - 1) * 2 ^ 2044 * unit := Nat.mul_lt_mul_of_pos_right (mag_lt hx) hpos
      _ ≤ (2 ^ 54 - 1) * 2 ^ 2044 * mag y := Nat.mul_le_mul_left _ hmag
      _ = mag y * ((2 ^ 54 - 1) * 2 ^ 2044) := Nat.mul_comm _ _

theorem rank_le_absBits (x : F64) : rank x ≤ absBits x := by
  unfold rank
  split <;> omega

end Sys2Proof.F64

namespace Sys2Proof.Machine

open F64 (Nonpositive)

/-- The instants of a grid are finite, the rate being at least `FS_MIN` (R7, R137). -/
theorem finite_instant {s : State} {g : Grid} (hg : grid s = some g) {i : Nat} (hi : i < 2 ^ 53) (ν : Nat) :
    F64.finite (g.instant ν i) = true := by
  obtain ⟨-, -, -, hfs, -⟩ := grid_some hg
  have hnan := isNaN_sanMin (.inl rfl) s.par.fs
  have hle := (F64.le_iff (by decide) hnan).1 (le_sanMin (m := fsMin) (by decide) s.par.fs)
  have hmin : 1022 * 2 ^ 52 + 2 ^ 52 ≤ F64.rank fsMin := by decide
  have habs : 1022 * 2 ^ 52 + 2 ^ 52 ≤ F64.absBits (sanMin s.par.fs fsMin).1 := by
    have hrank := F64.rank_le_absBits (sanMin s.par.fs fsMin).1
    omega
  rw [Grid.instant, hfs]
  exact F64.finite_div (integersConvertExactly.1 i hi).1 hnan habs ν

/-- An angle of finite operands is the same in every command (R12, log entry 7). -/
theorem angle_eq {f x : F64} (hf : F64.finite f = true) (hx : F64.finite x = true) {ν : Nat}
    (hprod : F64.finite (F64.mul ν twoPi f) = true) (ν' : Nat) : angle ν' f x = angle ν f x := by
  have htwoPi : F64.finite twoPi = true := by decide
  have hsame : F64.mul ν' twoPi f = F64.mul ν twoPi f := by rw [F64.mul_finite htwoPi hf, F64.mul_finite htwoPi hf]
  rw [angle, angle, hsame, F64.mul_finite hprod hx, F64.mul_finite hprod hx]

/-- The amplitude of a 0 bit is a negative number (R132, R161). -/
theorem nrz_zero_bit {s : State} {g : Grid} (hg : grid s = some g) :
    F64.finite (nrz g.amp false) = true ∧ F64.sign (nrz g.amp false) = true ∧ F64.isZero (nrz g.amp false) = false := by
  obtain ⟨-, -, hamp, -⟩ := grid_some hg
  obtain ⟨hfin, hpos, -⟩ := clampedValuesAreLegal.2.1 s.par.amp
  rw [← hamp] at hfin hpos
  obtain ⟨hsign, hzero⟩ := sign_isZero_of_gt_zero (F64.isNaN_of_finite hfin) hpos
  rw [nrz, if_neg Bool.false_ne_true, F64.finite_neg, F64.sign_neg, hsign, F64.isZero, F64.absBits_neg]
  exact ⟨hfin, rfl, hzero⟩

/-- A positive count is a positive number (R11). -/
theorem ofNat_pos {n : Nat} (h : 1 ≤ n) (hn : n < 2 ^ 53) :
    F64.finite (F64.ofNat n) = true ∧ F64.sign (F64.ofNat n) = false ∧ F64.isZero (F64.ofNat n) = false := by
  refine ⟨(integersConvertExactly.1 n hn).1, F64.sign_round _ _ _, Bool.eq_false_iff.2 fun h0 => ?_⟩
  have hval := (integersConvertExactly.1 n hn).2
  rw [F64value_eq, F64.mag_of_isZero h0, Nat.cast_zero, mul_zero, zero_div] at hval
  have : n = 0 := by exact_mod_cast hval.symm
  omega

/-- A sample of a bit window belongs to that bit (R141). -/
theorem owner_bit_sample {g : Grid} {b j : Nat} (hb : b < g.nb) (hj : j < g.spb) : g.owner (b * g.spb + j) = b := by
  rw [Grid.owner, Nat.mul_comm, Nat.mul_add_div (by omega), Nat.div_eq_of_lt hj]
  omega

section
variable {s : State} {g : Grid} (hinv : s.Inv) (hg : grid s = some g)
include hinv hg

/-- What `DEMOD_BPSK` finds after `GEN_BPSK`. -/
theorem genBpskBody_counts :
    (genBpskBody s).Inv ∧ (genBpskBody s).status.genValid = true ∧ sampleCount (genBpskBody s) = g.n ∧
      samplesPerBit (genBpskBody s) = g.spb ∧ decisionCount (genBpskBody s) = g.ndec ∧
      carrierFreq (genBpskBody s) = carrierFreq s := by
  obtain ⟨hder, hpar, hstatus, -⟩ := genBpskBody_registers hg
  obtain ⟨hn, hspb, hndec, -, -, -, -, -, hvalid, -⟩ := generated_registers hinv hg hder hstatus
  refine ⟨Inv_genBpskBody hinv, hvalid, hn, hspb, hndec, ?_⟩
  rw [carrierFreq, carrierFreq, hpar]
  split <;> rfl

variable (hfin : F64.finite (F64.mul s.fresh.nans twoPi (carrierFreq s)) = true)
  (hcar : ∀ k, k < g.n → F64.isNaN (entry (genBpskBody s) .car k) = false)
include hfin hcar

/-- A mixed sample owned by a 0 bit is not above zero. -/
theorem mixed_nonpositive {k : Nat} (hk : k < g.n) (hbit : sourceBit s (g.owner k) = false) :
    Nonpositive (entry (demodBpskBody (genBpskBody s)) .mixed k) := by
  obtain ⟨hinv', hvalid, hn, -, -, hfc⟩ := genBpskBody_counts hinv hg
  obtain ⟨-, -, -, -, -, hn16, -⟩ := grid_bounds hinv hg
  obtain ⟨ht, hbb, hck, hmod, hrx⟩ := entry_genBpskBody hinv hg hk
  obtain ⟨hafin, hasign, hazero⟩ := nrz_zero_bit hg
  have hinstant := finite_instant hg (i := k) (by omega) s.fresh.nans
  have hfreq : F64.finite (carrierFreq s) = true := sanFreq_finite _
  rw [(entry_demodBpskBody_mixed hinv' hvalid (hn.symm ▸ hk)).1, hfc, ht,
    angle_eq hfreq hinstant hfin, ← hck, hrx, hmod, hbb, hbit]
  exact Nonpositive.mul_mul hafin hasign hazero (hcar k hk) _ _

/-- The filtered signal at the end of a 0 bit is not above zero: its window is the bit. -/
theorem filt_nonpositive {b : Nat} (hb : b < g.nb) (hbit : sourceBit s b = false) (hnb : g.nb ≤ g.n) :
    Nonpositive (entry (demodBpskBody (genBpskBody s)) .filt (b * g.spb + g.spb - 1)) := by
  obtain ⟨hinv', hvalid, hn, hspb, -, -⟩ := genBpskBody_counts hinv hg
  obtain ⟨-, -, -, -, -, hn16, hspb1, hspbn, -⟩ := grid_bounds hinv hg
  obtain ⟨-, -, -, -, hfit, -⟩ := gridSizesInRange s g hg
  have hend : (b + 1) * g.spb ≤ g.n := (Nat.mul_le_mul_right _ hb).trans (hfit hnb).2.2
  rw [Nat.add_mul, Nat.one_mul] at hend
  have hwindow : min (b * g.spb + g.spb - 1 + 1) g.spb = g.spb := by omega
  have hfirst : b * g.spb + g.spb - 1 + 1 - g.spb = b * g.spb := by omega
  obtain ⟨hcfin, hcsign, hczero⟩ := ofNat_pos hspb1 (by omega)
  rw [entry_demodBpskBody_filt hinv' hvalid (by omega), hspb, hwindow, hfirst]
  refine Nonpositive.div (Nonpositive.sum _ fun j hj => ?_) hcfin hcsign hczero _
  refine mixed_nonpositive hinv hg hfin hcar (by omega) ?_
  rw [owner_bit_sample hb hj, hbit]

end

/-- Settles O49: the statistic of such a bit is not above zero. -/
theorem zeroBitsSurviveTheRoundTrip : Obligations.ZeroBitsSurviveTheRoundTrip := by
  intro s t u g hinv hidle hg hpolicy hnb hgen hdemod hfin hcar b hb hbit
  obtain ⟨-, hctrl, -, -, -, hphase⟩ := commandBody_keeps .genBpsk s
  obtain rfl := eq_commandBody_of_exec hgen hidle nofun
  obtain rfl := eq_commandBody_of_exec hdemod (hphase.trans hidle) nofun
  obtain ⟨hinv', hvalid, -, hspb, hndec, -⟩ := genBpskBody_counts hinv hg
  obtain ⟨-, -, -, -, hdecided, -⟩ := gridSizesInRange s g hg
  have hb' : b < decisionCount (genBpskBody s) := by
    rw [hndec]
    exact hb.trans_le (hdecided hnb).1
  have hstat := statistic_filtered hinv' hvalid hb'
  have hpolicy' : (genBpskBody s).ctrl.policy = .atEnd := (congrArg Ctrl.policy hctrl).trans hpolicy
  simp only [hpolicy', hspb] at hstat
  have hdec := entry_demodBpskBody_dec hinv' hvalid hb'
  rw [hstat, (filt_nonpositive hinv hg hfin hcar hb hbit hnb).gt_zero] at hdec
  exact hdec

end Sys2Proof.Machine
end
